-- ==== Sys2Proof/Word.lean ====
section
/-! DEFINITION. The machine word: what a register, a data-memory word, an immediate and a program-counter value are held in
(00_scope.md R10, 30_encoding.md R83). -/

namespace Sys2Proof

/-- A two's-complement signed integer (R10), as wide as the packed word's immediate (R83): `XLEN` is at most 32, and a value of a
narrower core is held sign-extended (log 11). `BitVec.toInt` is the integer it stands for. -/
abbrev Word := BitVec 32

/-- One packed instruction word (30_encoding.md R83). -/
abbrev PackedWord := BitVec 64

end Sys2Proof
end

