-- ==== Sys2Proof/Config.lean ====
section
/-! DEFINITION. The parameters of a core (00_scope.md R8), each a field of the record `Params`. `PROGRAM` is the field `imem` of
the state. -/

namespace Sys2Proof

/-- A register index (R80). The masks of opcode_table.json leave four bits of a register field (30_encoding.md R88), so `NREG` is
at most 16; the load refuses an index of `NREG` or above in a core that has fewer (log 11). -/
abbrev Reg := Fin 16

/-- `POLICY`, the hazard policy (R3): Scoreboard-Stall with the predictor, or Forward-Bypass without it. -/
inductive Policy where
  | ss
  | fb
  deriving DecidableEq, Repr

/-- The four predictor-trained mnemonics BZ, BNZ, BP, BNP (45_branch_predictor.md R230). -/
inductive Trained where
  | bz
  | bnz
  | bp
  | bnp
  deriving DecidableEq, Repr

/-- The parameters of one core, fixed when it is built (R8, R40). -/
structure Params where
  /-- `POLICY` -/
  policy : Policy
  /-- `XLEN`, the width in bits of a register, a memory word, an immediate and the pc -/
  xlen : Nat
  /-- `NREG`, the number of general registers -/
  nreg : Nat
  /-- `INSN_STRIDE`, the pc distance between consecutive instructions -/
  insnStride : Nat
  /-- `POSTINC`, what a post-increment access adds to its base register -/
  postInc : Nat
  /-- `CODE_BASE`, the program load address and reset pc -/
  codeBase : Word
  /-- `DMEM_WORDS`, the number of words of data memory -/
  dmemWords : Nat
  /-- `BTB_ENTRIES`, the predictor table's capacity -/
  btbEntries : Nat
  /-- `CTR_MAX`, the highest state of a saturating counter -/
  ctrMax : Nat
  /-- `CTR_NEUTRAL`, the counter state given at allocation -/
  ctrNeutral : Nat
  /-- `TAKEN_MIN(BZ)` -/
  minBZ : Nat
  /-- `TAKEN_MIN(BNZ)` -/
  minBNZ : Nat
  /-- `TAKEN_MIN(BP)` -/
  minBP : Nat
  /-- `TAKEN_MIN(BNP)` -/
  minBNP : Nat
  deriving DecidableEq, Repr

/-- `TAKEN_MIN(op)`, the least counter state that predicts taken (R8, 45_branch_predictor.md R234). -/
def Params.takenMin (P : Params) : Trained → Nat
  | .bz => P.minBZ
  | .bnz => P.minBNZ
  | .bp => P.minBP
  | .bnp => P.minBNP

/-- The spec's values (R8, decisions D1 to D4, D17, D18). `POLICY` has no default and is the argument. -/
def Params.standard (policy : Policy) : Params where
  policy := policy
  xlen := 32
  nreg := 16
  insnStride := 4
  postInc := 4
  codeBase := 4000#32
  dmemWords := 4096
  btbEntries := 4
  ctrMax := 2
  ctrNeutral := 1
  minBZ := 1
  minBNZ := 1
  minBP := 1
  minBNP := 1

end Sys2Proof
end

