-- ==== Sys2Proof/Syntax.lean ====
section
/-! DEFINITION. The instruction record (30_encoding.md R80): one constructor per row of the opcode table (R84), carrying
exactly the fields its format uses (R82), in the operand order of its assembly shape. -/

namespace Sys2Proof

/-- The 26 instructions of 30_encoding.md R84. A constructor holds the fields its format uses; a field the format does not
use is absent (R93). -/
inductive Instr where
  /-- `ADD Rd,Rs1,Rs2` (R251) -/
  | add (rd rs1 rs2 : Reg)
  /-- `SUB Rd,Rs1,Rs2` (R252) -/
  | sub (rd rs1 rs2 : Reg)
  /-- `MUL Rd,Rs1,Rs2` (R253) -/
  | mul (rd rs1 rs2 : Reg)
  /-- `DIV Rd,Rs1,Rs2` (R254) -/
  | div (rd rs1 rs2 : Reg)
  /-- `AND Rd,Rs1,Rs2` (R255) -/
  | and (rd rs1 rs2 : Reg)
  /-- `OR Rd,Rs1,Rs2` (R256) -/
  | or (rd rs1 rs2 : Reg)
  /-- `XOR Rd,Rs1,Rs2` (R257) -/
  | xor (rd rs1 rs2 : Reg)
  /-- `MOVC Rd,#imm` (R260) -/
  | movc (rd : Reg) (imm : Word)
  /-- `LOAD Rd,Rs1,#imm` (R281) -/
  | load (rd rs1 : Reg) (imm : Word)
  /-- `STORE Rs1,Rs2,#imm` (R283): `rs1` holds the value, `rs2` the base -/
  | store (rs1 rs2 : Reg) (imm : Word)
  /-- `BZ,#imm` (R301) -/
  | bz (imm : Word)
  /-- `BNZ,#imm` (R302) -/
  | bnz (imm : Word)
  /-- `HALT` (R310) -/
  | halt
  /-- `ADDL Rd,Rs1,#imm` (R258) -/
  | addl (rd rs1 : Reg) (imm : Word)
  /-- `SUBL Rd,Rs1,#imm` (R259) -/
  | subl (rd rs1 : Reg) (imm : Word)
  /-- `LOADP Rd,Rs1,#imm` (R282) -/
  | loadp (rd rs1 : Reg) (imm : Word)
  /-- `STOREP Rs1,Rs2,#imm` (R284): `rs1` holds the value, `rs2` the base, which is also written -/
  | storep (rs1 rs2 : Reg) (imm : Word)
  /-- `CMP Rs1,Rs2` (R261) -/
  | cmp (rs1 rs2 : Reg)
  /-- `CML Rs1,#imm` (R262) -/
  | cml (rs1 : Reg) (imm : Word)
  /-- `BP,#imm` (R303) -/
  | bp (imm : Word)
  /-- `BNP,#imm` (R304) -/
  | bnp (imm : Word)
  /-- `BN,#imm` (R305) -/
  | bn (imm : Word)
  /-- `BNN,#imm` (R306) -/
  | bnn (imm : Word)
  /-- `JUMP Rs1,#imm` (R307) -/
  | jump (rs1 : Reg) (imm : Word)
  /-- `JALR Rd,Rs1,#imm` (R308) -/
  | jalr (rd rs1 : Reg) (imm : Word)
  /-- `NOP` (R309) -/
  | nop
  deriving DecidableEq, Repr

/-- The opcode class of a record (R80, R87). -/
inductive OpClass where
  | arith
  | logic
  | move
  | compare
  | load
  | store
  | branch
  | jump
  | misc
  deriving DecidableEq, Repr

/-- The eight operand formats (R82). -/
inductive Format where
  | rrr
  | rri
  | ri
  | sti
  | crr
  | si
  | bi
  | n
  deriving DecidableEq, Repr

/-- The class column of the opcode map (R84, R87). -/
def Instr.opClass : Instr → OpClass
  | .add .. | .sub .. | .mul .. | .div .. | .addl .. | .subl .. => .arith
  | .and .. | .or .. | .xor .. => .logic
  | .movc .. => .move
  | .cmp .. | .cml .. => .compare
  | .load .. | .loadp .. => .load
  | .store .. | .storep .. => .store
  | .bz .. | .bnz .. | .bp .. | .bnp .. | .bn .. | .bnn .. => .branch
  | .jump .. | .jalr .. => .jump
  | .nop | .halt => .misc

/-- The format column of the opcode map (R82, R84). -/
def Instr.format : Instr → Format
  | .add .. | .sub .. | .mul .. | .div .. | .and .. | .or .. | .xor .. => .rrr
  | .addl .. | .subl .. | .load .. | .loadp .. | .jalr .. => .rri
  | .movc .. => .ri
  | .store .. | .storep .. => .sti
  | .cmp .. => .crr
  | .cml .. | .jump .. => .si
  | .bz .. | .bnz .. | .bp .. | .bnp .. | .bn .. | .bnn .. => .bi
  | .nop | .halt => .n

end Sys2Proof
end

