-- ==== Sys2Proof/WellFormed.lean ====
section
/-! DEFINITION. What `initialize` checks before it builds an engine: the program (30_encoding.md R94, R96) and the
parameters (60_exceptions.md R335). That the mnemonic is one of the 26 is carried by the type `Instr`; the decoder checks it of a
packed word. -/

namespace Sys2Proof

/-- An instruction that is not the refused form `LOADP Rd,Rs1` with `rd = rs1` (R94). -/
def Instr.wellFormed : Instr → Bool
  | .loadp rd rs1 _ => rd != rs1
  | .add .. | .sub .. | .mul .. | .div .. | .and .. | .or .. | .xor .. | .movc .. | .load .. | .store .. | .bz ..
  | .bnz .. | .halt | .addl .. | .subl .. | .storep .. | .cmp .. | .cml .. | .bp .. | .bnp .. | .bn .. | .bnn ..
  | .jump .. | .jalr .. | .nop => true

/-- The register fields an instruction's format uses (30_encoding.md R82). -/
def Instr.registers : Instr → List Reg
  | .add rd rs1 rs2 | .sub rd rs1 rs2 | .mul rd rs1 rs2 | .div rd rs1 rs2 | .and rd rs1 rs2 | .or rd rs1 rs2
  | .xor rd rs1 rs2 => [rd, rs1, rs2]
  | .addl rd rs1 _ | .subl rd rs1 _ | .load rd rs1 _ | .loadp rd rs1 _ | .jalr rd rs1 _ => [rd, rs1]
  | .store rs1 rs2 _ | .storep rs1 rs2 _ | .cmp rs1 rs2 => [rs1, rs2]
  | .movc rd _ => [rd]
  | .cml rs1 _ | .jump rs1 _ => [rs1]
  | .bz .. | .bnz .. | .bp .. | .bnp .. | .bn .. | .bnn .. | .nop | .halt => []

/-- The immediate, for a format that has one (30_encoding.md R82). -/
def Instr.immediate : Instr → Option Word
  | .addl _ _ imm | .subl _ _ imm | .load _ _ imm | .loadp _ _ imm | .jalr _ _ imm => some imm
  | .store _ _ imm | .storep _ _ imm => some imm
  | .movc _ imm | .cml _ imm | .jump _ imm => some imm
  | .bz imm | .bnz imm | .bp imm | .bnp imm | .bn imm | .bnn imm => some imm
  | .add .. | .sub .. | .mul .. | .div .. | .and .. | .or .. | .xor .. | .cmp .. | .nop | .halt => none

/-- A word in the range of an `XLEN`-bit signed integer (00_scope.md R10). -/
def Params.holds (P : Params) (v : Word) : Bool :=
  decide (-(2 : Int) ^ (P.xlen - 1) ≤ v.toInt) && decide (v.toInt < (2 : Int) ^ (P.xlen - 1))

/-- Every register field in `0 .. NREG-1` and the immediate in the `XLEN`-bit range (R96). -/
def Instr.inRange (P : Params) (i : Instr) : Bool :=
  i.registers.all (fun r => decide (r.val < P.nreg)) && i.immediate.toList.all P.holds

/-- A well-formed `PROGRAM` is non-empty and holds only admitted instructions (R96). -/
def programWellFormed (P : Params) (program : List Instr) : Bool :=
  !program.isEmpty && program.all (fun i => i.inRange P && i.wellFormed)

/-- `TAKEN_MIN` takes one of two values (R234, R335). -/
def takenMinWellFormed (m : Nat) : Bool := m == 1 || m == 2

/-- What is asked of the sizes: `XLEN` 1 to 32 and `NREG` 1 to 16, since the packed form carries no more (R83, R88);
`INSN_STRIDE` and `DMEM_WORDS` positive; `CODE_BASE` an `XLEN`-bit value (R10). The spec says only that these are positive
(92_eei_decisions.md, open parameters); refusing others is the model's reading (log 23). -/
def Params.sizesWellFormed (P : Params) : Bool :=
  decide (1 ≤ P.xlen) && decide (P.xlen ≤ 32) && decide (1 ≤ P.nreg) && decide (P.nreg ≤ 16) && decide (1 ≤ P.insnStride)
    && decide (1 ≤ P.dmemWords) && P.holds P.codeBase

/-- What is asked of the predictor's parameters: `BTB_ENTRIES` at least 1, every `TAKEN_MIN` 1 or 2 (R335), and a counter that
two bits hold (10_state.md R39, log 23). -/
def Params.predictorWellFormed (P : Params) : Bool :=
  decide (1 ≤ P.btbEntries) && decide (P.ctrMax ≤ 3) && decide (P.ctrNeutral ≤ P.ctrMax) && takenMinWellFormed P.minBZ
    && takenMinWellFormed P.minBNZ && takenMinWellFormed P.minBP && takenMinWellFormed P.minBNP

/-- A parameter set that `initialize` accepts (R335; beyond R335's own list, log 23). -/
def Params.wellFormed (P : Params) : Bool := P.sizesWellFormed && P.predictorWellFormed

end Sys2Proof
end

