-- ==== Sys2Proof/Decode.lean ====
section
/-! DEFINITION. The packed 64-bit word (30_encoding.md R83, R84, R88, R93): its fields, the decoder, the encoder, and the
opcode table's rows as masks and patterns (opcode_table.json). -/

namespace Sys2Proof

/-- The five fields of a packed word (R83). -/
structure Fields where
  opcode : BitVec 8
  rd : BitVec 8
  rs1 : BitVec 8
  rs2 : BitVec 8
  imm : BitVec 32
  deriving DecidableEq, Repr

/-- `w[63:56]`, `w[55:48]`, `w[47:40]`, `w[39:32]`, `w[31:0]` (R83). -/
def fieldsOf (w : PackedWord) : Fields where
  opcode := w.extractLsb' 56 8
  rd := w.extractLsb' 48 8
  rs1 := w.extractLsb' 40 8
  rs2 := w.extractLsb' 32 8
  imm := w.extractLsb' 0 32

/-- The five fields put together, most significant first (R83). -/
def Fields.pack (f : Fields) : PackedWord := f.opcode ++ f.rd ++ f.rs1 ++ f.rs2 ++ f.imm

/-- Why a packed word spells no instruction (R88). -/
inductive DecodeError where
  /-- the opcode byte is `0x1A` or above -/
  | unknownOpcode (opcode : BitVec 8)
  /-- a register field that the format uses is 16 or above, the `NREG` of the table -/
  | registerOutOfRange (field : BitVec 8)
  /-- a field that the format does not use is not zero (R93) -/
  | unusedFieldNotZero
  deriving DecidableEq, Repr

/-- What the decoder answers. -/
abbrev Decoded := Except DecodeError Instr

/-- A register field that the format uses: below 16, or the word is ill-formed (R88). In a core with fewer registers
the load makes the closer check (`Instr.inRange`). -/
def takeReg (b : BitVec 8) (k : Reg → Decoded) : Decoded :=
  if h : b.toNat < 16 then k ⟨b.toNat, h⟩ else .error (.registerOutOfRange b)

/-- Fields that the format does not use must be zero (R93). -/
def requireZero (unusedAreZero : Bool) (k : Decoded) : Decoded :=
  if unusedAreZero then k else .error .unusedFieldNotZero

/-- Format `RRR`: `rd`, `rs1`, `rs2` (R82). -/
def Fields.asRRR (f : Fields) (mk : Reg → Reg → Reg → Instr) : Decoded :=
  takeReg f.rd fun rd => takeReg f.rs1 fun rs1 => takeReg f.rs2 fun rs2 =>
    requireZero (f.imm == 0#32) (.ok (mk rd rs1 rs2))

/-- Format `RRI`: `rd`, `rs1`, `imm` (R82). -/
def Fields.asRRI (f : Fields) (mk : Reg → Reg → Word → Instr) : Decoded :=
  takeReg f.rd fun rd => takeReg f.rs1 fun rs1 => requireZero (f.rs2 == 0#8) (.ok (mk rd rs1 f.imm))

/-- Format `RI`: `rd`, `imm` (R82). -/
def Fields.asRI (f : Fields) (mk : Reg → Word → Instr) : Decoded :=
  takeReg f.rd fun rd => requireZero (f.rs1 == 0#8 && f.rs2 == 0#8) (.ok (mk rd f.imm))

/-- Format `STI`: `rs1`, `rs2`, `imm` (R82). -/
def Fields.asSTI (f : Fields) (mk : Reg → Reg → Word → Instr) : Decoded :=
  takeReg f.rs1 fun rs1 => takeReg f.rs2 fun rs2 => requireZero (f.rd == 0#8) (.ok (mk rs1 rs2 f.imm))

/-- Format `CRR`: `rs1`, `rs2` (R82). -/
def Fields.asCRR (f : Fields) (mk : Reg → Reg → Instr) : Decoded :=
  takeReg f.rs1 fun rs1 => takeReg f.rs2 fun rs2 =>
    requireZero (f.rd == 0#8 && f.imm == 0#32) (.ok (mk rs1 rs2))

/-- Format `SI`: `rs1`, `imm` (R82). -/
def Fields.asSI (f : Fields) (mk : Reg → Word → Instr) : Decoded :=
  takeReg f.rs1 fun rs1 => requireZero (f.rd == 0#8 && f.rs2 == 0#8) (.ok (mk rs1 f.imm))

/-- Format `BI`: `imm` (R82). -/
def Fields.asBI (f : Fields) (mk : Word → Instr) : Decoded :=
  requireZero (f.rd == 0#8 && f.rs1 == 0#8 && f.rs2 == 0#8) (.ok (mk f.imm))

/-- Format `N`: no field (R82). -/
def Fields.asN (f : Fields) (i : Instr) : Decoded :=
  requireZero (f.rd == 0#8 && f.rs1 == 0#8 && f.rs2 == 0#8 && f.imm == 0#32) (.ok i)

/-- The opcode map (R84), read by opcode number. -/
def Fields.toInstr (f : Fields) : Decoded :=
  match f.opcode.toNat with
  | 0x00 => f.asRRR .add
  | 0x01 => f.asRRR .sub
  | 0x02 => f.asRRR .mul
  | 0x03 => f.asRRR .div
  | 0x04 => f.asRRR .and
  | 0x05 => f.asRRR .or
  | 0x06 => f.asRRR .xor
  | 0x07 => f.asRI .movc
  | 0x08 => f.asRRI .load
  | 0x09 => f.asSTI .store
  | 0x0A => f.asBI .bz
  | 0x0B => f.asBI .bnz
  | 0x0C => f.asN .halt
  | 0x0D => f.asRRI .addl
  | 0x0E => f.asRRI .subl
  | 0x0F => f.asRRI .loadp
  | 0x10 => f.asSTI .storep
  | 0x11 => f.asCRR .cmp
  | 0x12 => f.asSI .cml
  | 0x13 => f.asBI .bp
  | 0x14 => f.asBI .bnp
  | 0x15 => f.asBI .bn
  | 0x16 => f.asBI .bnn
  | 0x17 => f.asSI .jump
  | 0x18 => f.asRRI .jalr
  | 0x19 => f.asN .nop
  | _ => .error (.unknownOpcode f.opcode)

/-- The decoder of one packed word, total on all words (R83, R84, R88). `LOADP` with `rd = rs1` is a well-formed word
(R94): the program check of WellFormed.lean refuses it, not the decoder. -/
def decode (w : PackedWord) : Decoded := (fieldsOf w).toInstr

/-- A whole program of packed words (R90: one 64-bit word per instruction). -/
def decodeProgram (ws : List PackedWord) : Except DecodeError (List Instr) :=
  match ws with
  | [] => .ok []
  | w :: rest =>
    match decode w, decodeProgram rest with
    | .ok i, .ok is => .ok (i :: is)
    | .error e, _ => .error e
    | .ok _, .error e => .error e

/-- A register index in an eight-bit field (R83). -/
def regField (r : Reg) : BitVec 8 := BitVec.ofNat 8 r.val

/-- The fields of an instruction's packed word: the opcode number (R84), the used fields, zero in the unused ones (R93). -/
def Instr.fields : Instr → Fields
  | .add rd rs1 rs2 => ⟨0x00#8, regField rd, regField rs1, regField rs2, 0#32⟩
  | .sub rd rs1 rs2 => ⟨0x01#8, regField rd, regField rs1, regField rs2, 0#32⟩
  | .mul rd rs1 rs2 => ⟨0x02#8, regField rd, regField rs1, regField rs2, 0#32⟩
  | .div rd rs1 rs2 => ⟨0x03#8, regField rd, regField rs1, regField rs2, 0#32⟩
  | .and rd rs1 rs2 => ⟨0x04#8, regField rd, regField rs1, regField rs2, 0#32⟩
  | .or rd rs1 rs2 => ⟨0x05#8, regField rd, regField rs1, regField rs2, 0#32⟩
  | .xor rd rs1 rs2 => ⟨0x06#8, regField rd, regField rs1, regField rs2, 0#32⟩
  | .movc rd imm => ⟨0x07#8, regField rd, 0#8, 0#8, imm⟩
  | .load rd rs1 imm => ⟨0x08#8, regField rd, regField rs1, 0#8, imm⟩
  | .store rs1 rs2 imm => ⟨0x09#8, 0#8, regField rs1, regField rs2, imm⟩
  | .bz imm => ⟨0x0A#8, 0#8, 0#8, 0#8, imm⟩
  | .bnz imm => ⟨0x0B#8, 0#8, 0#8, 0#8, imm⟩
  | .halt => ⟨0x0C#8, 0#8, 0#8, 0#8, 0#32⟩
  | .addl rd rs1 imm => ⟨0x0D#8, regField rd, regField rs1, 0#8, imm⟩
  | .subl rd rs1 imm => ⟨0x0E#8, regField rd, regField rs1, 0#8, imm⟩
  | .loadp rd rs1 imm => ⟨0x0F#8, regField rd, regField rs1, 0#8, imm⟩
  | .storep rs1 rs2 imm => ⟨0x10#8, 0#8, regField rs1, regField rs2, imm⟩
  | .cmp rs1 rs2 => ⟨0x11#8, 0#8, regField rs1, regField rs2, 0#32⟩
  | .cml rs1 imm => ⟨0x12#8, 0#8, regField rs1, 0#8, imm⟩
  | .bp imm => ⟨0x13#8, 0#8, 0#8, 0#8, imm⟩
  | .bnp imm => ⟨0x14#8, 0#8, 0#8, 0#8, imm⟩
  | .bn imm => ⟨0x15#8, 0#8, 0#8, 0#8, imm⟩
  | .bnn imm => ⟨0x16#8, 0#8, 0#8, 0#8, imm⟩
  | .jump rs1 imm => ⟨0x17#8, 0#8, regField rs1, 0#8, imm⟩
  | .jalr rd rs1 imm => ⟨0x18#8, regField rd, regField rs1, 0#8, imm⟩
  | .nop => ⟨0x19#8, 0#8, 0#8, 0#8, 0#32⟩

/-- The packed word of an instruction (R83). -/
def encode (i : Instr) : PackedWord := i.fields.pack

/-- The instruction that the decoder reads from `nbits` bits numbered as opcode_table.json numbers them: the table's rows
are one 64-bit word (R90), so bits above `nbits` are zero and more than 64 bits are no word. -/
def decodeTableWord (nbits w : Nat) : Option Instr :=
  if nbits ≤ 64 then
    match decode (BitVec.ofNat 64 (w % 2 ^ nbits)) with
    | .ok i => some i
    | .error _ => none
  else none

/-- The `match` value of an instruction's row in opcode_table.json: the opcode number, every other bit zero (R88). -/
def Instr.rowMatch (i : Instr) : PackedWord := i.fields.opcode ++ 0#56

/-- The `mask` value of a format in opcode_table.json: the opcode byte, every bit of each unused field, and the upper four
bits of each used register field (R88). -/
def Format.rowMask : Format → PackedWord
  | .rrr => 0xFFF0F0F0FFFFFFFF#64
  | .rri => 0xFFF0F0FF00000000#64
  | .ri => 0xFFF0FFFF00000000#64
  | .sti => 0xFFFFF0F000000000#64
  | .crr => 0xFFFFF0F0FFFFFFFF#64
  | .si => 0xFFFFF0FF00000000#64
  | .bi => 0xFFFFFFFF00000000#64
  | .n => 0xFFFFFFFFFFFFFFFF#64

/-- The rows of the opcode table as (mask, match) pairs, in opcode order (R84, R88). -/
def opcodeRows : List (PackedWord × PackedWord) :=
  [(Format.rrr, 0x00#8), (.rrr, 0x01#8), (.rrr, 0x02#8), (.rrr, 0x03#8), (.rrr, 0x04#8), (.rrr, 0x05#8), (.rrr, 0x06#8),
   (.ri, 0x07#8), (.rri, 0x08#8), (.sti, 0x09#8), (.bi, 0x0A#8), (.bi, 0x0B#8), (.n, 0x0C#8)].map rowOf ++
  [(Format.rri, 0x0D#8), (.rri, 0x0E#8), (.rri, 0x0F#8), (.sti, 0x10#8), (.crr, 0x11#8), (.si, 0x12#8), (.bi, 0x13#8),
   (.bi, 0x14#8), (.bi, 0x15#8), (.bi, 0x16#8), (.si, 0x17#8), (.rri, 0x18#8), (.n, 0x19#8)].map rowOf
where
  rowOf (r : Format × BitVec 8) : PackedWord × PackedWord := (r.1.rowMask, r.2 ++ 0#56)

end Sys2Proof
end

