-- ==== Sys2Proof/Machine/State.lean ====
section
/-! DEFINITION. The state of the core as plain data (10_state.md, all of it), the reasons a run can stop, and the state
after reset (10_state.md R43). -/

namespace Sys2Proof.Machine

/-- The faults of 60_exceptions.md R330. The hardware RECORDS a fault in its state and becomes terminal (R336), so the
stages never stop a step with one of these: `raise` in Ops.lean writes it into `State.fault`, and the step answers a next
state. Recording them is exact, neither safer nor less safe than the spec. -/
inductive Fault where
  /-- Raised by the Memory stage for an effective address outside data memory (R331): the instruction's `pc` and the
  address. The spec's own fault: no difference from the hardware. -/
  | memoryFault (pc addr : Word)
  /-- Raised by the Execute stage for a division by zero or of the most negative number by -1 (R332). The spec's own
  fault: no difference from the hardware. -/
  | arithmeticFault (pc : Word)
  /-- Raised by the Decode stage for the INVALID marker (R333): the address that has no instruction. The spec's own
  fault: no difference from the hardware. -/
  | fetchFault (pc : Word)
  /-- Raised where a stage would read a latch field that no rule has written, or finds INVALID past Decode (R34, R334):
  impossible in a reachable state. Safe: the model stops where the spec gives no value. -/
  | invariantFault
  deriving DecidableEq, Repr

/-- The code numbers of 60_exceptions.md R330. -/
def Fault.code : Fault → Nat
  | .memoryFault .. => 1
  | .arithmeticFault .. => 2
  | .fetchFault .. => 3
  | .invariantFault => 4

/-- Why the host's load of a program creates no engine (60_exceptions.md R335). -/
inductive LoadError where
  /-- the program is empty (R96) -/
  | emptyProgram
  /-- a register field is `NREG` or above, or an immediate is outside the `XLEN`-bit range (R96) -/
  | operandOutOfRange
  /-- a packed word spells no instruction (R88) -/
  | illFormedWord (why : DecodeError)
  /-- `LOADP` with `rd = rs1` (R94) -/
  | refusedForm
  /-- the parameter set is invalid (R335) -/
  | badParameters
  deriving DecidableEq, Repr

/-- What is turned away without a next state. No instruction is: these are answers of the host operations, and of an
instruction that has no meaning in this model (there is none). -/
inductive Refusal where
  /-- Answered by `exec` for an instruction that has no meaning in this model; no arm answers it. Safe. -/
  | notModelled (mnemonic : String)
  /-- Answered by the host's load of a program when no engine is created (60_exceptions.md R335). Safe: the spec's own
  refusal. -/
  | loadError (why : LoadError)
  /-- Answered by the host's preload after the first tick or out of range (20_memory.md R74, 40_scheduler.md R120). Safe:
  the spec's own refusal. -/
  | preloadRefused
  deriving DecidableEq, Repr

/-- What a step, a stage action and a host operation answer. -/
abbrev Result (σ : Type) := Host.Outcome σ Fault Refusal

/-- The five stages (40_scheduler.md R111). -/
inductive Stage where
  | fetch
  | decode
  | execute
  | memory
  | writeback
  deriving DecidableEq, Repr

/-- The condition flags (10_state.md R26). -/
structure Flags where
  /-- `Z`, zero -/
  z : Bool
  /-- `P`, positive -/
  p : Bool
  /-- `N`, negative -/
  n : Bool
  deriving DecidableEq, Repr

/-- The `op` field of a latch, with the register and immediate fields its instruction uses: an instruction record, or the
marker INVALID of an address that has none (20_memory.md R66, 30_encoding.md R89). -/
inductive Fetched where
  | instr (i : Instr)
  | invalid
  deriving DecidableEq, Repr

/-- The contents of an occupied latch (10_state.md R33). A field that no rule has written for the instruction has no value
(R34, decision D32). -/
structure Latch where
  /-- address the instruction was fetched from -/
  pc : Word
  /-- `op`, `rd`, `rs1`, `rs2`, `imm` -/
  op : Fetched
  /-- operand value read at Decode for `rs1` -/
  v1 : Option Word
  /-- operand value read at Decode for `rs2` -/
  v2 : Option Word
  /-- result buffer -/
  res : Option Word
  /-- effective address of a load or store -/
  addr : Option Word
  /-- secondary result: post-incremented base -/
  res2 : Option Word
  deriving DecidableEq, Repr

/-- One entry of the predictor table (10_state.md R39). -/
structure BtbEntry where
  valid : Bool
  tag : Word
  target : Word
  /-- saturating counter: 2 bits, values `0 .. CTR_MAX` -/
  ctr : BitVec 2
  resolved : Bool
  deriving DecidableEq, Repr

/-- One listed word of data memory: its index and its value (20_memory.md R61: words, not bytes). -/
abbrev MemCell := Nat × Word

/-- The whole state of the core. -/
structure State where
  /-- the parameters the core was built with (00_scope.md R8); no rule writes them -/
  cfg : Params
  /-- `imem`, the instruction store (R32); no rule writes it -/
  imem : List Instr
  /-- `x[0 .. NREG-1]`, the committed registers (R20); a core with fewer than 16 uses the first `NREG` places -/
  x : Vector Word 16
  /-- `pc`, the address Fetch loads from next (R23) -/
  pc : Word
  /-- `Z`, `P`, `N` (R26) -/
  flags : Flags
  /-- `dmem` (R31): the words that are not 0, by strictly rising index -/
  dmem : List MemCell
  /-- `FL`: the last instruction loaded (R35); meaningful to the rules only while `flHeld` -/
  fl : Option Latch
  /-- `FL.held` (R35) -/
  flHeld : Bool
  /-- `fetch_en` (R35) -/
  fetchEn : Bool
  /-- `redirect_pending` (R35) -/
  redirectPending : Bool
  /-- `DL`; `none` is `DL.has = false` (R33) -/
  dl : Option Latch
  /-- `DL.stall` (R36) -/
  dlStall : Bool
  /-- `EL`; `none` is `EL.has = false` -/
  el : Option Latch
  /-- `ML`; `none` is `ML.has = false` -/
  ml : Option Latch
  /-- `WL`; `none` is `WL.has = false` -/
  wl : Option Latch
  /-- `busy[0 .. NREG-1]` (R37) -/
  busy : Vector Bool 16
  /-- `pend_f[0 .. NREG-1]` (R38) -/
  pendF : Vector Bool 16
  /-- `pend_v[0 .. NREG-1]` (R38) -/
  pendV : Vector Word 16
  /-- `btb[0 .. BTB_ENTRIES-1]` (R39) -/
  btb : List BtbEntry
  /-- `btb_head` (R39) -/
  btbHead : Nat
  /-- `clock` (R29) -/
  clock : Nat
  /-- `insn_completed` (R29) -/
  insnCompleted : Nat
  /-- `halted` (R29) -/
  halted : Bool
  /-- `fault` (R29) -/
  fault : Option Fault
  /-- the tick's output `committed` (40_scheduler.md R116): pc of the instruction committed in the last tick (model's own
  field, DESIGN CHOICE: log 8) -/
  committed : Option Word
  /-- which stage procedure of the tick runs (R111); `fetch` between ticks (model's own field, DESIGN CHOICE: log 1) -/
  turn : Stage
  deriving DecidableEq, Repr

/-- A predictor entry after reset (R43). -/
def BtbEntry.zero : BtbEntry := ⟨false, 0#32, 0#32, 0#2, false⟩

/-- The state `initialize` returns for the parameters `P` and the program (R43, 70_reset_and_hazards.md R360). -/
def State.resetWith (P : Params) (program : List Instr) : State where
  cfg := P
  imem := program
  x := Vector.replicate 16 0#32
  pc := P.codeBase
  flags := ⟨false, false, false⟩
  dmem := []
  fl := none
  flHeld := false
  fetchEn := true
  redirectPending := false
  dl := none
  dlStall := false
  el := none
  ml := none
  wl := none
  busy := Vector.replicate 16 false
  pendF := Vector.replicate 16 false
  pendV := Vector.replicate 16 0#32
  btb := List.replicate P.btbEntries BtbEntry.zero
  btbHead := 0
  clock := 0
  insnCompleted := 0
  halted := false
  fault := none
  committed := none
  turn := .fetch

/-- The machine right after reset, with the spec's parameter values and no program yet. `POLICY` has no default in the
spec: SS is the model's (DESIGN CHOICE, unsafe: log 2). -/
def State.reset : State := State.resetWith (Params.standard .ss) []

end Sys2Proof.Machine
end

