-- ==== Sys2Proof/Machine/Ops.lean ====
section
/-! DEFINITION. The named operations over the state: data memory, registers, hazard tables, latches, the taking of a fault
and the flush controller. -/

namespace Sys2Proof.Machine

/-! ## Data memory (10_state.md R31, 20_memory.md R61 to R64) -/

/-- What a word of data memory that is not listed reads as: memory is zero after reset (R43). -/
def memDefault : Word := 0#32

/-- The word at an index. -/
def readCells (m : List MemCell) (a : Nat) : Word :=
  match m with
  | [] => memDefault
  | (b, v) :: rest => if a = b then v else readCells rest a

/-- The listed words after one word is written, in the same form: rising indices, no word equal to `memDefault` listed. -/
def writeCells (m : List MemCell) (a : Nat) (v : Word) : List MemCell :=
  match m with
  | [] => if v = memDefault then [] else [(a, v)]
  | (b, u) :: rest =>
    if a < b then (if v = memDefault then (b, u) :: rest else (a, v) :: (b, u) :: rest)
    else if a = b then (if v = memDefault then rest else (a, v) :: rest)
    else (b, u) :: writeCells rest a v

/-- The one form in which data memory is kept: every index is above `low`, indices strictly rise, and no listed word is
the one an unlisted index reads as. -/
def cellsFrom (low : Nat) (m : List MemCell) : Bool :=
  match m with
  | [] => true
  | (a, v) :: rest => decide (low ≤ a) && (v != memDefault) && cellsFrom (a + 1) rest

/-- `Memory.wf`: the canonical form of data memory. -/
def Memory.wf (m : List MemCell) : Bool := cellsFrom 0 m

/-- The word of data memory at an index (10_state.md R31). -/
def State.readMem (s : State) (a : Nat) : Word := readCells s.dmem a

/-- Writing exactly the addressed word of data memory (20_memory.md R64). -/
def State.writeMem (s : State) (a : Nat) (v : Word) : State := { s with dmem := writeCells s.dmem a v }

/-- The range check of 20_memory.md R62: `0 <= a < DMEM_WORDS` on the signed address. -/
def State.inMemory (s : State) (a : Word) : Bool := decide (0 ≤ a.toInt) && decide (a.toInt < (s.cfg.dmemWords : Int))

/-- The index of data memory that an address in range names (20_memory.md R61). -/
def memIndex (a : Word) : Nat := a.toInt.toNat

/-! ## Registers and hazard tables (10_state.md R20, R37, R38) -/

/-- `x[r]` -/
def State.reg (s : State) (r : Reg) : Word := s.x[r.val]

/-- `x[r] <- v`, done only by Writeback (44_memory_writeback.md R216). -/
def State.setReg (s : State) (r : Reg) (v : Word) : State := { s with x := s.x.set r.val v }

/-- `busy[r]` -/
def State.isBusy (s : State) (r : Reg) : Bool := s.busy[r.val]

/-- `pend_f[r]` -/
def State.isPending (s : State) (r : Reg) : Bool := s.pendF[r.val]

/-- `pend_v[r]` -/
def State.pendingValue (s : State) (r : Reg) : Word := s.pendV[r.val]

/-- `busy[r] <- 1` (42_decode_hazard.md R163). -/
def State.markBusy (s : State) (r : Reg) : State := { s with busy := s.busy.set r.val true }

/-- `busy[w] <- 1` for every register of a list (42_decode_hazard.md R163). -/
def State.markAll (s : State) (ws : List Reg) : State :=
  match ws with
  | [] => s
  | w :: rest => (s.markBusy w).markAll rest

/-- `busy[r] <- 0 ; pend_f[r] <- 0` (44_memory_writeback.md R217). -/
def State.release (s : State) (r : Reg) : State :=
  { s with busy := s.busy.set r.val false, pendF := s.pendF.set r.val false }

/-- Under `FB`, `pend_f[r] <- 1 ; pend_v[r] <- v`; under `SS` nothing (43_execute_redirect.md R188). -/
def State.publish (s : State) (r : Reg) (v : Word) : State :=
  match s.cfg.policy with
  | .ss => s
  | .fb => { s with pendF := s.pendF.set r.val true, pendV := s.pendV.set r.val v }

/-- The register written and its hazard entry released, for one register of `W(I)` (44_memory_writeback.md R216, R217). -/
def State.commitReg (s : State) (r : Reg) (v : Word) : State := (s.setReg r v).release r

/-! ## Faults (60_exceptions.md R336) -/

/-- `raise F`: the fault is recorded and nothing else changes. The stage that raises does nothing more, the later stages of
the tick do not run (`proceed` below) and the tick is counted (Scheduler.lean). No state is saved, no mode changes, the pc is
not altered and there is no handler (R336), and there is no return from a fault (R339). -/
def State.raise (s : State) (f : Fault) : State := { s with fault := some f }

/-- A halted or faulted engine (40_scheduler.md R112). -/
def State.terminal (s : State) : Bool := s.halted || s.fault.isSome

/-- The next stage of a tick runs unless the tick has ended: a HALT has committed (40_scheduler.md R115) or a fault has
been raised (60_exceptions.md R336). -/
def proceed (r : Result State) (next : State → Result State) : Result State :=
  match r with
  | .next s => if s.terminal then .next s else next s
  | .fault f => .fault f
  | .refused e => .refused e

/-! ## Latches and the flush controller (40_scheduler.md R113, 43_execute_redirect.md R195) -/

/-- A latch just loaded by Fetch: only the address and the record have a value (41_fetch.md R134). -/
def Latch.fresh (pc : Word) (op : Fetched) : Latch := ⟨pc, op, none, none, none, none, none⟩

/-- `ML <- L ; EL.has <- false` (43_execute_redirect.md R189). -/
def State.sendToMemory (s : State) (l : Latch) : State := { s with ml := some l, el := none }

/-- `WL <- L ; ML.has <- false` (44_memory_writeback.md R214). -/
def State.sendToWriteback (s : State) (l : Latch) : State := { s with wl := some l, ml := none }

/-- `redirect(t)` (43_execute_redirect.md R195): the pc, the flush of Decode, a held instruction dropped, Fetch enabled
again, the one-tick bubble asked for. -/
def State.redirect (s : State) (t : Word) : State :=
  { s with pc := t, dl := none, dlStall := false, flHeld := false, fetchEn := true, redirectPending := true }

/-- The end of a Writeback activation: `insn_completed + 1`, `committed <- I.pc`, `WL.has <- false`
(44_memory_writeback.md R218, R220). -/
def State.retire (s : State) (l : Latch) : State :=
  { s with insnCompleted := s.insnCompleted + 1, committed := some l.pc, wl := none }

end Sys2Proof.Machine
end

