-- ==== Sys2Proof/Machine/Flags.lean ====
section
/-! DEFINITION. The flag computations (10_state.md R27, 43_execute_redirect.md R182) and the branch conditions
(48_insn_control.md R300). -/

namespace Sys2Proof.Machine

/-- `sign(v)` (10_state.md R27): zero, positive or negative as a signed number. -/
def signFlags (v : Word) : Flags where
  z := decide (v.toInt = 0)
  p := decide (0 < v.toInt)
  n := decide (v.toInt < 0)

/-- `sign_of_compare(a, b)` (43_execute_redirect.md R182): the two signed numbers compared directly, no subtraction. -/
def compareFlags (a b : Word) : Flags where
  z := decide (a.toInt = b.toInt)
  p := decide (a.toInt > b.toInt)
  n := decide (a.toInt < b.toInt)

/-- `flags <- f`, all three together (10_state.md R27). -/
def State.setFlags (s : State) (f : Flags) : State := { s with flags := f }

/-- BZ is taken when `Z` (R300). -/
def condBZ (f : Flags) : Bool := f.z

/-- BNZ is taken when `not Z` (R300, decision D24). -/
def condBNZ (f : Flags) : Bool := !f.z

/-- BP is taken when `P` (R300). -/
def condBP (f : Flags) : Bool := f.p

/-- BNP is taken when `not P` (R300, decision D24). -/
def condBNP (f : Flags) : Bool := !f.p

/-- BN is taken when `N` (R300). -/
def condBN (f : Flags) : Bool := f.n

/-- BNN is taken when `not N` (R300, decision D24). -/
def condBNN (f : Flags) : Bool := !f.n

end Sys2Proof.Machine
end

