-- ==== Sys2Proof/Machine/Operands.lean ====
section
/-! DEFINITION. Wrap-around arithmetic (46_insn_alu.md R250), the addresses an instruction computes (R184, R185, R191,
R311), which registers it reads and writes (42_decode_hazard.md R151), the operand selection (R160) and the stall conditions
(R161, R162). -/

namespace Sys2Proof

/-- The low `XLEN` bits of a word, sign-extended (00_scope.md R10): the `XLEN`-bit value congruent to it modulo `2^XLEN`. -/
def Params.fit (P : Params) (v : Word) : Word := (v.setWidth P.xlen).signExtend 32

/-- `INSN_STRIDE` as a word. -/
def Params.strideWord (P : Params) : Word := BitVec.ofNat 32 P.insnStride

/-- `POSTINC` as a word. -/
def Params.incrementWord (P : Params) : Word := BitVec.ofNat 32 P.postInc

/-- `INT_MIN`, `-2^(XLEN-1)` (R250). -/
def Params.intMin (P : Params) : Int := -(2 ^ (P.xlen - 1))

end Sys2Proof

namespace Sys2Proof.Machine

/-! ## Arithmetic -/

/-- `wrap(n)` (00_scope.md R10): the `XLEN`-bit value congruent to `n` modulo `2^XLEN`. -/
def wrap (P : Params) (n : Int) : Word := P.fit (BitVec.ofInt 32 n)

/-- `wrap(a + b)` -/
def addWords (P : Params) (a b : Word) : Word := wrap P (a.toInt + b.toInt)

/-- `wrap(a - b)` -/
def subWords (P : Params) (a b : Word) : Word := wrap P (a.toInt - b.toInt)

/-- `wrap(a * b)`, the low `XLEN` bits of the signed product (R253) -/
def mulWords (P : Params) (a b : Word) : Word := wrap P (a.toInt * b.toInt)

/-- `trunc_div(a, b)`, the quotient rounded toward zero (R254, R263) -/
def divWords (P : Params) (a b : Word) : Word := wrap P (a.toInt.tdiv b.toInt)

/-- AND bit by bit (R250(d), R255) -/
def andWords (_ : Params) (a b : Word) : Word := a &&& b

/-- OR bit by bit (R250(d), R256) -/
def orWords (_ : Params) (a b : Word) : Word := a ||| b

/-- XOR bit by bit (R250(d), R257) -/
def xorWords (_ : Params) (a b : Word) : Word := a ^^^ b

/-- The divisions that fault: by zero, and of `INT_MIN` by -1 (R187, R263). -/
def divFaults (P : Params) (a b : Word) : Bool :=
  decide (b.toInt = 0) || (decide (a.toInt = P.intMin) && decide (b.toInt = -1))

/-- `wrap(pc + INSN_STRIDE)`: the next sequential address (41_fetch.md R134) and the return address of JALR
(43_execute_redirect.md R186). -/
def nextAddress (P : Params) (pc : Word) : Word := wrap P (pc.toInt + (P.insnStride : Int))

/-- `wrap(base + POSTINC)` (43_execute_redirect.md R185) -/
def postIncrement (P : Params) (base : Word) : Word := wrap P (base.toInt + (P.postInc : Int))

/-- The effective address `wrap(base + imm)` of a load or store (R184, 47_insn_loadstore.md R280) -/
def effectiveAddress (P : Params) (base imm : Word) : Word := addWords P base imm

/-- A branch target `wrap(pc + imm)`, `pc` the branch's own address (48_insn_control.md R311) -/
def branchTarget (P : Params) (pc imm : Word) : Word := addWords P pc imm

/-- A jump target `wrap(v1 + imm)` (R191) -/
def jumpTarget (P : Params) (v1 imm : Word) : Word := addWords P v1 imm

/-! ## Source and write sets (42_decode_hazard.md R151) -/

/-- The register captured into `v1`, if any. -/
def operand1 : Instr → Option Reg
  | .add _ rs1 _ | .sub _ rs1 _ | .mul _ rs1 _ | .div _ rs1 _ | .and _ rs1 _ | .or _ rs1 _ | .xor _ rs1 _ => some rs1
  | .addl _ rs1 _ | .subl _ rs1 _ | .load _ rs1 _ | .loadp _ rs1 _ | .jalr _ rs1 _ => some rs1
  | .store rs1 _ _ | .storep rs1 _ _ | .cmp rs1 _ | .cml rs1 _ | .jump rs1 _ => some rs1
  | .movc .. | .bz .. | .bnz .. | .bp .. | .bnp .. | .bn .. | .bnn .. | .nop | .halt => none

/-- The register captured into `v2`, if any. -/
def operand2 : Instr → Option Reg
  | .add _ _ rs2 | .sub _ _ rs2 | .mul _ _ rs2 | .div _ _ rs2 | .and _ _ rs2 | .or _ _ rs2 | .xor _ _ rs2 => some rs2
  | .store _ rs2 _ | .storep _ rs2 _ | .cmp _ rs2 => some rs2
  | .addl .. | .subl .. | .movc .. | .load .. | .loadp .. | .jalr .. | .cml .. | .jump .. => none
  | .bz .. | .bnz .. | .bp .. | .bnp .. | .bn .. | .bnn .. | .nop | .halt => none

/-- `S(I)`, the registers read at Decode. -/
def sources (i : Instr) : List Reg := (operand1 i).toList ++ (operand2 i).toList

/-- `WE(I)`, the registers written whose value exists at the end of Execute. -/
def writesAtExecute : Instr → List Reg
  | .add rd _ _ | .sub rd _ _ | .mul rd _ _ | .div rd _ _ | .and rd _ _ | .or rd _ _ | .xor rd _ _ => [rd]
  | .addl rd _ _ | .subl rd _ _ | .movc rd _ | .jalr rd _ _ => [rd]
  | .loadp _ rs1 _ => [rs1]
  | .storep _ rs2 _ => [rs2]
  | .load .. | .store .. | .cmp .. | .cml .. | .jump .. => []
  | .bz .. | .bnz .. | .bp .. | .bnp .. | .bn .. | .bnn .. | .nop | .halt => []

/-- `WM(I)`, the registers written whose value exists only after the Memory stage. -/
def writesAtMemory : Instr → List Reg
  | .load rd _ _ | .loadp rd _ _ => [rd]
  | .add .. | .sub .. | .mul .. | .div .. | .and .. | .or .. | .xor .. | .addl .. | .subl .. | .movc .. | .jalr .. => []
  | .store .. | .storep .. | .cmp .. | .cml .. | .jump .. => []
  | .bz .. | .bnz .. | .bp .. | .bnp .. | .bn .. | .bnn .. | .nop | .halt => []

/-- `W(I)`, the registers written at Writeback. -/
def writes (i : Instr) : List Reg := writesAtMemory i ++ writesAtExecute i

/-! ## Operand selection and the stall condition -/

/-- `opnd(r)` (42_decode_hazard.md R160): the committed register under `SS`; under `FB` the pending value where there is
one. -/
def State.opnd (s : State) (r : Reg) : Word :=
  match s.cfg.policy with
  | .ss => s.reg r
  | .fb => if s.isPending r then s.pendingValue r else s.reg r

/-- `stall_SS(I)` (R161): a source or destination is busy. -/
def State.stallSS (s : State) (i : Instr) : Bool :=
  (sources i).any s.isBusy || (writes i).any s.isBusy

/-- `stall_FB(I)` (R162): a destination is busy, or a source is busy with no pending value. -/
def State.stallFB (s : State) (i : Instr) : Bool :=
  (writes i).any s.isBusy || (sources i).any fun r => s.isBusy r && !s.isPending r

/-- The stall condition of the policy in force. -/
def State.stalls (s : State) (i : Instr) : Bool :=
  match s.cfg.policy with
  | .ss => s.stallSS i
  | .fb => s.stallFB i

end Sys2Proof.Machine
end

