-- ==== Sys2Proof/Machine/Predictor.lean ====
section
/-! DEFINITION. The branch-target predictor (45_branch_predictor.md): lookup, FIFO allocation, prediction and training. -/

namespace Sys2Proof.Machine

/-- A valid entry with the tag `p` (R231). -/
def BtbEntry.hits (e : BtbEntry) (p : Word) : Bool := e.valid && e.tag == p

/-- `btb_find(p)` (R231): the lowest index of a valid entry with the tag `p`, or none. -/
def State.btbFind (s : State) (p : Word) : Option Nat := s.btb.findIdx? (·.hits p)

/-- The entry at an index; an index outside the table names an empty entry. -/
def State.btbEntry (s : State) (k : Nat) : BtbEntry := s.btb.getD k BtbEntry.zero

/-- An entry just allocated for the branch at `p` (R232). -/
def BtbEntry.allocated (P : Params) (p : Word) : BtbEntry := ⟨true, p, 0#32, BitVec.ofNat 2 P.ctrNeutral, false⟩

/-- `btb_alloc(p)` (R232): the entry at the head is overwritten and the head moves on. -/
def State.btbAlloc (s : State) (p : Word) : State :=
  { s with
    btb := s.btb.set s.btbHead (BtbEntry.allocated s.cfg p)
    btbHead := (s.btbHead + 1) % s.cfg.btbEntries }

/-- `btb[k].resolved and btb[k].ctr >= TAKEN_MIN(op)` (R234). -/
def BtbEntry.predictsTaken (e : BtbEntry) (takenMin : Nat) : Bool := e.resolved && decide (takenMin ≤ e.ctr.toNat)

/-- `predict_taken(p, op)` (R234), answering the target that Fetch follows, or none. -/
def State.prediction (s : State) (p : Word) (op : Trained) : Option Word :=
  match s.btbFind p with
  | none => none
  | some k =>
    if (s.btbEntry k).predictsTaken (s.cfg.takenMin op) then some (s.btbEntry k).target else none

/-- `ctr <- min(CTR_MAX, ctr + 1)` (R236). -/
def stepUp (P : Params) (c : BitVec 2) : BitVec 2 := BitVec.ofNat 2 (min P.ctrMax (c.toNat + 1))

/-- `ctr <- max(0, ctr - 1)` (R237). -/
def stepDown (c : BitVec 2) : BitVec 2 := BitVec.ofNat 2 (c.toNat - 1)

/-- An entry trained by a taken outcome with the target `tgt` (R236). -/
def BtbEntry.trainedTaken (P : Params) (e : BtbEntry) (tgt : Word) : BtbEntry :=
  if e.resolved && e.target == tgt then { e with ctr := stepUp P e.ctr }
  else { e with ctr := BitVec.ofNat 2 P.ctrNeutral, target := tgt, resolved := true }

/-- An entry trained by a not-taken outcome that was predicted taken (R237). -/
def BtbEntry.trainedNotTaken (e : BtbEntry) : BtbEntry := { e with ctr := stepDown e.ctr }

/-- One entry of the table replaced. -/
def State.setBtb (s : State) (k : Nat) (e : BtbEntry) : State := { s with btb := s.btb.set k e }

/-- `btb_train_taken(k, tgt)` (R236). -/
def State.trainTaken (s : State) (k : Nat) (tgt : Word) : State := s.setBtb k ((s.btbEntry k).trainedTaken s.cfg tgt)

/-- `btb_train_not_taken(k)` (R237). -/
def State.trainNotTaken (s : State) (k : Nat) : State := s.setBtb k (s.btbEntry k).trainedNotTaken

end Sys2Proof.Machine
end

