-- ==== Sys2Proof/Machine/Stages.lean ====
section
/-! DEFINITION. The stage actions that the instructions share, and `onTurn`, which performs the one whose stage procedure
is running. Each instruction's meaning (Alu.lean, LoadStore.lean, Control.lean) names its five. -/

namespace Sys2Proof.Machine

/-- An instruction's meaning: its action in the stage whose procedure runs (40_scheduler.md R111, R113). -/
def State.onTurn (s : State) (fetch decode execute memory writeback : State → State) : State :=
  match s.turn with
  | .fetch => fetch s
  | .decode => decode s
  | .execute => execute s
  | .memory => memory s
  | .writeback => writeback s

/-! ## Fetch (41_fetch.md) -/

/-- `DL <- FL ; DL.has <- true ; DL.stall <- false ; FL.held <- false`, and for a HALT `fetch_en <- false`
(R132, R135, R137). -/
def State.forward (s : State) (halts : Bool) : State :=
  match s.fl with
  | none => s.raise .invariantFault
  | some l =>
    { s with dl := some l, dlStall := false, flHeld := false, fetchEn := s.fetchEn && !halts }

/-- A record or the marker INVALID at Fetch. Held: retried, nothing new loaded (R132). Otherwise loaded at the pc, the pc
moved to `next`, and forwarded to Decode, or held if Decode is stalled (R134, R135). -/
def fetchWith (op : Fetched) (halts : Bool) (next : State → Word) (s : State) : State :=
  if s.flHeld then
    match s.dl with
    | none => s.forward halts
    | some _ => s
  else
    let loaded := { s with fl := some (Latch.fresh s.pc op), pc := next s }
    match s.dl with
    | none => loaded.forward halts
    | some _ => { loaded with flHeld := true }

/-- `pc <- wrap(a + INSN_STRIDE)` (R134, R138). -/
def sequentialPc (s : State) : Word := nextAddress s.cfg s.pc

/-- The pc after a predicted mnemonic is loaded: under `SS` the stored target when the predictor says taken (R136); under
`FB` always sequential (R138). -/
def predictedPc (op : Trained) (s : State) : Word :=
  match s.cfg.policy with
  | .fb => sequentialPc s
  | .ss =>
    match s.prediction s.pc op with
    | some target => target
    | none => sequentialPc s

/-- Fetch of every instruction but the predicted branches and HALT. -/
def fetchSequential (i : Instr) : State → State := fetchWith (.instr i) false sequentialPc

/-- Fetch of BZ, BNZ, BP, BNP. -/
def fetchPredicted (i : Instr) (op : Trained) : State → State := fetchWith (.instr i) false (predictedPc op)

/-- Fetch of HALT: Fetch admits nothing more once it is forwarded (R137). -/
def fetchHalting (i : Instr) : State → State := fetchWith (.instr i) true sequentialPc

/-! ## Decode (42_decode_hazard.md) -/

/-- Decode of the instruction `i`: refused while a hazard lasts (R165); otherwise operands captured (R164), `W(I)` marked
(R163), the instruction moved to `EL` (R166). -/
def decodeStage (i : Instr) (s : State) : State :=
  match s.dl with
  | none => s
  | some l =>
    if s.stalls i then { s with dlStall := true }
    else
      { (s.markAll (writes i)) with
        el := some { l with v1 := (operand1 i).map s.opnd, v2 := (operand2 i).map s.opnd }
        dl := none
        dlStall := false }

/-- Predictor allocation at Decode (R153): under `SS`, for a branch that has no entry yet. -/
def allocateIfMissing (s : State) : State :=
  match s.cfg.policy, s.dl with
  | .ss, some l =>
    match s.btbFind l.pc with
    | none => s.btbAlloc l.pc
    | some _ => s
  | _, _ => s

/-- Decode of BZ, BNZ, BP, BNP: allocation before the hazard check (R153). -/
def decodeTrained (i : Instr) (s : State) : State := decodeStage i (allocateIfMissing s)

/-! ## Execute (43_execute_redirect.md) -/

/-- The Execute stage on the instruction in `EL`, if there is one (R180). -/
def State.inExecute (s : State) (k : Latch → State) : State :=
  match s.el with
  | none => s
  | some l => k l

/-- A latch field's value; a field that no rule has written has none, and reading it breaks an invariant (10_state.md R34,
60_exceptions.md R334). -/
def State.reading (s : State) (field : Option Word) (k : Word → State) : State :=
  match field with
  | none => s.raise .invariantFault
  | some v => k v

/-- `EL.res <- r ; flags <- sign(r)`, published, moved on (R181, R188, R189). -/
def State.finishResult (s : State) (l : Latch) (rd : Reg) (r : Word) : State :=
  ((s.setFlags (signFlags r)).publish rd r).sendToMemory { l with res := some r }

/-- A flag-setting computation on `v1` and `v2` (R181). -/
def computeRR (rd : Reg) (f : Params → Word → Word → Word) (s : State) : State :=
  s.inExecute fun l => s.reading l.v1 fun a => s.reading l.v2 fun b => s.finishResult l rd (f s.cfg a b)

/-- A flag-setting computation on `v1` and the immediate (R181). -/
def computeRI (rd : Reg) (imm : Word) (f : Params → Word → Word → Word) (s : State) : State :=
  s.inExecute fun l => s.reading l.v1 fun a => s.finishResult l rd (f s.cfg a imm)

/-- DIV: the fault check comes before everything else (R187). -/
def computeDiv (rd : Reg) (s : State) : State :=
  s.inExecute fun l => s.reading l.v1 fun a => s.reading l.v2 fun b =>
    if divFaults s.cfg a b then s.raise (.arithmeticFault l.pc) else s.finishResult l rd (divWords s.cfg a b)

/-- CMP: flags only, no result (R182). -/
def compareRR (s : State) : State :=
  s.inExecute fun l => s.reading l.v1 fun a => s.reading l.v2 fun b =>
    (s.setFlags (compareFlags a b)).sendToMemory l

/-- CML: flags only, no result (R182). -/
def compareRI (imm : Word) (s : State) : State :=
  s.inExecute fun l => s.reading l.v1 fun a => (s.setFlags (compareFlags a imm)).sendToMemory l

/-- MOVC: the constant, no flags (R183). -/
def moveConstant (rd : Reg) (imm : Word) (s : State) : State :=
  s.inExecute fun l => (s.publish rd imm).sendToMemory { l with res := some imm }

/-- LOAD: the effective address from `rs1` (R184); nothing is published (R188). -/
def addressOfLoad (imm : Word) (s : State) : State :=
  s.inExecute fun l => s.reading l.v1 fun base =>
    s.sendToMemory { l with addr := some (effectiveAddress s.cfg base imm) }

/-- LOADP: the effective address and the incremented base, which is published (R184, R185, R188). -/
def addressOfLoadP (rs1 : Reg) (imm : Word) (s : State) : State :=
  s.inExecute fun l => s.reading l.v1 fun base =>
    (s.publish rs1 (postIncrement s.cfg base)).sendToMemory
      { l with addr := some (effectiveAddress s.cfg base imm), res2 := some (postIncrement s.cfg base) }

/-- STORE: the effective address from `rs2` (R184). -/
def addressOfStore (imm : Word) (s : State) : State :=
  s.inExecute fun l => s.reading l.v2 fun base =>
    s.sendToMemory { l with addr := some (effectiveAddress s.cfg base imm) }

/-- STOREP: the effective address and the incremented base, which is published (R184, R185, R188). -/
def addressOfStoreP (rs2 : Reg) (imm : Word) (s : State) : State :=
  s.inExecute fun l => s.reading l.v2 fun base =>
    (s.publish rs2 (postIncrement s.cfg base)).sendToMemory
      { l with addr := some (effectiveAddress s.cfg base imm), res2 := some (postIncrement s.cfg base) }

/-- JUMP: always redirects to `wrap(v1 + imm)` (R191). -/
def jumpTo (imm : Word) (s : State) : State :=
  s.inExecute fun l => s.reading l.v1 fun a => (s.redirect (jumpTarget s.cfg a imm)).sendToMemory l

/-- JALR: the return address, published, then the redirect (R186, R191, R199). -/
def jumpAndLink (rd : Reg) (imm : Word) (s : State) : State :=
  s.inExecute fun l => s.reading l.v1 fun a =>
    ((s.publish rd (nextAddress s.cfg l.pc)).redirect (jumpTarget s.cfg a imm)).sendToMemory
      { l with res := some (nextAddress s.cfg l.pc) }

/-- Static resolution (R194): a taken branch redirects, one not taken does nothing. -/
def staticOutcome (taken : Bool) (l : Latch) (imm : Word) (s : State) : State :=
  if taken then s.redirect (branchTarget s.cfg l.pc imm) else s

/-- The entry index that a taken branch trains, and the state with that entry present (R193: allocation where there is no
entry, which cannot occur in a reachable state). -/
def State.entryFor (s : State) (p : Word) : Nat × State :=
  match s.btbFind p with
  | some k => (k, s)
  | none => (s.btbHead, s.btbAlloc p)

/-- Predictor-trained resolution (R193). Taken: train, redirect to the target. Not taken but predicted taken: train down,
redirect to the fall-through. Otherwise nothing. -/
def trainedOutcome (op : Trained) (taken : Bool) (l : Latch) (imm : Word) (s : State) : State :=
  if taken then
    ((s.entryFor l.pc).2.trainTaken (s.entryFor l.pc).1 (branchTarget s.cfg l.pc imm)).redirect (branchTarget s.cfg l.pc imm)
  else
    match s.btbFind l.pc with
    | none => s
    | some k =>
      if (s.btbEntry k).predictsTaken (s.cfg.takenMin op) then (s.trainNotTaken k).redirect (nextAddress s.cfg l.pc) else s

/-- BN and BNN under both policies (R190, R194). -/
def branchStatic (cond : Flags → Bool) (imm : Word) (s : State) : State :=
  s.inExecute fun l => (staticOutcome (cond s.flags) l imm s).sendToMemory l

/-- BZ, BNZ, BP, BNP: trained under `SS`, static under `FB` (R190). -/
def branchTrained (op : Trained) (cond : Flags → Bool) (imm : Word) (s : State) : State :=
  s.inExecute fun l =>
    match s.cfg.policy with
    | .ss => (trainedOutcome op (cond s.flags) l imm s).sendToMemory l
    | .fb => (staticOutcome (cond s.flags) l imm s).sendToMemory l

/-- NOP and HALT: only moved on (R189). -/
def passExecute (s : State) : State := s.inExecute fun l => s.sendToMemory l

/-! ## Memory (44_memory_writeback.md) -/

/-- The Memory stage on the instruction in `ML`, if there is one (R210). -/
def State.inMemoryStage (s : State) (k : Latch → State) : State :=
  match s.ml with
  | none => s
  | some l => k l

/-- LOAD and LOADP (R211, R213): `ML.res <- dmem[ML.addr]`, or MemoryFault. -/
def loadWord (s : State) : State :=
  s.inMemoryStage fun l => s.reading l.addr fun a =>
    if s.inMemory a then s.sendToWriteback { l with res := some (s.readMem (memIndex a)) }
    else s.raise (.memoryFault l.pc a)

/-- STORE and STOREP (R212, R213): `dmem[ML.addr] <- ML.v1`, or MemoryFault. -/
def storeWord (s : State) : State :=
  s.inMemoryStage fun l => s.reading l.addr fun a =>
    if s.inMemory a then s.reading l.v1 fun v => (s.writeMem (memIndex a) v).sendToWriteback l
    else s.raise (.memoryFault l.pc a)

/-- Every other mnemonic: only moved on (R210, R214). -/
def passMemory (s : State) : State := s.inMemoryStage fun l => s.sendToWriteback l

/-! ## Writeback (44_memory_writeback.md) -/

/-- The Writeback stage on the instruction in `WL`, if there is one (R215). -/
def State.inWriteback (s : State) (k : Latch → State) : State :=
  match s.wl with
  | none => s
  | some l => k l

/-- `x[rd] <- res`, the entry of `rd` released, the instruction counted (R216, R217, R218). -/
def commitResult (rd : Reg) (s : State) : State :=
  s.inWriteback fun l => s.reading l.res fun v => (s.commitReg rd v).retire l

/-- LOADP: `x[rd] <- res`, then `x[rs1] <- res2` (R216, R223). -/
def commitLoadP (rd rs1 : Reg) (s : State) : State :=
  s.inWriteback fun l => s.reading l.res fun v => s.reading l.res2 fun w =>
    ((s.commitReg rd v).commitReg rs1 w).retire l

/-- STOREP: `x[rs2] <- res2` (R216). -/
def commitBase (rs2 : Reg) (s : State) : State :=
  s.inWriteback fun l => s.reading l.res2 fun w => (s.commitReg rs2 w).retire l

/-- Every mnemonic that writes no register: only counted (R216, R218). -/
def commitNothing (s : State) : State := s.inWriteback fun l => s.retire l

/-- HALT: counted, and the run ends (R219). -/
def commitHalt (s : State) : State := s.inWriteback fun l => { s.retire l with halted := true }

end Sys2Proof.Machine
end

