-- ==== Sys2Proof/Machine/Alu.lean ====
section
/-! DEFINITION. The meanings of the arithmetic, logical, move and compare instructions (46_insn_alu.md): each names its action in each of
the five stages. -/

namespace Sys2Proof.Machine

/-- ADD: `x[rd] <- wrap(x[rs1] + x[rs2])`, flags from the result (R251). -/
def execAdd (rd rs1 rs2 : Reg) (s : State) : Result State :=
  .next (s.onTurn
    (fetch := fetchSequential (.add rd rs1 rs2))
    (decode := decodeStage (.add rd rs1 rs2))
    (execute := computeRR rd addWords)
    (memory := passMemory)
    (writeback := commitResult rd))

/-- SUB: `x[rd] <- wrap(x[rs1] - x[rs2])`, flags from the result (R252). -/
def execSub (rd rs1 rs2 : Reg) (s : State) : Result State :=
  .next (s.onTurn
    (fetch := fetchSequential (.sub rd rs1 rs2))
    (decode := decodeStage (.sub rd rs1 rs2))
    (execute := computeRR rd subWords)
    (memory := passMemory)
    (writeback := commitResult rd))

/-- MUL: `x[rd] <- wrap(x[rs1] * x[rs2])`, flags from the wrapped result (R253). -/
def execMul (rd rs1 rs2 : Reg) (s : State) : Result State :=
  .next (s.onTurn
    (fetch := fetchSequential (.mul rd rs1 rs2))
    (decode := decodeStage (.mul rd rs1 rs2))
    (execute := computeRR rd mulWords)
    (memory := passMemory)
    (writeback := commitResult rd))

/-- DIV: `x[rd] <- trunc_div(x[rs1], x[rs2])`, flags from the quotient; ArithmeticFault at Execute (R254, R263). -/
def execDiv (rd rs1 rs2 : Reg) (s : State) : Result State :=
  .next (s.onTurn
    (fetch := fetchSequential (.div rd rs1 rs2))
    (decode := decodeStage (.div rd rs1 rs2))
    (execute := computeDiv rd)
    (memory := passMemory)
    (writeback := commitResult rd))

/-- AND: bit by bit on the two's-complement patterns, flags from the result as a signed number (R255). -/
def execAnd (rd rs1 rs2 : Reg) (s : State) : Result State :=
  .next (s.onTurn
    (fetch := fetchSequential (.and rd rs1 rs2))
    (decode := decodeStage (.and rd rs1 rs2))
    (execute := computeRR rd andWords)
    (memory := passMemory)
    (writeback := commitResult rd))

/-- OR: bit by bit on the two's-complement patterns, flags from the result as a signed number (R256). -/
def execOr (rd rs1 rs2 : Reg) (s : State) : Result State :=
  .next (s.onTurn
    (fetch := fetchSequential (.or rd rs1 rs2))
    (decode := decodeStage (.or rd rs1 rs2))
    (execute := computeRR rd orWords)
    (memory := passMemory)
    (writeback := commitResult rd))

/-- XOR: bit by bit on the two's-complement patterns, flags from the result as a signed number (R257). -/
def execXor (rd rs1 rs2 : Reg) (s : State) : Result State :=
  .next (s.onTurn
    (fetch := fetchSequential (.xor rd rs1 rs2))
    (decode := decodeStage (.xor rd rs1 rs2))
    (execute := computeRR rd xorWords)
    (memory := passMemory)
    (writeback := commitResult rd))

/-- ADDL: `x[rd] <- wrap(x[rs1] + imm)`, flags from the result (R258). -/
def execAddl (rd rs1 : Reg) (imm : Word) (s : State) : Result State :=
  .next (s.onTurn
    (fetch := fetchSequential (.addl rd rs1 imm))
    (decode := decodeStage (.addl rd rs1 imm))
    (execute := computeRI rd imm addWords)
    (memory := passMemory)
    (writeback := commitResult rd))

/-- SUBL: `x[rd] <- wrap(x[rs1] - imm)`, flags from the result (R259). -/
def execSubl (rd rs1 : Reg) (imm : Word) (s : State) : Result State :=
  .next (s.onTurn
    (fetch := fetchSequential (.subl rd rs1 imm))
    (decode := decodeStage (.subl rd rs1 imm))
    (execute := computeRI rd imm subWords)
    (memory := passMemory)
    (writeback := commitResult rd))

/-- MOVC: `x[rd] <- imm`, no flag written (R260). -/
def execMovc (rd : Reg) (imm : Word) (s : State) : Result State :=
  .next (s.onTurn
    (fetch := fetchSequential (.movc rd imm))
    (decode := decodeStage (.movc rd imm))
    (execute := moveConstant rd imm)
    (memory := passMemory)
    (writeback := commitResult rd))

/-- CMP: the flags from the signed comparison of `x[rs1]` with `x[rs2]`, no register written (R261). -/
def execCmp (rs1 rs2 : Reg) (s : State) : Result State :=
  .next (s.onTurn
    (fetch := fetchSequential (.cmp rs1 rs2))
    (decode := decodeStage (.cmp rs1 rs2))
    (execute := compareRR)
    (memory := passMemory)
    (writeback := commitNothing))

/-- CML: the flags from the signed comparison of `x[rs1]` with `imm`, no register written (R262). -/
def execCml (rs1 : Reg) (imm : Word) (s : State) : Result State :=
  .next (s.onTurn
    (fetch := fetchSequential (.cml rs1 imm))
    (decode := decodeStage (.cml rs1 imm))
    (execute := compareRI imm)
    (memory := passMemory)
    (writeback := commitNothing))

end Sys2Proof.Machine
end

