-- ==== Sys2Proof/Machine/Control.lean ====
section
/-! DEFINITION. The meanings of the branches, the jumps, NOP and HALT (48_insn_control.md): each names its action in each of the five
stages. -/

namespace Sys2Proof.Machine

/-- BZ: to `wrap(pc + imm)` when `Z`; predicted and trained under `SS` (R301). -/
def execBz (imm : Word) (s : State) : Result State :=
  .next (s.onTurn
    (fetch := fetchPredicted (.bz imm) .bz)
    (decode := decodeTrained (.bz imm))
    (execute := branchTrained .bz condBZ imm)
    (memory := passMemory)
    (writeback := commitNothing))

/-- BNZ: to `wrap(pc + imm)` when `not Z`; predicted and trained under `SS` (R302). -/
def execBnz (imm : Word) (s : State) : Result State :=
  .next (s.onTurn
    (fetch := fetchPredicted (.bnz imm) .bnz)
    (decode := decodeTrained (.bnz imm))
    (execute := branchTrained .bnz condBNZ imm)
    (memory := passMemory)
    (writeback := commitNothing))

/-- BP: to `wrap(pc + imm)` when `P`; predicted and trained under `SS` (R303). -/
def execBp (imm : Word) (s : State) : Result State :=
  .next (s.onTurn
    (fetch := fetchPredicted (.bp imm) .bp)
    (decode := decodeTrained (.bp imm))
    (execute := branchTrained .bp condBP imm)
    (memory := passMemory)
    (writeback := commitNothing))

/-- BNP: to `wrap(pc + imm)` when `not P`; predicted and trained under `SS` (R304). -/
def execBnp (imm : Word) (s : State) : Result State :=
  .next (s.onTurn
    (fetch := fetchPredicted (.bnp imm) .bnp)
    (decode := decodeTrained (.bnp imm))
    (execute := branchTrained .bnp condBNP imm)
    (memory := passMemory)
    (writeback := commitNothing))

/-- BN: to `wrap(pc + imm)` when `N`; never predicted, under either policy (R305). -/
def execBn (imm : Word) (s : State) : Result State :=
  .next (s.onTurn
    (fetch := fetchSequential (.bn imm))
    (decode := decodeStage (.bn imm))
    (execute := branchStatic condBN imm)
    (memory := passMemory)
    (writeback := commitNothing))

/-- BNN: to `wrap(pc + imm)` when `not N`; never predicted, under either policy (R306). -/
def execBnn (imm : Word) (s : State) : Result State :=
  .next (s.onTurn
    (fetch := fetchSequential (.bnn imm))
    (decode := decodeStage (.bnn imm))
    (execute := branchStatic condBNN imm)
    (memory := passMemory)
    (writeback := commitNothing))

/-- JUMP: to `wrap(x[rs1] + imm)`, always (R307). -/
def execJump (rs1 : Reg) (imm : Word) (s : State) : Result State :=
  .next (s.onTurn
    (fetch := fetchSequential (.jump rs1 imm))
    (decode := decodeStage (.jump rs1 imm))
    (execute := jumpTo imm)
    (memory := passMemory)
    (writeback := commitNothing))

/-- JALR: `x[rd] <- wrap(pc + INSN_STRIDE)`, to `wrap(x[rs1] + imm)` with the old `x[rs1]` (R308). -/
def execJalr (rd rs1 : Reg) (imm : Word) (s : State) : Result State :=
  .next (s.onTurn
    (fetch := fetchSequential (.jalr rd rs1 imm))
    (decode := decodeStage (.jalr rd rs1 imm))
    (execute := jumpAndLink rd imm)
    (memory := passMemory)
    (writeback := commitResult rd))

/-- NOP: through all five stages doing nothing, and counted (R309). -/
def execNop (s : State) : Result State :=
  .next (s.onTurn
    (fetch := fetchSequential .nop)
    (decode := decodeStage .nop)
    (execute := passExecute)
    (memory := passMemory)
    (writeback := commitNothing))

/-- HALT: Fetch stops when it is forwarded, and the run ends when it commits (R310). -/
def execHalt (s : State) : Result State :=
  .next (s.onTurn
    (fetch := fetchHalting .halt)
    (decode := decodeStage .halt)
    (execute := passExecute)
    (memory := passMemory)
    (writeback := commitHalt))

end Sys2Proof.Machine
end

