-- ==== Sys2Proof/Machine/LoadStore.lean ====
section
/-! DEFINITION. The meanings of the loads and stores (47_insn_loadstore.md): each names its action in each of the five stages. -/

namespace Sys2Proof.Machine

/-- LOAD: `x[rd] <- dmem[wrap(x[rs1] + imm)]`; MemoryFault at Memory (R281). -/
def execLoad (rd rs1 : Reg) (imm : Word) (s : State) : Result State :=
  .next (s.onTurn
    (fetch := fetchSequential (.load rd rs1 imm))
    (decode := decodeStage (.load rd rs1 imm))
    (execute := addressOfLoad imm)
    (memory := loadWord)
    (writeback := commitResult rd))

/-- LOADP: LOAD, and `x[rs1] <- wrap(x[rs1] + 4)`, both from the old base (R282). -/
def execLoadp (rd rs1 : Reg) (imm : Word) (s : State) : Result State :=
  .next (s.onTurn
    (fetch := fetchSequential (.loadp rd rs1 imm))
    (decode := decodeStage (.loadp rd rs1 imm))
    (execute := addressOfLoadP rs1 imm)
    (memory := loadWord)
    (writeback := commitLoadP rd rs1))

/-- STORE: `dmem[wrap(x[rs2] + imm)] <- x[rs1]`; MemoryFault at Memory (R283). -/
def execStore (rs1 rs2 : Reg) (imm : Word) (s : State) : Result State :=
  .next (s.onTurn
    (fetch := fetchSequential (.store rs1 rs2 imm))
    (decode := decodeStage (.store rs1 rs2 imm))
    (execute := addressOfStore imm)
    (memory := storeWord)
    (writeback := commitNothing))

/-- STOREP: STORE, and `x[rs2] <- wrap(x[rs2] + 4)`, both from the old values (R284). -/
def execStorep (rs1 rs2 : Reg) (imm : Word) (s : State) : Result State :=
  .next (s.onTurn
    (fetch := fetchSequential (.storep rs1 rs2 imm))
    (decode := decodeStage (.storep rs1 rs2 imm))
    (execute := addressOfStoreP rs2 imm)
    (memory := storeWord)
    (writeback := commitBase rs2))

end Sys2Proof.Machine
end

