-- ==== Sys2Proof/Machine/Scheduler.lean ====
section
/-! DEFINITION. The cycle scheduler (40_scheduler.md): instruction fetch, the five stage procedures, one tick. -/

namespace Sys2Proof.Machine

/-- `IFetch(a)` (20_memory.md R66): the record at a pc value, or INVALID below `CODE_BASE`, off the stride, or past the end
of the program. -/
def State.ifetch (s : State) (a : Word) : Fetched :=
  let off := a.toInt - s.cfg.codeBase.toInt
  if off < 0 then .invalid
  else if off % (s.cfg.insnStride : Int) ≠ 0 then .invalid
  else
    match s.imem[(off / (s.cfg.insnStride : Int)).toNat]? with
    | some i => .instr i
    | none => .invalid

/-- The state in which a stage's procedure runs. -/
def State.at (s : State) (stage : Stage) : State := { s with turn := stage }

/-- The instruction in a latch past Decode performs its action; INVALID there breaks an invariant (30_encoding.md R89,
60_exceptions.md R334). -/
def runLatch (l : Latch) (s : State) : Result State :=
  match l.op with
  | .instr i => exec i s
  | .invalid => .next (s.raise .invariantFault)

/-- `Writeback()` (44_memory_writeback.md R215, R223). -/
def runWriteback (s : State) : Result State :=
  match s.wl with
  | none => .next s
  | some l => runLatch l (s.at .writeback)

/-- `Memory()` (44_memory_writeback.md R210, R222). -/
def runMemory (s : State) : Result State :=
  match s.ml with
  | none => .next s
  | some l => runLatch l (s.at .memory)

/-- `Execute()` (43_execute_redirect.md R180, R198). -/
def runExecute (s : State) : Result State :=
  match s.el with
  | none => .next s
  | some l => runLatch l (s.at .execute)

/-- `Decode()` (42_decode_hazard.md R150, R152, R167): INVALID raises FetchFault. -/
def runDecode (s : State) : Result State :=
  match s.dl with
  | none => .next s
  | some l =>
    match l.op with
    | .instr i => exec i (s.at .decode)
    | .invalid => .next (s.raise (.fetchFault l.pc))

/-- Fetch of a record, or of the marker INVALID (41_fetch.md R134). -/
def fetchOp (op : Fetched) (s : State) : Result State :=
  match op with
  | .instr i => exec i (s.at .fetch)
  | .invalid => .next (fetchWith .invalid false sequentialPc (s.at .fetch))

/-- `Fetch()` (41_fetch.md R130, R139): a pending redirect is consumed; else a held instruction is retried; else nothing
if fetching is disabled; else a load from the pc. -/
def runFetch (s : State) : Result State :=
  if s.redirectPending then .next { s with redirectPending := false }
  else if s.flHeld then
    match s.fl with
    | some l => fetchOp l.op s
    | none => .next (s.raise .invariantFault)
  else if s.fetchEn then fetchOp (s.ifetch s.pc) s
  else .next s

/-- The end of a tick: `clock <- clock + 1` (40_scheduler.md R112), also when the tick halted or faulted. -/
def State.endTick (s : State) : State := { s with clock := s.clock + 1, turn := .fetch }

/-- The five stage procedures in reverse pipeline order (40_scheduler.md R111). -/
def runStages (s : State) : Result State :=
  proceed (proceed (proceed (proceed (runWriteback s) runMemory) runExecute) runDecode) runFetch

/-- `advance_cycle()` (40_scheduler.md R110 to R112): one tick; a halted or faulted engine is left as it is, and reports no
commit. -/
def advanceCycle (s : State) : Result State :=
  if s.terminal then .next { s with committed := none }
  else
    match runStages { s with committed := none } with
    | .next t => .next t.endTick
    | .fault f => .fault f
    | .refused e => .refused e

end Sys2Proof.Machine
end

