-- ==== Sys2Proof/Machine/HostInterface.lean ====
section
/-! DEFINITION. The host's operations (40_scheduler.md R117 to R120): building an engine, preloading it, running it. The
snapshots of R119 are reads of `State`. -/

namespace Sys2Proof.Machine

/-- `initialize(PROGRAM)` on records (R117, 70_reset_and_hazards.md R360): the parameters and the program are checked, and
either an engine in the reset state exists or a load error is answered (60_exceptions.md R335). Which reason it carries when
several checks fail is the model's choice (R330: free-form; DESIGN CHOICE: log 22): the parameters first, then the empty
program, then an operand out of range, then the refused form. -/
def initEngine (P : Params) (program : List Instr) : Result State :=
  if !P.wellFormed then .refused (.loadError .badParameters)
  else if program.isEmpty then .refused (.loadError .emptyProgram)
  else if !program.all (Instr.inRange P) then .refused (.loadError .operandOutOfRange)
  else if !program.all Instr.wellFormed then .refused (.loadError .refusedForm)
  else .next (State.resetWith P program)

/-- `initialize(PROGRAM)` on packed words (30_encoding.md R83, R88). An ill-formed word is reported before anything else, the
first one of the program (DESIGN CHOICE: log 22). -/
def initEngineWords (P : Params) (ws : List PackedWord) : Result State :=
  match decodeProgram ws with
  | .ok program => initEngine P program
  | .error e => .refused (.loadError (.illFormedWord e))

/-- The host may preload until the first tick, which is when `clock` is still 0 (R120). -/
def State.preloadable (s : State) : Bool := s.clock == 0

/-- Preload of one word of data memory (20_memory.md R74, R120): before the first tick, in range and with an `XLEN`-bit value,
or refused. -/
def preloadMem (a : Nat) (v : Word) (s : State) : Result State :=
  if s.preloadable && decide (a < s.cfg.dmemWords) && s.cfg.holds v then .next (s.writeMem a v) else .refused .preloadRefused

/-- Preload of one register (R120): before the first tick, one of the `NREG` registers, with an `XLEN`-bit value, or refused. -/
def preloadReg (r : Reg) (v : Word) (s : State) : Result State :=
  if s.preloadable && decide (r.val < s.cfg.nreg) && s.cfg.holds v then .next (s.setReg r v) else .refused .preloadRefused

/-- `run_for(n)` (R118): at most `n` ticks, stopping early once halted or faulted. `run_until_halt` is `runFor` under
enough fuel. -/
def runFor (n : Nat) (s : State) : Result State :=
  match n with
  | 0 => .next s
  | n + 1 =>
    if s.terminal then .next s
    else
      match advanceCycle s with
      | .next t => runFor n t
      | .fault f => .fault f
      | .refused e => .refused e

end Sys2Proof.Machine
end

