-- ==== Sys2Proof/Machine/Step.lean ====
section
/-! DEFINITION. One step is one clock tick (00_scope.md R7, 40_scheduler.md R110), and where a step's next instruction is
put for the host. -/

namespace Sys2Proof.Machine

/-- One step of the machine: one call of `advance_cycle` (R110). -/
def step (s : State) : Host.Outcome State Fault Refusal := advanceCycle s

/-- The state with one instruction word where the next step fetches: the program is that one instruction, the pc is at
`CODE_BASE`, Fetch is ready, the pipeline is empty and the engine is running (log 3, log 13). A word that spells no
instruction leaves the instruction store empty. The word is decoded and nothing more is checked (DESIGN CHOICE, unsafe: log 13):
in a core with `NREG` below 16 or `XLEN` below 32 it places a register of `NREG` or above, or an immediate outside the `XLEN`-bit
range, and in every core `LOADP` with `rd = rs1` (log 9), all of which the host's load refuses (30_encoding.md R88, R94, R96). -/
def State.withFetchWord (s : State) (nbits w : Nat) : State :=
  { s with
    imem := (decodeTableWord nbits w).toList
    pc := s.cfg.codeBase
    flHeld := false
    fetchEn := true
    redirectPending := false
    dl := none
    dlStall := false
    el := none
    ml := none
    wl := none
    halted := false
    fault := none
    turn := .fetch }

end Sys2Proof.Machine
end

