-- ==== Sys2Proof/Safety.lean ====
section
/-! DEFINITION. What claims about the machine are stated in: which registers and values an in-flight instruction owns, when
the fields a stage reads have a value, the invariants of 10_state.md R41, R42 and 45_branch_predictor.md R240, and an
instruction alone in the pipeline. -/

namespace Sys2Proof.Machine

/-! ## Instructions in flight -/

/-- The registers the occupant of a latch will write at Writeback, `W(I)` (42_decode_hazard.md R151). -/
def writesOf (o : Option Latch) : List Reg :=
  match o with
  | none => []
  | some l =>
    match l.op with
    | .instr i => writes i
    | .invalid => []

/-- The registers whose value the occupant of a latch publishes at Execute, `WE(I)` (43_execute_redirect.md R188). -/
def publishesOf (o : Option Latch) : List Reg :=
  match o with
  | none => []
  | some l =>
    match l.op with
    | .instr i => writesAtExecute i
    | .invalid => []

/-- The value a latch's occupant will commit to a register (44_memory_writeback.md R216): `res2` to the post-incremented
base, `res` to the destination, nothing to any other register. -/
def Latch.commitValue (l : Latch) (r : Reg) : Option Word :=
  match l.op with
  | .invalid => none
  | .instr (.loadp rd rs1 _) => if r = rs1 then l.res2 else if r = rd then l.res else none
  | .instr (.storep _ rs2 _) => if r = rs2 then l.res2 else none
  | .instr i => if r ∈ writes i then l.res else none

/-- The value program order gives a register when the instructions past Decode that have been executed are taken into
account: the one the youngest of them will commit, or the committed register (42_decode_hazard.md R170). -/
def State.valueInOrder (s : State) (r : Reg) : Option Word :=
  match s.ml, s.wl with
  | some l, w =>
    if r ∈ writesOf (some l) then l.commitValue r
    else
      match w with
      | some k => if r ∈ writesOf (some k) then k.commitValue r else some (s.reg r)
      | none => some (s.reg r)
  | none, some k => if r ∈ writesOf (some k) then k.commitValue r else some (s.reg r)
  | none, none => some (s.reg r)

/-- The instruction writes a register with the result of Execute (`rd` in `WE`): ARITH, LOGIC, MOVE and JALR (30_encoding.md
R87, "value-producing"). -/
def producesResult (i : Instr) : Bool :=
  match i with
  | .jalr .. => true
  | _ => decide (i.opClass = .arith) || decide (i.opClass = .logic) || decide (i.opClass = .move)

/-- The two post-increment mnemonics (30_encoding.md R87). -/
def postIncrements (i : Instr) : Bool :=
  match i with
  | .loadp .. | .storep .. => true
  | _ => false

/-- A load or a store (47_insn_loadstore.md R285). -/
def accessesMemory (i : Instr) : Bool := decide (i.opClass = .load) || decide (i.opClass = .store)

/-- The flag-setting classes: ARITH, LOGIC, COMPARE (30_encoding.md R87). -/
def setsFlags (i : Instr) : Bool :=
  decide (i.opClass = .arith) || decide (i.opClass = .logic) || decide (i.opClass = .compare)

/-- The predictor-trained mnemonics (30_encoding.md R87). -/
def trainedAs (i : Instr) : Option Trained :=
  match i with
  | .bz _ => some .bz
  | .bnz _ => some .bnz
  | .bp _ => some .bp
  | .bnp _ => some .bnp
  | _ => none

/-- The displacement of a predictor-trained branch. -/
def displacement (i : Instr) : Word :=
  match i with
  | .bz imm | .bnz imm | .bp imm | .bnp imm => imm
  | _ => 0#32

/-- Every operand the instruction reads at Decode has been captured (10_state.md R34, 42_decode_hazard.md R164). -/
def Latch.operandsCaptured (l : Latch) (i : Instr) : Bool :=
  (!(operand1 i).isSome || l.v1.isSome) && (!(operand2 i).isSome || l.v2.isSome)

/-- Every field that Execute writes for the instruction has a value (10_state.md R34). -/
def Latch.executed (l : Latch) (i : Instr) : Bool :=
  (!producesResult i || l.res.isSome) && (!postIncrements i || l.res2.isSome) && (!accessesMemory i || l.addr.isSome)

/-- The fields that the Execute stage reads have a value, and the marker INVALID is not there (30_encoding.md R89). -/
def Latch.readyForExecute (l : Latch) : Bool :=
  match l.op with
  | .invalid => false
  | .instr i => l.operandsCaptured i

/-- The fields that the Memory and Writeback stages read have a value. -/
def Latch.readyForMemory (l : Latch) : Bool :=
  match l.op with
  | .invalid => false
  | .instr i => l.operandsCaptured i && l.executed i

/-- The fields that the Writeback stage reads have a value, a loaded word among them. -/
def Latch.readyForWriteback (l : Latch) : Bool :=
  match l.op with
  | .invalid => false
  | .instr i => l.executed i && (!decide (i.opClass = .load) || l.res.isSome)

/-- The latch holds a HALT. -/
def holdsHalt (o : Option Latch) : Bool :=
  match o with
  | some l => decide (l.op = .instr .halt)
  | none => false

/-! ## What statements say an instruction leaves -/

/-- The flags a computed result leaves: exactly one of zero, negative (bit 31 set), positive (10_state.md R26, R27). -/
def flagsOfResult (r : Word) : Flags :=
  if r = 0#32 then ⟨true, false, false⟩ else if r.msb then ⟨false, false, true⟩ else ⟨false, true, false⟩

/-- The flags a signed comparison leaves: exactly one (43_execute_redirect.md R182). -/
def flagsOfCompare (a b : Word) : Flags :=
  if a = b then ⟨true, false, false⟩ else if a.slt b then ⟨false, false, true⟩ else ⟨false, true, false⟩

/-- Exactly one of the three flags is true (10_state.md R26). -/
def Flags.exactlyOne (f : Flags) : Bool :=
  (f.z && !f.p && !f.n) || (!f.z && f.p && !f.n) || (!f.z && !f.p && f.n)

/-- `pend_f` after Execute has a value for the register `r`: set under `FB` only (43_execute_redirect.md R188). -/
def State.pendFWith (s : State) (r : Reg) : Vector Bool 16 :=
  if s.cfg.policy = .fb then s.pendF.set r.val true else s.pendF

/-- `pend_v` after Execute has the value `v` for the register `r`: written under `FB` only (43_execute_redirect.md R188). -/
def State.pendVWith (s : State) (r : Reg) (v : Word) : Vector Word 16 :=
  if s.cfg.policy = .fb then s.pendV.set r.val v else s.pendV

/-- The state after Fetch has loaded `i` at the pc and moved the pc to `next`: forwarded to an empty `DL`, or held behind an
occupied one (41_fetch.md R134, R135); `en` is `fetch_en` if it was forwarded. -/
def State.loaded (s : State) (i : Instr) (next : Word) (en : Bool) : State :=
  match s.dl with
  | none =>
    { s with
      fl := some (Latch.fresh s.pc (.instr i))
      pc := next
      dl := some (Latch.fresh s.pc (.instr i))
      dlStall := false
      fetchEn := en }
  | some _ => { s with fl := some (Latch.fresh s.pc (.instr i)), pc := next, flHeld := true }

/-- The state after an instruction in `EL` has redirected to `t` and moved to `ML` as `l`: `DL` flushed, the bubble asked
for (43_execute_redirect.md R189, R195). -/
def State.redirected (s : State) (t : Word) (l : Latch) : State :=
  { s with
    pc := t
    dl := none
    dlStall := false
    flHeld := false
    fetchEn := true
    redirectPending := true
    ml := some l
    el := none }

/-- The registers, flags, data memory, commit counter, halt and fault of `t` are those of `s` (what a flush and a fetch leave
alone, 43_execute_redirect.md R195). -/
def sameArchitecture (s t : State) : Prop :=
  t.x = s.x ∧ t.flags = s.flags ∧ t.dmem = s.dmem ∧ t.insnCompleted = s.insnCompleted ∧ t.halted = s.halted ∧
    t.fault = s.fault

/-- The busy bits and the pending table of `t` are those of `s` (43_execute_redirect.md R197). -/
def sameHazards (s t : State) : Prop := t.busy = s.busy ∧ t.pendF = s.pendF ∧ t.pendV = s.pendV

/-- The predictor's table and head of `t` are those of `s` (10_state.md R39). -/
def samePredictor (s t : State) : Prop := t.btb = s.btb ∧ t.btbHead = s.btbHead

/-- The predictor's table and head once `i`, fetched from `pc`, has passed Decode: under `SS`, a predictor-trained branch with
no entry has been given a neutral unresolved one at the head (42_decode_hazard.md R153, 45_branch_predictor.md R232). -/
def State.predictorAfterDecode (s : State) (pc : Word) (i : Instr) : List BtbEntry × Nat :=
  if s.cfg.policy = .ss ∧ (trainedAs i).isSome = true ∧ s.btbFind pc = none then
    (s.btb.set s.btbHead ⟨true, pc, 0#32, BitVec.ofNat 2 s.cfg.ctrNeutral, false⟩, (s.btbHead + 1) % s.cfg.btbEntries)
  else (s.btb, s.btbHead)

/-- What one stage makes of `s`: nothing when its latch, whose contents are `o`, is empty, else what its occupant's meaning
answers there (40_scheduler.md R111, R113). -/
def Performs (stage : Stage) (o : Option Latch) (s u : State) : Prop :=
  (o = none ∧ u = s) ∨ ∃ l i, o = some l ∧ l.op = .instr i ∧ exec i { s with turn := stage } = .next u

/-! ## Invariants at a tick boundary -/

/-- Data memory is in its one form and lists nothing outside the address space (10_state.md R31). -/
def State.memoryInv (s : State) : Prop :=
  Memory.wf s.dmem = true ∧ ∀ c ∈ s.dmem, c.1 < s.cfg.dmemWords

/-- The Fetch and Decode control bits (10_state.md R36, R42(d), R42(e)). -/
structure ControlInv (s : State) : Prop where
  /-- `redirect_pending` is false at every tick boundary (R42(e)). -/
  noRedirectPending : s.redirectPending = false
  /-- No stage procedure is running. -/
  betweenTicks : s.turn = .fetch
  /-- A refused instruction is still in `DL`, and nothing went to `EL` behind it (R165). -/
  stallKeepsDecode : s.dlStall = true → s.dl.isSome = true ∧ s.el = none
  /-- `FL.held` implies `fetch_en` and `DL.has` (R42(d)), and the stall that caused it. -/
  heldBehindStall : s.flHeld = true → s.fetchEn = true ∧ s.dl.isSome = true ∧ s.dlStall = true ∧ s.fl.isSome = true

/-- The fields that the stages will read have a value, and INVALID is nowhere past Decode (10_state.md R34,
30_encoding.md R89). -/
structure FieldsInv (s : State) : Prop where
  executeReady : ∀ l, s.el = some l → l.readyForExecute = true
  memoryReady : ∀ l, s.ml = some l → l.readyForMemory = true
  writebackReady : ∀ l, s.wl = some l → l.readyForWriteback = true

/-- Nothing is behind a HALT that Decode has received (40_scheduler.md R115, 41_fetch.md R137). -/
structure HaltInv (s : State) : Prop where
  inDecode : holdsHalt s.dl = true → s.fetchEn = false ∧ s.flHeld = false ∧ s.dlStall = false
  inExecute : holdsHalt s.el = true → s.dl = none ∧ s.fetchEn = false ∧ s.flHeld = false
  inMemory : holdsHalt s.ml = true → s.el = none ∧ s.dl = none ∧ s.fetchEn = false ∧ s.flHeld = false
  inWriteback : holdsHalt s.wl = true → s.ml = none ∧ s.el = none ∧ s.dl = none ∧ s.fetchEn = false ∧ s.flHeld = false

/-- The hazard tables describe the instructions past Decode (10_state.md R42(a), R42(b)). -/
structure HazardInv (s : State) : Prop where
  /-- `busy[r]` exactly when an instruction past Decode writes `r`. -/
  busyExactly : ∀ r, s.isBusy r = true ↔ r ∈ writesOf s.el ∨ r ∈ writesOf s.ml ∨ r ∈ writesOf s.wl
  /-- No two instructions past Decode write one register. -/
  disjointExecuteMemory : ∀ r, r ∈ writesOf s.el → r ∉ writesOf s.ml
  disjointExecuteWriteback : ∀ r, r ∈ writesOf s.el → r ∉ writesOf s.wl
  disjointMemoryWriteback : ∀ r, r ∈ writesOf s.ml → r ∉ writesOf s.wl
  /-- `pend_f[r]` exactly when, under `FB`, an executed instruction past Decode has published `r`. -/
  pendingExactly : ∀ r, s.isPending r = true ↔
    s.cfg.policy = .fb ∧ (r ∈ publishesOf s.ml ∨ r ∈ publishesOf s.wl)
  /-- `pend_v[r]` is the value its owner will commit. -/
  pendingMemory : ∀ r l, s.isPending r = true → s.ml = some l → r ∈ publishesOf (some l) →
    l.commitValue r = some (s.pendingValue r)
  pendingWriteback : ∀ r l, s.isPending r = true → s.wl = some l → r ∈ publishesOf (some l) →
    l.commitValue r = some (s.pendingValue r)

/-- What a predictor entry may hold (10_state.md R39, 45_branch_predictor.md R239): the counter is in `0 .. CTR_MAX`, only an
allocated entry is resolved, and an allocated entry not yet resolved is neutral. -/
def BtbEntry.sound (P : Params) (e : BtbEntry) : Prop :=
  e.ctr.toNat ≤ P.ctrMax ∧ (e.resolved = true → e.valid = true) ∧
    (e.valid = true → e.resolved = false → e.ctr.toNat = P.ctrNeutral)

/-- The predictor table's shape (45_branch_predictor.md R240(a), R240(b), 10_state.md R39). -/
structure PredictorInv (s : State) : Prop where
  capacity : 1 ≤ s.cfg.btbEntries ∧ s.btb.length = s.cfg.btbEntries
  /-- Two bits hold every counter state (10_state.md R39). -/
  counterStates : s.cfg.ctrNeutral ≤ s.cfg.ctrMax ∧ s.cfg.ctrMax ≤ 3
  headInTable : s.btbHead < s.cfg.btbEntries
  entriesSound : ∀ e ∈ s.btb, e.sound s.cfg
  /-- No two valid entries have the same tag (10_state.md R41(d)). -/
  tagsDistinct : s.btb.Pairwise fun e f => e.valid = true → f.valid = true → e.tag ≠ f.tag

/-- Every occupied latch holds what the instruction store holds at its address (10_state.md R33, R34). -/
structure ProgramInv (s : State) : Prop where
  inFetch : ∀ l, s.flHeld = true → s.fl = some l → l.op = s.ifetch l.pc
  inDecode : ∀ l, s.dl = some l → l.op = s.ifetch l.pc
  inExecute : ∀ l, s.el = some l → l.op = s.ifetch l.pc
  inMemory : ∀ l, s.ml = some l → l.op = s.ifetch l.pc
  inWriteback : ∀ l, s.wl = some l → l.op = s.ifetch l.pc
  /-- A valid entry's tag is the address of a predictor-trained branch of the program, and its target, once resolved, is
  that branch's (45_branch_predictor.md R240(c), R240(e)). -/
  inPredictor : ∀ e ∈ s.btb, e.valid = true → ∃ i, s.ifetch e.tag = .instr i ∧ (trainedAs i).isSome = true ∧
    (e.resolved = true → e.target = branchTarget s.cfg e.tag (displacement i))

/-! ## An instruction alone in the pipeline -/

/-- The instruction at `pc` is in `DL`, just forwarded; nothing else is in flight, no register is busy or pending, and nothing
but a HALT can follow it: Fetch is disabled, or would load a HALT next. Four ticks run it to its commit. In the program
`[i, HALT]` one tick after reset leaves such a state. -/
structure AloneInDecode (s : State) (pc : Word) (i : Instr) : Prop where
  running : s.terminal = false
  inDecode : s.dl = some (Latch.fresh pc (.instr i))
  executeEmpty : s.el = none
  memoryEmpty : s.ml = none
  writebackEmpty : s.wl = none
  nothingBusy : ∀ r, s.isBusy r = false
  nothingPending : ∀ r, s.isPending r = false
  fetchIdle : s.flHeld = false ∧ s.redirectPending = false
  nothingBehind : s.fetchEn = false ∨ s.ifetch s.pc = .instr .halt

/-- The HALT that was fetched behind an instruction alone in Decode, if Fetch was enabled. -/
def State.haltBehind (s : State) : Option Latch :=
  if s.fetchEn = true then some (Latch.fresh s.pc (.instr .halt)) else none

/-- The pc once the HALT behind an instruction alone in Decode, if any, has been fetched (41_fetch.md R134). -/
def State.pcBehind (s : State) : Word := if s.fetchEn = true then s.cfg.fit (s.pc + s.cfg.strideWord) else s.pc

/-- What four ticks leave of the instruction `i` at `pc` that was alone: the architectural state given, one instruction
committed, the engine still running; no register busy or pending, the pending values of the registers that `i` published and
no others written, the predictor as Decode left it, and in the pipeline only the HALT fetched behind `i`, if any. -/
structure CommittedAlone (s t : State) (pc : Word) (i : Instr) (x : Vector Word 16) (flags : Flags) (dmem : List MemCell) :
    Prop where
  registers : t.x = x
  flagsLeft : t.flags = flags
  memory : t.dmem = dmem
  pcLeft : t.pc = s.pcBehind
  counted : t.insnCompleted = s.insnCompleted + 1 ∧ t.committed = some pc
  ticks : t.clock = s.clock + 4
  goesOn : t.terminal = false
  released : ∀ r, t.isBusy r = false ∧ t.isPending r = false
  published : ∀ r, t.pendingValue r =
    if s.cfg.policy = .fb ∧ r ∈ writesAtExecute i then t.reg r else s.pendingValue r
  predictor : (t.btb, t.btbHead) = s.predictorAfterDecode pc i
  pipeline : t.dl = none ∧ t.el = none ∧ t.ml = none ∧ t.wl = s.haltBehind
  fetching : t.fetchEn = false ∧ t.flHeld = false ∧ t.redirectPending = false

end Sys2Proof.Machine
end

