-- ==== Sys2Proof/Certificates/Slice0/Obligations.lean ====
section
/-! DEFINITION. The statements for the provers, in the order of the spec: encoding, reset and host, the tick, the five stages,
an instruction alone in the pipeline, faults, what only one event can change, and the invariants. -/

open Sys2Proof Sys2Proof.Machine

/-! ## Encoding (30_encoding.md) -/

/-- R83, R84: the decoder gives back every instruction from its packed word, whatever its operands. -/
def Obligations.DecodingAnEncodedInstructionGivesItBack : Prop :=
  ∀ i : Instr, decode (encode i) = .ok i

/-- R83, R93: a word that decodes is the packed word of what it decodes to, so each instruction has one word. -/
def Obligations.ADecodedWordIsTheEncodingOfItsInstruction : Prop :=
  ∀ (w : PackedWord) (i : Instr), decode w = .ok i → encode i = w

/-- R88, R94: a word decodes exactly when some row of the opcode table matches it under its mask. R88 says of LOADP "also needs
rd != rs1"; that such a word decodes, and is refused when the program is loaded, is the model's choice (log 9), from R94. -/
def Obligations.AWordDecodesExactlyWhenATableRowMatches : Prop :=
  ∀ w : PackedWord, (∃ i, decode w = .ok i) ↔ ∃ row ∈ opcodeRows, w &&& row.1 = row.2

/-- R83, R84, R88: words written out from the table, and words the table has no row for. -/
def Obligations.WordsWrittenFromTheTableDecode : Prop :=
  decode 0x0002000100000000#64 = .ok (.add 2 0 1) ∧
  decode 0x07010000FFFFFFFA#64 = .ok (.movc 1 (-6)) ∧
  decode 0x08030100FFFFFFFD#64 = .ok (.load 3 1 (-3)) ∧
  decode 0x1000020100000000#64 = .ok (.storep 2 1 0) ∧
  decode 0x12000800FFFFFFFF#64 = .ok (.cml 8 (-1)) ∧
  decode 0x0B000000FFFFFFF8#64 = .ok (.bnz (-8)) ∧
  decode 0x180E000000000FB4#64 = .ok (.jalr 14 0 4020) ∧
  decode 0x0C00000000000000#64 = .ok .halt ∧
  decode 0x1A00000000000000#64 = .error (.unknownOpcode 0x1A#8) ∧
  decode 0x0010000000000000#64 = .error (.registerOutOfRange 0x10#8) ∧
  decode 0x1900000000000001#64 = .error .unusedFieldNotZero

/-! ## Reset and the host (10_state.md, 40_scheduler.md, 60_exceptions.md, 70_reset_and_hazards.md) -/

/-- R43: what `initialize` leaves, for any parameters and program. -/
def Obligations.ResetLeavesTheTableOfValues : Prop :=
  ∀ (P : Params) (program : List Instr) (s : State), s = State.resetWith P program →
    s.pc = P.codeBase ∧ (∀ r, s.reg r = 0#32) ∧ s.flags = ⟨false, false, false⟩ ∧ (∀ a, s.readMem a = 0#32) ∧
    s.imem = program ∧ s.dl = none ∧ s.el = none ∧ s.ml = none ∧ s.wl = none ∧ s.dlStall = false ∧ s.fetchEn = true ∧
    s.flHeld = false ∧ s.redirectPending = false ∧ s.fl = none ∧ (∀ r, s.isBusy r = false) ∧
    (∀ r, s.isPending r = false) ∧ (∀ r, s.pendingValue r = 0#32) ∧ s.btb.length = P.btbEntries ∧
    (∀ e ∈ s.btb, e.valid = false ∧ e.resolved = false ∧ e.tag = 0#32 ∧ e.target = 0#32 ∧ e.ctr = 0#2) ∧
    s.btbHead = 0 ∧ s.clock = 0 ∧ s.insnCompleted = 0 ∧ s.halted = false ∧ s.fault = none

/-- R96, R117, R335: the host's load builds an engine in the reset state exactly when the parameters and the program are
well formed, and answers a load error otherwise. Of the parameters R335 asks BTB_ENTRIES at least 1 and TAKEN_MIN 1 or 2; every
other clause on them (`XLEN`, `NREG`, `INSN_STRIDE`, `DMEM_WORDS`, `CTR_MAX`, `CTR_NEUTRAL`, `CODE_BASE`) is the model's reading
(log 23). -/
def Obligations.LoadingBuildsAnEngineExactlyForAWellFormedProgram : Prop :=
  ∀ (P : Params) (program : List Instr) (ok : Prop),
    (ok ↔ 1 ≤ P.btbEntries ∧ (∀ m : Trained, P.takenMin m = 1 ∨ P.takenMin m = 2) ∧
      1 ≤ P.xlen ∧ P.xlen ≤ 32 ∧ 1 ≤ P.nreg ∧ P.nreg ≤ 16 ∧ 1 ≤ P.insnStride ∧ 1 ≤ P.dmemWords ∧
      P.ctrNeutral ≤ P.ctrMax ∧ P.ctrMax ≤ 3 ∧
      -(2 : Int) ^ (P.xlen - 1) ≤ P.codeBase.toInt ∧ P.codeBase.toInt < 2 ^ (P.xlen - 1) ∧
      program ≠ [] ∧ (∀ rd imm, Instr.loadp rd rd imm ∉ program) ∧
      ∀ i ∈ program, (∀ r ∈ i.registers, r.val < P.nreg) ∧
        ∀ v, i.immediate = some v → -(2 : Int) ^ (P.xlen - 1) ≤ v.toInt ∧ v.toInt < 2 ^ (P.xlen - 1)) →
    (ok → initEngine P program = .next (State.resetWith P program)) ∧
    (¬ok → ∃ e, initEngine P program = .refused (.loadError e))

/-- R66, R67, R83: after a load of packed words, the record at `CODE_BASE + INSN_STRIDE * k` is what the `k`-th word decodes
to. -/
def Obligations.LoadedWordsAreFetchedAtTheirAddresses : Prop :=
  ∀ (P : Params) (ws : List PackedWord) (s : State) (k : Nat) (w : PackedWord) (i : Instr),
    initEngineWords P ws = .next s → ws[k]? = some w → decode w = .ok i →
    P.codeBase.toInt + (P.insnStride * k : Nat) < 2 ^ (P.xlen - 1) →
    s.ifetch (P.codeBase + BitVec.ofNat 32 (P.insnStride * k)) = .instr i

/-- R74, R120: a preload of an `XLEN`-bit value changes one register or one word of data memory in range and nothing else, and
is refused after the first tick, out of range, or with a value outside the `XLEN`-bit range. That the first tick is past when
`clock` is not 0, and the refusal of such a value, are the model's reading (log 20). -/
def Obligations.PreloadWritesOneCellBeforeTheFirstTickOnly : Prop :=
  ∀ (s : State) (a : Nat) (r : Reg) (v : Word) (inRange : Prop), Memory.wf s.dmem = true →
    (inRange ↔ -(2 : Int) ^ (s.cfg.xlen - 1) ≤ v.toInt ∧ v.toInt < 2 ^ (s.cfg.xlen - 1)) →
    (s.clock = 0 → inRange → a < s.cfg.dmemWords → ∃ t, preloadMem a v s = .next t ∧ t.readMem a = v ∧
      (∀ b, b ≠ a → t.readMem b = s.readMem b) ∧ { t with dmem := s.dmem } = s) ∧
    (s.clock = 0 → inRange → r.val < s.cfg.nreg → ∃ t, preloadReg r v s = .next t ∧ t.reg r = v ∧
      (∀ q, q ≠ r → t.reg q = s.reg q) ∧ { t with x := s.x } = s) ∧
    (s.clock ≠ 0 ∨ ¬inRange → preloadMem a v s = .refused .preloadRefused ∧ preloadReg r v s = .refused .preloadRefused) ∧
    (s.cfg.dmemWords ≤ a → preloadMem a v s = .refused .preloadRefused) ∧
    (s.cfg.nreg ≤ r.val → preloadReg r v s = .refused .preloadRefused)

/-! ## The tick (40_scheduler.md) -/

/-- R112, R121: in every non-terminal state a tick answers a next state and is counted once; a tick on a halted or faulted
engine changes nothing, and reports no commit (the report is kept in `committed`, the model's own field, log 8). -/
def Obligations.ALiveTickIsCountedOnceAndAFinishedEngineStays : Prop :=
  ∀ s : State,
    (s.halted = false → s.fault = none → ∃ t, step s = .next t ∧ t.clock = s.clock + 1) ∧
    (s.halted = true ∨ s.fault ≠ none → step s = .next { s with committed := none })

/-- R32, R40: no tick writes the instruction store or the parameters. -/
def Obligations.NoTickWritesTheProgramOrTheParameters : Prop :=
  ∀ s t : State, step s = .next t → t.imem = s.imem ∧ t.cfg = s.cfg

/-- R116, R218: a tick counts and reports exactly the instruction that Writeback processed. -/
def Obligations.ATickRetiresTheInstructionInWriteback : Prop :=
  ∀ s t : State, s.terminal = false → FieldsInv s → step s = .next t →
    (s.wl = none → t.insnCompleted = s.insnCompleted ∧ t.committed = none) ∧
    (∀ l, s.wl = some l → t.insnCompleted = s.insnCompleted + 1 ∧ t.committed = some l.pc)

/-- R111, R134: when the pipeline is empty and Fetch may load, a tick is `exec`, at Fetch, of the instruction at the pc, and
the tick is counted. (`turn` and `committed` are the model's own fields, log 1 and log 8.) -/
def Obligations.ATickRunsTheInstructionAtThePc : Prop :=
  ∀ (s : State) (i : Instr), s.terminal = false → s.dl = none → s.el = none → s.ml = none → s.wl = none →
    s.redirectPending = false → s.flHeld = false → s.fetchEn = true → s.ifetch s.pc = .instr i →
    ∃ t, exec i { s with committed := none, turn := .fetch } = .next t ∧
      step s = .next { t with clock := t.clock + 1, turn := .fetch }

/-- R111, R113, R114: a tick is `exec` of the instruction in `WL` at Writeback, then of the one in `ML` at Memory, then of the
one in `EL` at Execute, then of the one in `DL` at Decode, each in the state the one before left, and then Fetch. -/
def Obligations.ATickRunsTheStagesInReverseOrder : Prop :=
  ∀ (s s1 s2 s3 s4 : State) (lw lm le ld : Latch) (iw im ie id : Instr), s.terminal = false →
    s.wl = some lw → lw.op = .instr iw →
    exec iw { s with committed := none, turn := .writeback } = .next s1 → s1.terminal = false →
    s1.ml = some lm → lm.op = .instr im → exec im { s1 with turn := .memory } = .next s2 → s2.terminal = false →
    s2.el = some le → le.op = .instr ie → exec ie { s2 with turn := .execute } = .next s3 → s3.terminal = false →
    s3.dl = some ld → ld.op = .instr id → exec id { s3 with turn := .decode } = .next s4 → s4.terminal = false →
    ∃ s5, runFetch s4 = .next s5 ∧ step s = .next { s5 with clock := s5.clock + 1, turn := .fetch }

/-! ## Fetch (20_memory.md, 41_fetch.md) -/

/-- R66: an address holds the record of its index, or INVALID when no index has it. -/
def Obligations.InstructionFetchFollowsTheAddressMap : Prop :=
  ∀ (s : State) (a : Word), 1 ≤ s.cfg.insnStride →
    (∀ (k : Nat) (i : Instr), s.imem[k]? = some i →
      a.toInt = s.cfg.codeBase.toInt + (s.cfg.insnStride : Int) * (k : Int) → s.ifetch a = .instr i) ∧
    ((∀ k : Nat, k < s.imem.length → a.toInt ≠ s.cfg.codeBase.toInt + (s.cfg.insnStride : Int) * (k : Int)) →
      s.ifetch a = .invalid)

/-- R131, R132, R133: a pending redirect is consumed and nothing is loaded; a held instruction is forwarded once `DL` is
empty, with no new load, and otherwise waits; a disabled Fetch does nothing. -/
def Obligations.FetchConsumesARedirectRetriesOrWaits : Prop :=
  ∀ s : State,
    (s.redirectPending = true → runFetch s = .next { s with redirectPending := false }) ∧
    (∀ l, s.redirectPending = false → s.flHeld = true → s.fl = some l → s.dl = none →
      runFetch s = .next { s with
        turn := .fetch
        dl := some l
        dlStall := false
        flHeld := false
        fetchEn := s.fetchEn && !decide (l.op = .instr .halt) }) ∧
    (∀ l, s.redirectPending = false → s.flHeld = true → s.fl = some l → s.dl ≠ none →
      runFetch s = .next { s with turn := .fetch }) ∧
    (s.redirectPending = false → s.flHeld = false → s.fetchEn = false → runFetch s = .next s)

/-- R134, R135, R137, R138: Fetch of an instruction that is never predicted loads it, moves the pc on by `INSN_STRIDE` and
forwards it, or holds it behind a stalled Decode; a HALT that is forwarded disables Fetch. -/
def Obligations.FetchLoadsAndForwardsOrHolds : Prop :=
  ∀ (i : Instr) (s : State), trainedAs i = none → s.turn = .fetch → s.flHeld = false →
    exec i s = .next (s.loaded i (s.cfg.fit (s.pc + s.cfg.strideWord)) (s.fetchEn && !decide (i = .halt)))

/-- R136, R138, R234: Fetch of BZ, BNZ, BP, BNP goes on at the stored target when, under `SS`, a resolved entry's counter has
reached `TAKEN_MIN`, and sequentially otherwise. -/
def Obligations.FetchFollowsThePredictorUnderScoreboardStall : Prop :=
  ∀ (i : Instr) (op : Trained) (s : State), trainedAs i = some op → s.turn = .fetch → s.flHeld = false →
    (∀ k e, s.cfg.policy = .ss → s.btbFind s.pc = some k → s.btb[k]? = some e → e.resolved = true →
      s.cfg.takenMin op ≤ e.ctr.toNat → exec i s = .next (s.loaded i e.target s.fetchEn)) ∧
    (∀ k e, s.btbFind s.pc = some k → s.btb[k]? = some e → (e.resolved = false ∨ e.ctr.toNat < s.cfg.takenMin op) →
      exec i s = .next (s.loaded i (s.cfg.fit (s.pc + s.cfg.strideWord)) s.fetchEn)) ∧
    (s.cfg.policy = .fb ∨ s.btbFind s.pc = none → exec i s = .next (s.loaded i (s.cfg.fit (s.pc + s.cfg.strideWord)) s.fetchEn))

/-! ## Decode (42_decode_hazard.md) -/

/-- R151: the registers read at Decode and written at Writeback, mnemonic by mnemonic, with the split of the written ones. -/
def Obligations.SourceAndWriteSetsFollowTheTable : Prop :=
  ∀ (rd rs1 rs2 r : Reg) (imm : Word),
    (∀ i ∈ [Instr.add rd rs1 rs2, .sub rd rs1 rs2, .mul rd rs1 rs2, .div rd rs1 rs2, .and rd rs1 rs2, .or rd rs1 rs2,
        .xor rd rs1 rs2],
      (r ∈ sources i ↔ r = rs1 ∨ r = rs2) ∧ (r ∈ writesAtExecute i ↔ r = rd) ∧ r ∉ writesAtMemory i ∧
        operand1 i = some rs1 ∧ operand2 i = some rs2) ∧
    (∀ i ∈ [Instr.addl rd rs1 imm, .subl rd rs1 imm, .jalr rd rs1 imm],
      (r ∈ sources i ↔ r = rs1) ∧ (r ∈ writesAtExecute i ↔ r = rd) ∧ r ∉ writesAtMemory i ∧ operand1 i = some rs1) ∧
    (r ∉ sources (.movc rd imm) ∧ (r ∈ writesAtExecute (.movc rd imm) ↔ r = rd) ∧ r ∉ writesAtMemory (.movc rd imm)) ∧
    ((r ∈ sources (.load rd rs1 imm) ↔ r = rs1) ∧ r ∉ writesAtExecute (.load rd rs1 imm) ∧
      (r ∈ writesAtMemory (.load rd rs1 imm) ↔ r = rd) ∧ operand1 (.load rd rs1 imm) = some rs1) ∧
    ((r ∈ sources (.loadp rd rs1 imm) ↔ r = rs1) ∧ (r ∈ writesAtExecute (.loadp rd rs1 imm) ↔ r = rs1) ∧
      (r ∈ writesAtMemory (.loadp rd rs1 imm) ↔ r = rd) ∧ operand1 (.loadp rd rs1 imm) = some rs1) ∧
    (∀ i ∈ [Instr.store rs1 rs2 imm, .cmp rs1 rs2],
      (r ∈ sources i ↔ r = rs1 ∨ r = rs2) ∧ r ∉ writes i ∧ operand1 i = some rs1 ∧ operand2 i = some rs2) ∧
    ((r ∈ sources (.storep rs1 rs2 imm) ↔ r = rs1 ∨ r = rs2) ∧ (r ∈ writesAtExecute (.storep rs1 rs2 imm) ↔ r = rs2) ∧
      r ∉ writesAtMemory (.storep rs1 rs2 imm) ∧ operand1 (.storep rs1 rs2 imm) = some rs1 ∧
      operand2 (.storep rs1 rs2 imm) = some rs2) ∧
    (∀ i ∈ [Instr.cml rs1 imm, .jump rs1 imm], (r ∈ sources i ↔ r = rs1) ∧ r ∉ writes i ∧ operand1 i = some rs1) ∧
    (∀ i ∈ [Instr.bz imm, .bnz imm, .bp imm, .bnp imm, .bn imm, .bnn imm, .nop, .halt], r ∉ sources i ∧ r ∉ writes i) ∧
    (∀ i, r ∈ writes i ↔ r ∈ writesAtExecute i ∨ r ∈ writesAtMemory i)

/-- R161, R162, R165: Decode refuses an instruction while a hazard of the policy in force lasts, and then only sets
`DL.stall`. -/
def Obligations.DecodeRefusesWhileAHazardLasts : Prop :=
  ∀ (i : Instr) (s : State), s.turn = .decode → s.dl ≠ none →
    ((s.cfg.policy = .ss ∧ ∃ r, (r ∈ sources i ∨ r ∈ writes i) ∧ s.isBusy r = true) ∨
      (s.cfg.policy = .fb ∧ ((∃ r ∈ writes i, s.isBusy r = true) ∨
        ∃ r ∈ sources i, s.isBusy r = true ∧ s.isPending r = false))) →
    exec i s = .next { s with dlStall := true }

/-- R160, R163, R164, R166: without a hazard Decode captures the operands (the pending value where `FB` has one), marks
exactly `W(I)` busy, moves the instruction to `EL` and empties `DL`; nothing else changes. -/
def Obligations.DecodeAdmitsAnInstructionWithoutHazard : Prop :=
  ∀ (i : Instr) (s : State) (l : Latch), trainedAs i = none → s.turn = .decode → s.dl = some l →
    (∀ r, r ∈ writes i → s.isBusy r = false) →
    (∀ r, r ∈ sources i → s.isBusy r = false ∨ (s.cfg.policy = .fb ∧ s.isPending r = true)) →
    ∃ t, exec i s = .next t ∧ (∀ r, t.isBusy r = (decide (r ∈ writes i) || s.isBusy r)) ∧
      t = { s with
        busy := t.busy
        el := some { l with
          v1 := (operand1 i).map fun r =>
            if s.cfg.policy = .fb ∧ s.isPending r = true then s.pendingValue r else s.reg r
          v2 := (operand2 i).map fun r =>
            if s.cfg.policy = .fb ∧ s.isPending r = true then s.pendingValue r else s.reg r }
        dl := none
        dlStall := false }

/-- R153, R232: Decode of BZ, BNZ, BP, BNP never stalls; under `SS`, when no entry has the branch's address, it overwrites the
entry at the head with a neutral unresolved one and moves the head on; otherwise the table is left alone. -/
def Obligations.DecodeAllocatesAnEntryForAPredictedBranch : Prop :=
  ∀ (i : Instr) (op : Trained) (s : State) (l : Latch), trainedAs i = some op → s.turn = .decode → s.dl = some l →
    (s.cfg.policy = .fb ∨ s.btbFind l.pc ≠ none →
      exec i s = .next { s with el := some { l with v1 := none, v2 := none }, dl := none, dlStall := false }) ∧
    (s.cfg.policy = .ss → s.btbFind l.pc = none →
      exec i s = .next { s with
        btb := s.btb.set s.btbHead ⟨true, l.pc, 0#32, BitVec.ofNat 2 s.cfg.ctrNeutral, false⟩
        btbHead := (s.btbHead + 1) % s.cfg.btbEntries
        el := some { l with v1 := none, v2 := none }
        dl := none
        dlStall := false })

/-! ## Execute (43_execute_redirect.md, 46_insn_alu.md to 48_insn_control.md) -/

/-- R10, R181, R188, R189, R251 to R253, R255 to R257: ADD, SUB, MUL, AND, OR, XOR write the result wrapped to `XLEN` bits and
all three flags, publish the result under `FB`, and move on; nothing else changes. Wrapping answers the balanced residue modulo
`2^XLEN`. -/
def Obligations.RegisterArithmeticComputesAtExecute : Prop :=
  (∀ (P : Params) (n : Int), P.xlen ≤ 32 → (P.fit (BitVec.ofInt 32 n)).toInt = n.bmod (2 ^ P.xlen)) ∧
  ∀ (mk : Reg → Reg → Reg → Instr) (f : Params → Word → Word → Word),
    (mk, f) ∈ [(Instr.add, fun P a b => P.fit (a + b)), (Instr.sub, fun P a b => P.fit (a - b)),
      (Instr.mul, fun P a b => P.fit (a * b)), (Instr.and, fun _ a b => a &&& b), (Instr.or, fun _ a b => a ||| b),
      (Instr.xor, fun _ a b => a ^^^ b)] →
    ∀ (rd rs1 rs2 : Reg) (s : State) (l : Latch) (a b : Word), s.turn = .execute → s.el = some l → l.v1 = some a →
      l.v2 = some b →
      exec (mk rd rs1 rs2) s = .next { s with
        flags := flagsOfResult (f s.cfg a b)
        pendF := s.pendFWith rd
        pendV := s.pendVWith rd (f s.cfg a b)
        ml := some { l with res := some (f s.cfg a b) }
        el := none }

/-- R187, R254, R263, R332: DIV by zero, or of `INT_MIN` by -1, raises ArithmeticFault and changes nothing else; any other DIV
writes the quotient rounded toward zero, its flags, and moves on. -/
def Obligations.DivisionTruncatesOrFaultsAtExecute : Prop :=
  ∀ (rd rs1 rs2 : Reg) (s : State) (l : Latch) (a b : Word), s.turn = .execute → s.el = some l → l.v1 = some a →
    l.v2 = some b →
    (b = 0#32 ∨ (a.toInt = -(2 ^ (s.cfg.xlen - 1)) ∧ b = 0xFFFFFFFF#32) →
      exec (.div rd rs1 rs2) s = .next { s with fault := some (.arithmeticFault l.pc) }) ∧
    (b ≠ 0#32 → ¬(a.toInt = -(2 ^ (s.cfg.xlen - 1)) ∧ b = 0xFFFFFFFF#32) →
      ∃ (n : Int) (q : Word), n = a.toInt.sign * b.toInt.sign * (a.toInt.natAbs / b.toInt.natAbs : Nat) ∧
        q = s.cfg.fit (BitVec.ofInt 32 n) ∧
        (1 ≤ s.cfg.xlen → s.cfg.xlen ≤ 32 → s.cfg.holds a = true → q.toInt = n) ∧
        exec (.div rd rs1 rs2) s = .next { s with
          flags := flagsOfResult q
          pendF := s.pendFWith rd
          pendV := s.pendVWith rd q
          ml := some { l with res := some q }
          el := none })

/-- R181, R183, R188, R189, R258 to R260: ADDL and SUBL compute with the literal and write the flags; MOVC has its constant as
result and leaves the flags. -/
def Obligations.LiteralFormsComputeAtExecute : Prop :=
  ∀ (rd rs1 : Reg) (imm : Word) (s : State) (l : Latch), s.turn = .execute → s.el = some l →
    (∀ (mk : Reg → Reg → Word → Instr) (f : Word → Word → Word) (a r : Word),
      (mk, f) ∈ [(Instr.addl, fun a m => a + m), (Instr.subl, fun a m => a - m)] → l.v1 = some a →
      r = s.cfg.fit (f a imm) →
      exec (mk rd rs1 imm) s = .next { s with
        flags := flagsOfResult r
        pendF := s.pendFWith rd
        pendV := s.pendVWith rd r
        ml := some { l with res := some r }
        el := none }) ∧
    exec (.movc rd imm) s = .next { s with
      pendF := s.pendFWith rd
      pendV := s.pendVWith rd imm
      ml := some { l with res := some imm }
      el := none }

/-- R182, R189, R261, R262: CMP and CML set exactly one flag from the signed comparison and store no result. -/
def Obligations.ComparisonsSetOneFlagAtExecute : Prop :=
  ∀ (rs1 rs2 : Reg) (imm : Word) (s : State) (l : Latch) (a : Word), s.turn = .execute → s.el = some l →
    l.v1 = some a →
    (∀ b, l.v2 = some b →
      exec (.cmp rs1 rs2) s = .next { s with flags := flagsOfCompare a b, ml := some l, el := none }) ∧
    exec (.cml rs1 imm) s = .next { s with flags := flagsOfCompare a imm, ml := some l, el := none }

/-- R184, R185, R188, R189, R280: loads take the address `v1 + imm`, stores `v2 + imm`, both wrapped; the post-increment forms
also publish the base plus `POSTINC`; the flags are left. -/
def Obligations.LoadsAndStoresComputeAddressesAtExecute : Prop :=
  ∀ (rd rs1 rs2 : Reg) (imm : Word) (s : State) (l : Latch) (base ea up : Word), s.turn = .execute → s.el = some l →
    ea = s.cfg.fit (base + imm) → up = s.cfg.fit (base + s.cfg.incrementWord) →
    (l.v1 = some base →
      exec (.load rd rs1 imm) s = .next { s with ml := some { l with addr := some ea }, el := none } ∧
      exec (.loadp rd rs1 imm) s = .next { s with
        pendF := s.pendFWith rs1
        pendV := s.pendVWith rs1 up
        ml := some { l with addr := some ea, res2 := some up }
        el := none }) ∧
    (l.v2 = some base →
      exec (.store rs1 rs2 imm) s = .next { s with ml := some { l with addr := some ea }, el := none } ∧
      exec (.storep rs1 rs2 imm) s = .next { s with
        pendF := s.pendFWith rs2
        pendV := s.pendVWith rs2 up
        ml := some { l with addr := some ea, res2 := some up }
        el := none })

/-- R186, R188, R191, R195, R199: JUMP and JALR always redirect to `v1 + imm`; JALR also has `pc + INSN_STRIDE` as its
result. -/
def Obligations.JumpsRedirectAtExecute : Prop :=
  ∀ (rd rs1 : Reg) (imm : Word) (s : State) (l : Latch) (a link : Word), s.turn = .execute → s.el = some l →
    l.v1 = some a → link = s.cfg.fit (l.pc + s.cfg.strideWord) →
    exec (.jump rs1 imm) s = .next (s.redirected (s.cfg.fit (a + imm)) l) ∧
    exec (.jalr rd rs1 imm) s = .next { (s.redirected (s.cfg.fit (a + imm)) { l with res := some link }) with
      pendF := s.pendFWith rd
      pendV := s.pendVWith rd link }

/-- R190, R192, R194, R195, R300: BN and BNN under both policies, and all six branches under `FB`, redirect to `pc + imm` when
their flag condition holds and do nothing otherwise. -/
def Obligations.StaticBranchesRedirectWhenTaken : Prop :=
  ∀ (mk : Word → Instr) (taken : Flags → Bool) (always : Bool),
    (mk, taken, always) ∈ [(Instr.bn, fun f => f.n, true), (Instr.bnn, fun f => !f.n, true),
      (Instr.bz, fun f => f.z, false), (Instr.bnz, fun f => !f.z, false), (Instr.bp, fun f => f.p, false),
      (Instr.bnp, fun f => !f.p, false)] →
    ∀ (imm : Word) (s : State) (l : Latch), s.turn = .execute → s.el = some l →
      (always = true ∨ s.cfg.policy = .fb) →
      (taken s.flags = true → exec (mk imm) s = .next (s.redirected (s.cfg.fit (l.pc + imm)) l)) ∧
      (taken s.flags = false → exec (mk imm) s = .next { s with ml := some l, el := none })

/-- R192, R193, R195, R236, R237, R300: BZ, BNZ, BP, BNP under `SS`, with their entry in the table. Taken: the counter is
confirmed or the entry corrected, and the target is redirected to. Not taken but predicted taken: the counter steps down and
the fall-through is redirected to. Neither: nothing. -/
def Obligations.TrainedBranchesResolveUnderScoreboardStall : Prop :=
  ∀ (mk : Word → Instr) (op : Trained) (taken : Flags → Bool),
    (mk, op, taken) ∈ [(Instr.bz, Trained.bz, fun f => f.z), (Instr.bnz, Trained.bnz, fun f => !f.z),
      (Instr.bp, Trained.bp, fun f => f.p), (Instr.bnp, Trained.bnp, fun f => !f.p)] →
    ∀ (imm : Word) (s : State) (l : Latch) (k : Nat) (e : BtbEntry) (target : Word), s.turn = .execute → s.el = some l →
      s.cfg.policy = .ss → s.btbFind l.pc = some k → s.btb[k]? = some e → s.cfg.ctrNeutral ≤ s.cfg.ctrMax →
      s.cfg.ctrMax ≤ 3 → e.ctr.toNat ≤ s.cfg.ctrMax → target = s.cfg.fit (l.pc + imm) →
      (taken s.flags = true → ∃ e' : BtbEntry, e'.valid = e.valid ∧ e'.tag = e.tag ∧ e'.target = target ∧
        e'.resolved = true ∧
        e'.ctr.toNat = (if e.resolved = true ∧ e.target = target then min s.cfg.ctrMax (e.ctr.toNat + 1)
          else s.cfg.ctrNeutral) ∧
        exec (mk imm) s = .next { (s.redirected target l) with btb := s.btb.set k e' }) ∧
      (taken s.flags = false → e.resolved = true → s.cfg.takenMin op ≤ e.ctr.toNat → ∃ e' : BtbEntry,
        { e' with ctr := e.ctr } = e ∧ e'.ctr.toNat = e.ctr.toNat - 1 ∧
        exec (mk imm) s = .next { (s.redirected (s.cfg.fit (l.pc + s.cfg.strideWord)) l) with btb := s.btb.set k e' }) ∧
      (taken s.flags = false → (e.resolved = false ∨ e.ctr.toNat < s.cfg.takenMin op) →
        exec (mk imm) s = .next { s with ml := some l, el := none })

/-- R189, R210, R214, R309, R310: NOP and HALT pass Execute, and every instruction but a load or store passes Memory,
unchanged. -/
def Obligations.OtherInstructionsPassUnchanged : Prop :=
  ∀ (s : State) (l : Latch),
    (s.turn = .execute → s.el = some l →
      exec .nop s = .next { s with ml := some l, el := none } ∧
      exec .halt s = .next { s with ml := some l, el := none }) ∧
    (∀ i, accessesMemory i = false → s.turn = .memory → s.ml = some l →
      exec i s = .next { s with wl := some l, ml := none })

/-! ## Memory and Writeback (44_memory_writeback.md, 20_memory.md) -/

/-- R62, R211, R213, R214: LOAD and LOADP read the word their address names, or raise MemoryFault and do nothing else. -/
def Obligations.LoadsReadDataMemoryOrFault : Prop :=
  ∀ (i : Instr) (s : State) (l : Latch) (a : Word), i.opClass = .load → s.turn = .memory → s.ml = some l →
    l.addr = some a →
    (0 ≤ a.toInt → a.toInt < s.cfg.dmemWords →
      exec i s = .next { s with wl := some { l with res := some (s.readMem a.toInt.toNat) }, ml := none }) ∧
    (a.toInt < 0 ∨ (s.cfg.dmemWords : Int) ≤ a.toInt →
      exec i s = .next { s with fault := some (.memoryFault l.pc a) })

/-- R62, R64, R212, R213, R214: STORE and STOREP write `v1` to exactly the word their address names, or raise MemoryFault and
do nothing else. -/
def Obligations.StoresWriteOneWordOrFault : Prop :=
  ∀ (i : Instr) (s : State) (l : Latch) (a v : Word), i.opClass = .store → s.turn = .memory → s.ml = some l →
    l.addr = some a → l.v1 = some v → Memory.wf s.dmem = true →
    (0 ≤ a.toInt → a.toInt < s.cfg.dmemWords →
      ∃ t, exec i s = .next t ∧ t.readMem a.toInt.toNat = v ∧ (∀ b, b ≠ a.toInt.toNat → t.readMem b = s.readMem b) ∧
        t = { s with dmem := t.dmem, wl := some l, ml := none }) ∧
    (a.toInt < 0 ∨ (s.cfg.dmemWords : Int) ≤ a.toInt →
      exec i s = .next { s with fault := some (.memoryFault l.pc a) })

/-- R216, R217, R218, R220: an instruction whose only written register is its destination commits its result there, releases
that register, and is counted; nothing else changes. -/
def Obligations.ResultsCommitAtWriteback : Prop :=
  ∀ (i : Instr) (rd rs1 rs2 : Reg) (imm : Word) (s : State) (l : Latch) (v : Word),
    i ∈ [Instr.add rd rs1 rs2, .sub rd rs1 rs2, .mul rd rs1 rs2, .div rd rs1 rs2, .and rd rs1 rs2, .or rd rs1 rs2,
      .xor rd rs1 rs2, .addl rd rs1 imm, .subl rd rs1 imm, .movc rd imm, .load rd rs1 imm, .jalr rd rs1 imm] →
    s.turn = .writeback → s.wl = some l → l.res = some v →
    exec i s = .next { s with
      x := s.x.set rd.val v
      busy := s.busy.set rd.val false
      pendF := s.pendF.set rd.val false
      insnCompleted := s.insnCompleted + 1
      committed := some l.pc
      wl := none }

/-- R216, R217, R218, R282, R284: LOADP commits the loaded word and the incremented base, STOREP the incremented base. (LOADP
with `rd = rs1`, which no engine can hold by R94, would leave the base: log 9.) -/
def Obligations.PostIncrementFormsCommitTheBase : Prop :=
  ∀ (rd rs1 rs2 : Reg) (imm : Word) (s : State) (l : Latch) (w : Word), s.turn = .writeback → s.wl = some l →
    l.res2 = some w →
    (∀ v, l.res = some v → ∃ t, exec (.loadp rd rs1 imm) s = .next t ∧ t.reg rs1 = w ∧ (rd ≠ rs1 → t.reg rd = v) ∧
      (∀ r, r ≠ rd → r ≠ rs1 → t.reg r = s.reg r) ∧
      (∀ r, t.isBusy r = (s.isBusy r && !decide (r = rd) && !decide (r = rs1))) ∧
      (∀ r, t.isPending r = (s.isPending r && !decide (r = rd) && !decide (r = rs1))) ∧
      t = { s with
        x := t.x
        busy := t.busy
        pendF := t.pendF
        insnCompleted := s.insnCompleted + 1
        committed := some l.pc
        wl := none }) ∧
    exec (.storep rs1 rs2 imm) s = .next { s with
      x := s.x.set rs2.val w
      busy := s.busy.set rs2.val false
      pendF := s.pendF.set rs2.val false
      insnCompleted := s.insnCompleted + 1
      committed := some l.pc
      wl := none }

/-- R216, R217, R218, R219: every other instruction writes no register and releases none, is counted, and a HALT ends the
run. -/
def Obligations.OtherInstructionsOnlyRetireAndHaltEndsTheRun : Prop :=
  ∀ (i : Instr) (s : State) (l : Latch), writes i = [] → s.turn = .writeback → s.wl = some l →
    exec i s = .next { s with
      insnCompleted := s.insnCompleted + 1
      committed := some l.pc
      wl := none
      halted := s.halted || decide (i = .halt) }

/-! ## An instruction alone in the pipeline: its architectural effect (46_insn_alu.md to 48_insn_control.md) -/

/-- R251 to R257: from Decode, four ticks of ADD, SUB, MUL, AND, OR, XOR, or of a DIV that does not fault, leave
`x[rd]` the result of the old `x[rs1]` and `x[rs2]` and the flags of that result, and nothing else changed but what
`CommittedAlone` says of the counters, the pc, the pending table and the pipeline. -/
def Obligations.RegisterArithmeticHasItsArchitecturalEffect : Prop :=
  ∀ (mk : Reg → Reg → Reg → Instr) (f : Params → Word → Word → Word),
    (mk, f) ∈ [(Instr.add, fun P a b => P.fit (a + b)), (Instr.sub, fun P a b => P.fit (a - b)),
      (Instr.mul, fun P a b => P.fit (a * b)), (Instr.and, fun _ a b => a &&& b), (Instr.or, fun _ a b => a ||| b),
      (Instr.xor, fun _ a b => a ^^^ b), (Instr.div, fun P a b => P.fit (BitVec.ofInt 32 (a.toInt.tdiv b.toInt)))] →
    ∀ (rd rs1 rs2 : Reg) (s : State) (pc r : Word), AloneInDecode s pc (mk rd rs1 rs2) →
      (mk rd rs1 rs2 = .div rd rs1 rs2 → s.reg rs2 ≠ 0#32 ∧
        ¬((s.reg rs1).toInt = -(2 ^ (s.cfg.xlen - 1)) ∧ s.reg rs2 = 0xFFFFFFFF#32)) →
      r = f s.cfg (s.reg rs1) (s.reg rs2) →
      ∃ t, Sys2Proof.core.run 4 s = .next t ∧
        CommittedAlone s t pc (mk rd rs1 rs2) (s.x.set rd.val r) (flagsOfResult r) s.dmem

/-- R258 to R262: the same for ADDL and SUBL, for MOVC (no flag written), and for CMP and CML (no register written). -/
def Obligations.LiteralMoveAndCompareHaveTheirArchitecturalEffect : Prop :=
  ∀ (rd rs1 rs2 : Reg) (imm : Word) (s : State) (pc r : Word),
    (AloneInDecode s pc (.addl rd rs1 imm) → r = s.cfg.fit (s.reg rs1 + imm) → ∃ t, Sys2Proof.core.run 4 s = .next t ∧
      CommittedAlone s t pc (.addl rd rs1 imm) (s.x.set rd.val r) (flagsOfResult r) s.dmem) ∧
    (AloneInDecode s pc (.subl rd rs1 imm) → r = s.cfg.fit (s.reg rs1 - imm) → ∃ t, Sys2Proof.core.run 4 s = .next t ∧
      CommittedAlone s t pc (.subl rd rs1 imm) (s.x.set rd.val r) (flagsOfResult r) s.dmem) ∧
    (AloneInDecode s pc (.movc rd imm) → ∃ t, Sys2Proof.core.run 4 s = .next t ∧
      CommittedAlone s t pc (.movc rd imm) (s.x.set rd.val imm) s.flags s.dmem) ∧
    (AloneInDecode s pc (.cmp rs1 rs2) → ∃ t, Sys2Proof.core.run 4 s = .next t ∧
      CommittedAlone s t pc (.cmp rs1 rs2) s.x (flagsOfCompare (s.reg rs1) (s.reg rs2)) s.dmem) ∧
    (AloneInDecode s pc (.cml rs1 imm) → ∃ t, Sys2Proof.core.run 4 s = .next t ∧
      CommittedAlone s t pc (.cml rs1 imm) s.x (flagsOfCompare (s.reg rs1) imm) s.dmem)

/-- R281, R282: four ticks of LOAD or LOADP with an address in range leave `x[rd]` the word at `x[rs1] + imm`, LOADP also
`x[rs1] + POSTINC` in the base, and nothing else changed but what `CommittedAlone` says. -/
def Obligations.LoadsHaveTheirArchitecturalEffect : Prop :=
  ∀ (rd rs1 : Reg) (imm : Word) (s : State) (pc ea up : Word), ea = s.cfg.fit (s.reg rs1 + imm) → 0 ≤ ea.toInt →
    ea.toInt < s.cfg.dmemWords → up = s.cfg.fit (s.reg rs1 + s.cfg.incrementWord) →
    (AloneInDecode s pc (.load rd rs1 imm) → ∃ t, Sys2Proof.core.run 4 s = .next t ∧
      CommittedAlone s t pc (.load rd rs1 imm) (s.x.set rd.val (s.readMem ea.toInt.toNat)) s.flags s.dmem) ∧
    (AloneInDecode s pc (.loadp rd rs1 imm) → rd ≠ rs1 → ∃ t, Sys2Proof.core.run 4 s = .next t ∧
      CommittedAlone s t pc (.loadp rd rs1 imm) ((s.x.set rd.val (s.readMem ea.toInt.toNat)).set rs1.val up) s.flags s.dmem)

/-- R283, R284: four ticks of STORE or STOREP with an address in range leave the word at `x[rs2] + imm` equal to the old
`x[rs1]`, STOREP also `x[rs2] + POSTINC` in the base, every other word as it was, and nothing else changed but what
`CommittedAlone` says. -/
def Obligations.StoresHaveTheirArchitecturalEffect : Prop :=
  ∀ (rs1 rs2 : Reg) (imm : Word) (s : State) (pc ea up : Word), Memory.wf s.dmem = true →
    ea = s.cfg.fit (s.reg rs2 + imm) → 0 ≤ ea.toInt → ea.toInt < s.cfg.dmemWords →
    up = s.cfg.fit (s.reg rs2 + s.cfg.incrementWord) →
    (AloneInDecode s pc (.store rs1 rs2 imm) → ∃ t, Sys2Proof.core.run 4 s = .next t ∧
      CommittedAlone s t pc (.store rs1 rs2 imm) s.x s.flags t.dmem ∧ t.readMem ea.toInt.toNat = s.reg rs1 ∧
      ∀ a, a ≠ ea.toInt.toNat → t.readMem a = s.readMem a) ∧
    (AloneInDecode s pc (.storep rs1 rs2 imm) → ∃ t, Sys2Proof.core.run 4 s = .next t ∧
      CommittedAlone s t pc (.storep rs1 rs2 imm) (s.x.set rs2.val up) s.flags t.dmem ∧
      t.readMem ea.toInt.toNat = s.reg rs1 ∧ ∀ a, a ≠ ea.toInt.toNat → t.readMem a = s.readMem a)

/-- R196, R197, R307, R308, R311: two ticks of JUMP or JALR leave the pc at `x[rs1] + imm`, the second of them fetching
nothing, and the next tick fetches from there; JALR's link `pc + INSN_STRIDE` is its result in `ML`. The hazard tables are
JALR's own marking and publishing of `rd`, or as they were; the predictor is as it was. -/
def Obligations.JumpsContinueAtTheirTargetAfterOneBubble : Prop :=
  ∀ (rd rs1 : Reg) (imm : Word) (s : State) (pc target link : Word) (i : Instr),
    (i = .jump rs1 imm ∨ i = .jalr rd rs1 imm) → AloneInDecode s pc i → target = s.cfg.fit (s.reg rs1 + imm) →
    link = s.cfg.fit (pc + s.cfg.strideWord) →
    ∃ t1 t u, Sys2Proof.core.run 1 s = .next t1 ∧ Sys2Proof.core.run 2 s = .next t ∧ t.pc = target ∧ t.dl = none ∧
      t.fl = t1.fl ∧ t.flHeld = false ∧ t.fetchEn = true ∧ t.redirectPending = false ∧ t.el = none ∧ t.wl = none ∧
      t.clock = s.clock + 2 ∧ sameArchitecture s t ∧ samePredictor s t ∧
      (i = .jump rs1 imm → sameHazards s t) ∧
      (i = .jalr rd rs1 imm → t.busy = s.busy.set rd.val true ∧ t.pendF = s.pendFWith rd ∧ t.pendV = s.pendVWith rd link ∧
        ∃ l, t.ml = some l ∧ l.commitValue rd = some link) ∧
      Sys2Proof.core.run 3 s = .next u ∧ u.dl = some (Latch.fresh target (s.ifetch target))

/-- R193, R194, R196, R197, R301 to R306, R311: a branch whose condition holds continues at `pc + imm` after one bubble. One
whose condition does not hold continues at `pc + INSN_STRIDE` after one bubble when it was predicted taken; when it was not,
four ticks leave nothing changed but what `CommittedAlone` says. Registers, flags, data memory and the hazard tables are as they
were in every case, and so is the predictor for BN, BNN and under `FB`. -/
def Obligations.BranchesContinueWhereTheirConditionSays : Prop :=
  ∀ (mk : Word → Instr) (taken : Flags → Bool),
    (mk, taken) ∈ [(Instr.bz, fun f => f.z), (Instr.bnz, fun f => !f.z), (Instr.bp, fun f => f.p),
      (Instr.bnp, fun f => !f.p), (Instr.bn, fun f => f.n), (Instr.bnn, fun f => !f.n)] →
    ∀ (imm : Word) (s : State) (pc goal : Word) (predicted : Prop), AloneInDecode s pc (mk imm) →
      (predicted ↔ ∃ op k e, s.cfg.policy = .ss ∧ trainedAs (mk imm) = some op ∧ s.btbFind pc = some k ∧
        s.btb[k]? = some e ∧ e.resolved = true ∧ s.cfg.takenMin op ≤ e.ctr.toNat) →
      ((taken s.flags = true ∧ goal = s.cfg.fit (pc + imm)) ∨
          (taken s.flags = false ∧ predicted ∧ goal = s.cfg.fit (pc + s.cfg.strideWord)) →
        ∃ t1 t u, Sys2Proof.core.run 1 s = .next t1 ∧ Sys2Proof.core.run 2 s = .next t ∧ t.pc = goal ∧ t.dl = none ∧
          t.fl = t1.fl ∧ t.flHeld = false ∧ t.fetchEn = true ∧ t.redirectPending = false ∧ t.el = none ∧ t.wl = none ∧
          t.clock = s.clock + 2 ∧ sameArchitecture s t ∧ sameHazards s t ∧
          (s.cfg.policy = .fb ∨ trainedAs (mk imm) = none → samePredictor s t) ∧
          Sys2Proof.core.run 3 s = .next u ∧ u.dl = some (Latch.fresh goal (s.ifetch goal))) ∧
      (taken s.flags = false → ¬predicted → ∃ t, Sys2Proof.core.run 4 s = .next t ∧
        CommittedAlone s t pc (mk imm) s.x s.flags s.dmem)

/-- R309, R310, R219: four ticks of NOP leave nothing changed but what `CommittedAlone` says; four ticks of HALT, with Fetch
disabled behind it (R137), change only the counters, the report and `halted`, and leave the pipeline empty. -/
def Obligations.NopDoesNothingAndHaltEndsTheRun : Prop :=
  ∀ (s : State) (pc : Word),
    (AloneInDecode s pc .nop → ∃ t, Sys2Proof.core.run 4 s = .next t ∧ CommittedAlone s t pc .nop s.x s.flags s.dmem) ∧
    (AloneInDecode s pc .halt → s.fetchEn = false → Sys2Proof.core.run 4 s = .next { s with
      halted := true
      insnCompleted := s.insnCompleted + 1
      clock := s.clock + 4
      committed := some pc
      dl := none
      dlStall := false
      turn := .fetch })

/-! ## Faults (60_exceptions.md) -/

/-- R152, R333, R336: the INVALID marker at Decode records FetchFault with its address and changes nothing else. -/
def Obligations.TheInvalidMarkerFaultsAtDecode : Prop :=
  ∀ (s : State) (l : Latch), s.dl = some l → l.op = .invalid →
    runDecode s = .next { s with fault := some (.fetchFault l.pc) }

/-- R336, R337: with `u1` what Writeback of the tick leaves, `u2` what Memory leaves and `u3` what Execute leaves. A load or
store in `ML` out of range records MemoryFault in `u1`, where `WL` is empty and the older instruction has committed. A division
in `EL` that faults records ArithmeticFault in `u2`, where the instruction ahead of it has gone to `WL` uncommitted. INVALID in
`DL` records FetchFault in `u3`, where the two instructions ahead of it are in `WL` and `ML`. No later stage runs, nothing else
changes, and the tick is counted. (`committed` and `turn` are the model's own, log 1 and log 8.) -/
def Obligations.AFaultEndsTheTickWhereItStands : Prop :=
  ∀ s u1 : State, s.terminal = false → Performs .writeback s.wl { s with committed := none } u1 → u1.terminal = false →
    (∀ l i a, u1.ml = some l → l.op = .instr i → accessesMemory i = true → l.addr = some a →
      a.toInt < 0 ∨ (s.cfg.dmemWords : Int) ≤ a.toInt →
      u1.wl = none ∧ (s.wl ≠ none → u1.insnCompleted = s.insnCompleted + 1) ∧
        step s = .next { u1 with fault := some (.memoryFault l.pc a), clock := s.clock + 1, turn := .fetch }) ∧
    (∀ u2, Performs .memory u1.ml u1 u2 → u2.terminal = false →
      (∀ l a b rd rs1 rs2, u2.el = some l → l.op = .instr (.div rd rs1 rs2) → l.v1 = some a → l.v2 = some b →
        b = 0#32 ∨ (a.toInt = -(2 ^ (s.cfg.xlen - 1)) ∧ b = 0xFFFFFFFF#32) →
        (u2.wl.map fun k => (k.pc, k.op)) = (s.ml.map fun k => (k.pc, k.op)) ∧ u2.x = u1.x ∧
          u2.insnCompleted = u1.insnCompleted ∧
          step s = .next { u2 with fault := some (.arithmeticFault l.pc), clock := s.clock + 1, turn := .fetch }) ∧
      (∀ u3 l, Performs .execute u2.el u2 u3 → u3.terminal = false → u3.dl = some l → l.op = .invalid →
        (u3.wl.map fun k => (k.pc, k.op)) = (s.ml.map fun k => (k.pc, k.op)) ∧
          (u3.ml.map fun k => (k.pc, k.op)) = (s.el.map fun k => (k.pc, k.op)) ∧ u3.x = u1.x ∧
          u3.insnCompleted = u1.insnCompleted ∧
          step s = .next { u3 with fault := some (.fetchFault l.pc), clock := s.clock + 1, turn := .fetch }))

/-! ## What only one event can change -/

/-- R21: a tick changes a register only if the instruction in `WL` writes it. -/
def Obligations.OnlyWritebackWritesRegisters : Prop :=
  ∀ (s t : State) (r : Reg), step s = .next t → t.reg r ≠ s.reg r → r ∈ writesOf s.wl

/-- R31, R64: a tick changes a data-memory word only if the instruction in `ML` is a STORE or STOREP whose address names that
word. -/
def Obligations.OnlyStoresInMemoryWriteDataMemory : Prop :=
  ∀ (s t : State) (a : Nat), step s = .next t → t.readMem a ≠ s.readMem a →
    ∃ l i ad, s.ml = some l ∧ l.op = .instr i ∧ i.opClass = .store ∧ l.addr = some ad ∧ 0 ≤ ad.toInt ∧ ad.toInt.toNat = a

/-- R26, R27: a tick leaves the flags as they were, or the instruction in `EL` is of a flag-setting class and exactly one flag
is then true. -/
def Obligations.OnlyFlagSettersChangeTheFlags : Prop :=
  ∀ s t : State, step s = .next t →
    t.flags = s.flags ∨
      ∃ l i, s.el = some l ∧ l.op = .instr i ∧ setsFlags i = true ∧ t.flags.exactlyOne = true

/-- R38, R39, R230: under `FB` no tick writes the predictor, and under `SS` no tick writes a pending value, and no pending flag
that was clear is set. -/
def Obligations.EachPolicyLeavesTheOthersTablesAlone : Prop :=
  ∀ s t : State, step s = .next t →
    (s.cfg.policy = .fb → t.btb = s.btb ∧ t.btbHead = s.btbHead) ∧
    (s.cfg.policy = .ss → t.pendV = s.pendV ∧ ∀ r, s.isPending r = false → t.isPending r = false)

/-- R113, R189, R214, R224: instructions move on one latch a tick and never overtake. In a tick that ends without fault or
halt, what was in `ML` is in `WL`, what was in `EL` is in `ML`, with address and record unchanged, and `EL` holds what was in
`DL` or nothing. -/
def Obligations.InstructionsAdvanceInOrder : Prop :=
  ∀ s t : State, s.terminal = false → step s = .next t → t.terminal = false →
    (t.wl.map fun l => (l.pc, l.op)) = (s.ml.map fun l => (l.pc, l.op)) ∧
    (t.ml.map fun l => (l.pc, l.op)) = (s.el.map fun l => (l.pc, l.op)) ∧
    (t.el = none ∨ (t.el.map fun l => (l.pc, l.op)) = (s.dl.map fun l => (l.pc, l.op)))

/-- R195, R196, R197: with `u2` what Memory of the tick leaves after Writeback left `u1`, and `u` what the instruction in `EL`
leaves when it redirects. The tick ends in `u` with the redirect consumed: the instruction in `DL` is discarded and nothing is
fetched, so that neither has any effect on registers, flags, data memory, hazard tables or the predictor, and the pc is the
redirect's. (`committed` and `turn` are the model's own, log 1 and log 8.) -/
def Obligations.ARedirectCostsOneBubbleAndDiscardsDecode : Prop :=
  ∀ (s u1 u2 u : State) (l : Latch) (i : Instr), s.terminal = false → s.redirectPending = false →
    Performs .writeback s.wl { s with committed := none } u1 → u1.terminal = false → Performs .memory u1.ml u1 u2 →
    u2.terminal = false → u2.el = some l → l.op = .instr i → exec i { u2 with turn := .execute } = .next u →
    u.redirectPending = true → u.fault = none →
    step s = .next { u with redirectPending := false, clock := s.clock + 1, turn := .fetch } ∧
    u.dl = none ∧ u.el = none ∧ u.fl = s.fl ∧ u.flHeld = false ∧ u.fetchEn = true ∧ u.wl = u2.wl ∧ u.x = u2.x ∧
    u.dmem = u2.dmem ∧ u.flags = u2.flags ∧ u.busy = u2.busy ∧
    (∀ r, r ∉ writesAtExecute i → u.isPending r = u2.isPending r ∧ u.pendingValue r = u2.pendingValue r) ∧
    (trainedAs i = none → samePredictor u2 u)

/-! ## Invariants (10_state.md R41, R42, 45_branch_predictor.md R240, 70_reset_and_hazards.md R368) -/

/-- R43: an engine just built meets every invariant below. -/
def Obligations.ResetMeetsEveryInvariant : Prop :=
  ∀ (P : Params) (program : List Instr) (s : State), P.wellFormed = true → s = State.resetWith P program →
    s.memoryInv ∧ ControlInv s ∧ FieldsInv s ∧ HaltInv s ∧ HazardInv s ∧ PredictorInv s ∧ ProgramInv s

/-- R31: every tick keeps data memory in its one form and inside the address space. -/
def Obligations.EveryTickKeepsDataMemoryInForm : Prop :=
  ∀ s t : State, s.memoryInv → step s = .next t → t.memoryInv

/-- R36, R42(d), R42(e): every tick keeps the Fetch and Decode control bits consistent. -/
def Obligations.EveryTickKeepsTheControlBitsConsistent : Prop :=
  ∀ s t : State, ControlInv s → step s = .next t → ControlInv t

/-- R34, R334: every tick keeps each field that a stage will read defined, keeps INVALID out of the later stages, and never
raises InvariantFault. -/
def Obligations.NoTickReadsAFieldWithoutValue : Prop :=
  ∀ s t : State, FieldsInv s → ControlInv s → step s = .next t → s.fault ≠ some .invariantFault →
    FieldsInv t ∧ t.fault ≠ some .invariantFault

/-- R115: every tick keeps the pipeline empty behind a HALT that Decode has received. -/
def Obligations.NothingEverFollowsAHalt : Prop :=
  ∀ s t : State, HaltInv s → step s = .next t → HaltInv t

/-- R42(a), R42(b): every tick keeps the busy bits and the pending table an exact description of the instructions past
Decode, with no register written by two of them. -/
def Obligations.EveryTickKeepsTheHazardTablesExact : Prop :=
  ∀ s t : State, HazardInv s → step s = .next t → HazardInv t

/-- R41(d), R42(c), R240(a), R240(b): every tick keeps the predictor's tags distinct, its counters in range and its head in
the table. -/
def Obligations.EveryTickKeepsThePredictorSound : Prop :=
  ∀ s t : State, PredictorInv s → step s = .next t → PredictorInv t

/-- R240(c), R240(e): every tick keeps each latch equal to what the program holds at its address, and each valid predictor
entry that of a predictor-trained branch of the program, with that branch's target once resolved. -/
def Obligations.EveryTickKeepsLatchesAndPredictorTrueToTheProgram : Prop :=
  ∀ s t : State, ProgramInv s → step s = .next t → ProgramInv t

/-- R169: under `SS`, an instruction with a busy source or destination whose owner is not in `WL` does not pass Decode in this
tick: `EL` receives nothing and the register stays busy. -/
def Obligations.ABusyRegisterHoldsAnInstructionInDecode : Prop :=
  ∀ (s t : State) (l : Latch) (i : Instr) (r : Reg), s.cfg.policy = .ss → s.terminal = false → s.dl = some l →
    l.op = .instr i → (r ∈ sources i ∨ r ∈ writes i) → s.isBusy r = true → r ∉ writesOf s.wl → step s = .next t →
    t.isBusy r = true ∧ (t.el = none ∨ (t.el = s.el ∧ t.terminal = true))

/-- R170, R41(b): an instruction that Decode admits captures, for each source, the value that the youngest instruction past
Decode writing that register will commit, or the committed register if there is none. -/
def Obligations.DecodeCapturesTheValueProgramOrderGives : Prop :=
  ∀ (s t : State) (i : Instr) (l : Latch), HazardInv s → s.turn = .decode → s.el = none → s.dl = some l →
    s.stalls i = false → exec i s = .next t →
    ∃ l', t.el = some l' ∧ (∀ r, operand1 i = some r → l'.v1 = s.valueInOrder r) ∧
      (∀ r, operand2 i = some r → l'.v2 = s.valueInOrder r)
end

