-- ==== Sys2Proof/Laws/State.lean ====
section
/-! SUPPORT. What each update of the state leaves in each field, so that no later proof unfolds a record update. -/

namespace Sys2Proof.Machine

/-! ### `setReg` -/

@[simp] theorem State.setReg_cfg (s : State) (r : Reg) (v : Word) : (s.setReg r v).cfg = s.cfg := rfl
@[simp] theorem State.setReg_imem (s : State) (r : Reg) (v : Word) : (s.setReg r v).imem = s.imem := rfl
@[simp] theorem State.setReg_x (s : State) (r : Reg) (v : Word) : (s.setReg r v).x = s.x.set r.val v := rfl
@[simp] theorem State.setReg_pc (s : State) (r : Reg) (v : Word) : (s.setReg r v).pc = s.pc := rfl
@[simp] theorem State.setReg_flags (s : State) (r : Reg) (v : Word) : (s.setReg r v).flags = s.flags := rfl
@[simp] theorem State.setReg_dmem (s : State) (r : Reg) (v : Word) : (s.setReg r v).dmem = s.dmem := rfl
@[simp] theorem State.setReg_fl (s : State) (r : Reg) (v : Word) : (s.setReg r v).fl = s.fl := rfl
@[simp] theorem State.setReg_flHeld (s : State) (r : Reg) (v : Word) : (s.setReg r v).flHeld = s.flHeld := rfl
@[simp] theorem State.setReg_fetchEn (s : State) (r : Reg) (v : Word) : (s.setReg r v).fetchEn = s.fetchEn := rfl
@[simp] theorem State.setReg_redirectPending (s : State) (r : Reg) (v : Word) : (s.setReg r v).redirectPending = s.redirectPending := rfl
@[simp] theorem State.setReg_dl (s : State) (r : Reg) (v : Word) : (s.setReg r v).dl = s.dl := rfl
@[simp] theorem State.setReg_dlStall (s : State) (r : Reg) (v : Word) : (s.setReg r v).dlStall = s.dlStall := rfl
@[simp] theorem State.setReg_el (s : State) (r : Reg) (v : Word) : (s.setReg r v).el = s.el := rfl
@[simp] theorem State.setReg_ml (s : State) (r : Reg) (v : Word) : (s.setReg r v).ml = s.ml := rfl
@[simp] theorem State.setReg_wl (s : State) (r : Reg) (v : Word) : (s.setReg r v).wl = s.wl := rfl
@[simp] theorem State.setReg_busy (s : State) (r : Reg) (v : Word) : (s.setReg r v).busy = s.busy := rfl
@[simp] theorem State.setReg_pendF (s : State) (r : Reg) (v : Word) : (s.setReg r v).pendF = s.pendF := rfl
@[simp] theorem State.setReg_pendV (s : State) (r : Reg) (v : Word) : (s.setReg r v).pendV = s.pendV := rfl
@[simp] theorem State.setReg_btb (s : State) (r : Reg) (v : Word) : (s.setReg r v).btb = s.btb := rfl
@[simp] theorem State.setReg_btbHead (s : State) (r : Reg) (v : Word) : (s.setReg r v).btbHead = s.btbHead := rfl
@[simp] theorem State.setReg_clock (s : State) (r : Reg) (v : Word) : (s.setReg r v).clock = s.clock := rfl
@[simp] theorem State.setReg_insnCompleted (s : State) (r : Reg) (v : Word) : (s.setReg r v).insnCompleted = s.insnCompleted := rfl
@[simp] theorem State.setReg_halted (s : State) (r : Reg) (v : Word) : (s.setReg r v).halted = s.halted := rfl
@[simp] theorem State.setReg_fault (s : State) (r : Reg) (v : Word) : (s.setReg r v).fault = s.fault := rfl
@[simp] theorem State.setReg_committed (s : State) (r : Reg) (v : Word) : (s.setReg r v).committed = s.committed := rfl
@[simp] theorem State.setReg_turn (s : State) (r : Reg) (v : Word) : (s.setReg r v).turn = s.turn := rfl

/-! ### `writeMem` -/

@[simp] theorem State.writeMem_cfg (s : State) (a : Nat) (v : Word) : (s.writeMem a v).cfg = s.cfg := rfl
@[simp] theorem State.writeMem_imem (s : State) (a : Nat) (v : Word) : (s.writeMem a v).imem = s.imem := rfl
@[simp] theorem State.writeMem_x (s : State) (a : Nat) (v : Word) : (s.writeMem a v).x = s.x := rfl
@[simp] theorem State.writeMem_pc (s : State) (a : Nat) (v : Word) : (s.writeMem a v).pc = s.pc := rfl
@[simp] theorem State.writeMem_flags (s : State) (a : Nat) (v : Word) : (s.writeMem a v).flags = s.flags := rfl
@[simp] theorem State.writeMem_dmem (s : State) (a : Nat) (v : Word) : (s.writeMem a v).dmem = writeCells s.dmem a v := rfl
@[simp] theorem State.writeMem_fl (s : State) (a : Nat) (v : Word) : (s.writeMem a v).fl = s.fl := rfl
@[simp] theorem State.writeMem_flHeld (s : State) (a : Nat) (v : Word) : (s.writeMem a v).flHeld = s.flHeld := rfl
@[simp] theorem State.writeMem_fetchEn (s : State) (a : Nat) (v : Word) : (s.writeMem a v).fetchEn = s.fetchEn := rfl
@[simp] theorem State.writeMem_redirectPending (s : State) (a : Nat) (v : Word) : (s.writeMem a v).redirectPending = s.redirectPending := rfl
@[simp] theorem State.writeMem_dl (s : State) (a : Nat) (v : Word) : (s.writeMem a v).dl = s.dl := rfl
@[simp] theorem State.writeMem_dlStall (s : State) (a : Nat) (v : Word) : (s.writeMem a v).dlStall = s.dlStall := rfl
@[simp] theorem State.writeMem_el (s : State) (a : Nat) (v : Word) : (s.writeMem a v).el = s.el := rfl
@[simp] theorem State.writeMem_ml (s : State) (a : Nat) (v : Word) : (s.writeMem a v).ml = s.ml := rfl
@[simp] theorem State.writeMem_wl (s : State) (a : Nat) (v : Word) : (s.writeMem a v).wl = s.wl := rfl
@[simp] theorem State.writeMem_busy (s : State) (a : Nat) (v : Word) : (s.writeMem a v).busy = s.busy := rfl
@[simp] theorem State.writeMem_pendF (s : State) (a : Nat) (v : Word) : (s.writeMem a v).pendF = s.pendF := rfl
@[simp] theorem State.writeMem_pendV (s : State) (a : Nat) (v : Word) : (s.writeMem a v).pendV = s.pendV := rfl
@[simp] theorem State.writeMem_btb (s : State) (a : Nat) (v : Word) : (s.writeMem a v).btb = s.btb := rfl
@[simp] theorem State.writeMem_btbHead (s : State) (a : Nat) (v : Word) : (s.writeMem a v).btbHead = s.btbHead := rfl
@[simp] theorem State.writeMem_clock (s : State) (a : Nat) (v : Word) : (s.writeMem a v).clock = s.clock := rfl
@[simp] theorem State.writeMem_insnCompleted (s : State) (a : Nat) (v : Word) : (s.writeMem a v).insnCompleted = s.insnCompleted := rfl
@[simp] theorem State.writeMem_halted (s : State) (a : Nat) (v : Word) : (s.writeMem a v).halted = s.halted := rfl
@[simp] theorem State.writeMem_fault (s : State) (a : Nat) (v : Word) : (s.writeMem a v).fault = s.fault := rfl
@[simp] theorem State.writeMem_committed (s : State) (a : Nat) (v : Word) : (s.writeMem a v).committed = s.committed := rfl
@[simp] theorem State.writeMem_turn (s : State) (a : Nat) (v : Word) : (s.writeMem a v).turn = s.turn := rfl

/-! ### `markBusy` -/

@[simp] theorem State.markBusy_cfg (s : State) (r : Reg) : (s.markBusy r).cfg = s.cfg := rfl
@[simp] theorem State.markBusy_imem (s : State) (r : Reg) : (s.markBusy r).imem = s.imem := rfl
@[simp] theorem State.markBusy_x (s : State) (r : Reg) : (s.markBusy r).x = s.x := rfl
@[simp] theorem State.markBusy_pc (s : State) (r : Reg) : (s.markBusy r).pc = s.pc := rfl
@[simp] theorem State.markBusy_flags (s : State) (r : Reg) : (s.markBusy r).flags = s.flags := rfl
@[simp] theorem State.markBusy_dmem (s : State) (r : Reg) : (s.markBusy r).dmem = s.dmem := rfl
@[simp] theorem State.markBusy_fl (s : State) (r : Reg) : (s.markBusy r).fl = s.fl := rfl
@[simp] theorem State.markBusy_flHeld (s : State) (r : Reg) : (s.markBusy r).flHeld = s.flHeld := rfl
@[simp] theorem State.markBusy_fetchEn (s : State) (r : Reg) : (s.markBusy r).fetchEn = s.fetchEn := rfl
@[simp] theorem State.markBusy_redirectPending (s : State) (r : Reg) : (s.markBusy r).redirectPending = s.redirectPending := rfl
@[simp] theorem State.markBusy_dl (s : State) (r : Reg) : (s.markBusy r).dl = s.dl := rfl
@[simp] theorem State.markBusy_dlStall (s : State) (r : Reg) : (s.markBusy r).dlStall = s.dlStall := rfl
@[simp] theorem State.markBusy_el (s : State) (r : Reg) : (s.markBusy r).el = s.el := rfl
@[simp] theorem State.markBusy_ml (s : State) (r : Reg) : (s.markBusy r).ml = s.ml := rfl
@[simp] theorem State.markBusy_wl (s : State) (r : Reg) : (s.markBusy r).wl = s.wl := rfl
@[simp] theorem State.markBusy_busy (s : State) (r : Reg) : (s.markBusy r).busy = s.busy.set r.val true := rfl
@[simp] theorem State.markBusy_pendF (s : State) (r : Reg) : (s.markBusy r).pendF = s.pendF := rfl
@[simp] theorem State.markBusy_pendV (s : State) (r : Reg) : (s.markBusy r).pendV = s.pendV := rfl
@[simp] theorem State.markBusy_btb (s : State) (r : Reg) : (s.markBusy r).btb = s.btb := rfl
@[simp] theorem State.markBusy_btbHead (s : State) (r : Reg) : (s.markBusy r).btbHead = s.btbHead := rfl
@[simp] theorem State.markBusy_clock (s : State) (r : Reg) : (s.markBusy r).clock = s.clock := rfl
@[simp] theorem State.markBusy_insnCompleted (s : State) (r : Reg) : (s.markBusy r).insnCompleted = s.insnCompleted := rfl
@[simp] theorem State.markBusy_halted (s : State) (r : Reg) : (s.markBusy r).halted = s.halted := rfl
@[simp] theorem State.markBusy_fault (s : State) (r : Reg) : (s.markBusy r).fault = s.fault := rfl
@[simp] theorem State.markBusy_committed (s : State) (r : Reg) : (s.markBusy r).committed = s.committed := rfl
@[simp] theorem State.markBusy_turn (s : State) (r : Reg) : (s.markBusy r).turn = s.turn := rfl

/-! ### `release` -/

@[simp] theorem State.release_cfg (s : State) (r : Reg) : (s.release r).cfg = s.cfg := rfl
@[simp] theorem State.release_imem (s : State) (r : Reg) : (s.release r).imem = s.imem := rfl
@[simp] theorem State.release_x (s : State) (r : Reg) : (s.release r).x = s.x := rfl
@[simp] theorem State.release_pc (s : State) (r : Reg) : (s.release r).pc = s.pc := rfl
@[simp] theorem State.release_flags (s : State) (r : Reg) : (s.release r).flags = s.flags := rfl
@[simp] theorem State.release_dmem (s : State) (r : Reg) : (s.release r).dmem = s.dmem := rfl
@[simp] theorem State.release_fl (s : State) (r : Reg) : (s.release r).fl = s.fl := rfl
@[simp] theorem State.release_flHeld (s : State) (r : Reg) : (s.release r).flHeld = s.flHeld := rfl
@[simp] theorem State.release_fetchEn (s : State) (r : Reg) : (s.release r).fetchEn = s.fetchEn := rfl
@[simp] theorem State.release_redirectPending (s : State) (r : Reg) : (s.release r).redirectPending = s.redirectPending := rfl
@[simp] theorem State.release_dl (s : State) (r : Reg) : (s.release r).dl = s.dl := rfl
@[simp] theorem State.release_dlStall (s : State) (r : Reg) : (s.release r).dlStall = s.dlStall := rfl
@[simp] theorem State.release_el (s : State) (r : Reg) : (s.release r).el = s.el := rfl
@[simp] theorem State.release_ml (s : State) (r : Reg) : (s.release r).ml = s.ml := rfl
@[simp] theorem State.release_wl (s : State) (r : Reg) : (s.release r).wl = s.wl := rfl
@[simp] theorem State.release_busy (s : State) (r : Reg) : (s.release r).busy = s.busy.set r.val false := rfl
@[simp] theorem State.release_pendF (s : State) (r : Reg) : (s.release r).pendF = s.pendF.set r.val false := rfl
@[simp] theorem State.release_pendV (s : State) (r : Reg) : (s.release r).pendV = s.pendV := rfl
@[simp] theorem State.release_btb (s : State) (r : Reg) : (s.release r).btb = s.btb := rfl
@[simp] theorem State.release_btbHead (s : State) (r : Reg) : (s.release r).btbHead = s.btbHead := rfl
@[simp] theorem State.release_clock (s : State) (r : Reg) : (s.release r).clock = s.clock := rfl
@[simp] theorem State.release_insnCompleted (s : State) (r : Reg) : (s.release r).insnCompleted = s.insnCompleted := rfl
@[simp] theorem State.release_halted (s : State) (r : Reg) : (s.release r).halted = s.halted := rfl
@[simp] theorem State.release_fault (s : State) (r : Reg) : (s.release r).fault = s.fault := rfl
@[simp] theorem State.release_committed (s : State) (r : Reg) : (s.release r).committed = s.committed := rfl
@[simp] theorem State.release_turn (s : State) (r : Reg) : (s.release r).turn = s.turn := rfl

/-! ### `publish` -/

@[simp] theorem State.publish_cfg (s : State) (r : Reg) (v : Word) : (s.publish r v).cfg = s.cfg := by unfold State.publish; split <;> rfl
@[simp] theorem State.publish_imem (s : State) (r : Reg) (v : Word) : (s.publish r v).imem = s.imem := by unfold State.publish; split <;> rfl
@[simp] theorem State.publish_x (s : State) (r : Reg) (v : Word) : (s.publish r v).x = s.x := by unfold State.publish; split <;> rfl
@[simp] theorem State.publish_pc (s : State) (r : Reg) (v : Word) : (s.publish r v).pc = s.pc := by unfold State.publish; split <;> rfl
@[simp] theorem State.publish_flags (s : State) (r : Reg) (v : Word) : (s.publish r v).flags = s.flags := by unfold State.publish; split <;> rfl
@[simp] theorem State.publish_dmem (s : State) (r : Reg) (v : Word) : (s.publish r v).dmem = s.dmem := by unfold State.publish; split <;> rfl
@[simp] theorem State.publish_fl (s : State) (r : Reg) (v : Word) : (s.publish r v).fl = s.fl := by unfold State.publish; split <;> rfl
@[simp] theorem State.publish_flHeld (s : State) (r : Reg) (v : Word) : (s.publish r v).flHeld = s.flHeld := by unfold State.publish; split <;> rfl
@[simp] theorem State.publish_fetchEn (s : State) (r : Reg) (v : Word) : (s.publish r v).fetchEn = s.fetchEn := by unfold State.publish; split <;> rfl
@[simp] theorem State.publish_redirectPending (s : State) (r : Reg) (v : Word) : (s.publish r v).redirectPending = s.redirectPending := by unfold State.publish; split <;> rfl
@[simp] theorem State.publish_dl (s : State) (r : Reg) (v : Word) : (s.publish r v).dl = s.dl := by unfold State.publish; split <;> rfl
@[simp] theorem State.publish_dlStall (s : State) (r : Reg) (v : Word) : (s.publish r v).dlStall = s.dlStall := by unfold State.publish; split <;> rfl
@[simp] theorem State.publish_el (s : State) (r : Reg) (v : Word) : (s.publish r v).el = s.el := by unfold State.publish; split <;> rfl
@[simp] theorem State.publish_ml (s : State) (r : Reg) (v : Word) : (s.publish r v).ml = s.ml := by unfold State.publish; split <;> rfl
@[simp] theorem State.publish_wl (s : State) (r : Reg) (v : Word) : (s.publish r v).wl = s.wl := by unfold State.publish; split <;> rfl
@[simp] theorem State.publish_busy (s : State) (r : Reg) (v : Word) : (s.publish r v).busy = s.busy := by unfold State.publish; split <;> rfl
@[simp] theorem State.publish_pendF (s : State) (r : Reg) (v : Word) : (s.publish r v).pendF = if s.cfg.policy = .fb then s.pendF.set r.val true else s.pendF := by unfold State.publish; cases h : s.cfg.policy <;> simp
@[simp] theorem State.publish_pendV (s : State) (r : Reg) (v : Word) : (s.publish r v).pendV = if s.cfg.policy = .fb then s.pendV.set r.val v else s.pendV := by unfold State.publish; cases h : s.cfg.policy <;> simp
@[simp] theorem State.publish_btb (s : State) (r : Reg) (v : Word) : (s.publish r v).btb = s.btb := by unfold State.publish; split <;> rfl
@[simp] theorem State.publish_btbHead (s : State) (r : Reg) (v : Word) : (s.publish r v).btbHead = s.btbHead := by unfold State.publish; split <;> rfl
@[simp] theorem State.publish_clock (s : State) (r : Reg) (v : Word) : (s.publish r v).clock = s.clock := by unfold State.publish; split <;> rfl
@[simp] theorem State.publish_insnCompleted (s : State) (r : Reg) (v : Word) : (s.publish r v).insnCompleted = s.insnCompleted := by unfold State.publish; split <;> rfl
@[simp] theorem State.publish_halted (s : State) (r : Reg) (v : Word) : (s.publish r v).halted = s.halted := by unfold State.publish; split <;> rfl
@[simp] theorem State.publish_fault (s : State) (r : Reg) (v : Word) : (s.publish r v).fault = s.fault := by unfold State.publish; split <;> rfl
@[simp] theorem State.publish_committed (s : State) (r : Reg) (v : Word) : (s.publish r v).committed = s.committed := by unfold State.publish; split <;> rfl
@[simp] theorem State.publish_turn (s : State) (r : Reg) (v : Word) : (s.publish r v).turn = s.turn := by unfold State.publish; split <;> rfl

/-! ### `raise` -/

@[simp] theorem State.raise_cfg (s : State) (f : Fault) : (s.raise f).cfg = s.cfg := rfl
@[simp] theorem State.raise_imem (s : State) (f : Fault) : (s.raise f).imem = s.imem := rfl
@[simp] theorem State.raise_x (s : State) (f : Fault) : (s.raise f).x = s.x := rfl
@[simp] theorem State.raise_pc (s : State) (f : Fault) : (s.raise f).pc = s.pc := rfl
@[simp] theorem State.raise_flags (s : State) (f : Fault) : (s.raise f).flags = s.flags := rfl
@[simp] theorem State.raise_dmem (s : State) (f : Fault) : (s.raise f).dmem = s.dmem := rfl
@[simp] theorem State.raise_fl (s : State) (f : Fault) : (s.raise f).fl = s.fl := rfl
@[simp] theorem State.raise_flHeld (s : State) (f : Fault) : (s.raise f).flHeld = s.flHeld := rfl
@[simp] theorem State.raise_fetchEn (s : State) (f : Fault) : (s.raise f).fetchEn = s.fetchEn := rfl
@[simp] theorem State.raise_redirectPending (s : State) (f : Fault) : (s.raise f).redirectPending = s.redirectPending := rfl
@[simp] theorem State.raise_dl (s : State) (f : Fault) : (s.raise f).dl = s.dl := rfl
@[simp] theorem State.raise_dlStall (s : State) (f : Fault) : (s.raise f).dlStall = s.dlStall := rfl
@[simp] theorem State.raise_el (s : State) (f : Fault) : (s.raise f).el = s.el := rfl
@[simp] theorem State.raise_ml (s : State) (f : Fault) : (s.raise f).ml = s.ml := rfl
@[simp] theorem State.raise_wl (s : State) (f : Fault) : (s.raise f).wl = s.wl := rfl
@[simp] theorem State.raise_busy (s : State) (f : Fault) : (s.raise f).busy = s.busy := rfl
@[simp] theorem State.raise_pendF (s : State) (f : Fault) : (s.raise f).pendF = s.pendF := rfl
@[simp] theorem State.raise_pendV (s : State) (f : Fault) : (s.raise f).pendV = s.pendV := rfl
@[simp] theorem State.raise_btb (s : State) (f : Fault) : (s.raise f).btb = s.btb := rfl
@[simp] theorem State.raise_btbHead (s : State) (f : Fault) : (s.raise f).btbHead = s.btbHead := rfl
@[simp] theorem State.raise_clock (s : State) (f : Fault) : (s.raise f).clock = s.clock := rfl
@[simp] theorem State.raise_insnCompleted (s : State) (f : Fault) : (s.raise f).insnCompleted = s.insnCompleted := rfl
@[simp] theorem State.raise_halted (s : State) (f : Fault) : (s.raise f).halted = s.halted := rfl
@[simp] theorem State.raise_fault (s : State) (f : Fault) : (s.raise f).fault = some f := rfl
@[simp] theorem State.raise_committed (s : State) (f : Fault) : (s.raise f).committed = s.committed := rfl
@[simp] theorem State.raise_turn (s : State) (f : Fault) : (s.raise f).turn = s.turn := rfl

/-! ### `setFlags` -/

@[simp] theorem State.setFlags_cfg (s : State) (f : Flags) : (s.setFlags f).cfg = s.cfg := rfl
@[simp] theorem State.setFlags_imem (s : State) (f : Flags) : (s.setFlags f).imem = s.imem := rfl
@[simp] theorem State.setFlags_x (s : State) (f : Flags) : (s.setFlags f).x = s.x := rfl
@[simp] theorem State.setFlags_pc (s : State) (f : Flags) : (s.setFlags f).pc = s.pc := rfl
@[simp] theorem State.setFlags_flags (s : State) (f : Flags) : (s.setFlags f).flags = f := rfl
@[simp] theorem State.setFlags_dmem (s : State) (f : Flags) : (s.setFlags f).dmem = s.dmem := rfl
@[simp] theorem State.setFlags_fl (s : State) (f : Flags) : (s.setFlags f).fl = s.fl := rfl
@[simp] theorem State.setFlags_flHeld (s : State) (f : Flags) : (s.setFlags f).flHeld = s.flHeld := rfl
@[simp] theorem State.setFlags_fetchEn (s : State) (f : Flags) : (s.setFlags f).fetchEn = s.fetchEn := rfl
@[simp] theorem State.setFlags_redirectPending (s : State) (f : Flags) : (s.setFlags f).redirectPending = s.redirectPending := rfl
@[simp] theorem State.setFlags_dl (s : State) (f : Flags) : (s.setFlags f).dl = s.dl := rfl
@[simp] theorem State.setFlags_dlStall (s : State) (f : Flags) : (s.setFlags f).dlStall = s.dlStall := rfl
@[simp] theorem State.setFlags_el (s : State) (f : Flags) : (s.setFlags f).el = s.el := rfl
@[simp] theorem State.setFlags_ml (s : State) (f : Flags) : (s.setFlags f).ml = s.ml := rfl
@[simp] theorem State.setFlags_wl (s : State) (f : Flags) : (s.setFlags f).wl = s.wl := rfl
@[simp] theorem State.setFlags_busy (s : State) (f : Flags) : (s.setFlags f).busy = s.busy := rfl
@[simp] theorem State.setFlags_pendF (s : State) (f : Flags) : (s.setFlags f).pendF = s.pendF := rfl
@[simp] theorem State.setFlags_pendV (s : State) (f : Flags) : (s.setFlags f).pendV = s.pendV := rfl
@[simp] theorem State.setFlags_btb (s : State) (f : Flags) : (s.setFlags f).btb = s.btb := rfl
@[simp] theorem State.setFlags_btbHead (s : State) (f : Flags) : (s.setFlags f).btbHead = s.btbHead := rfl
@[simp] theorem State.setFlags_clock (s : State) (f : Flags) : (s.setFlags f).clock = s.clock := rfl
@[simp] theorem State.setFlags_insnCompleted (s : State) (f : Flags) : (s.setFlags f).insnCompleted = s.insnCompleted := rfl
@[simp] theorem State.setFlags_halted (s : State) (f : Flags) : (s.setFlags f).halted = s.halted := rfl
@[simp] theorem State.setFlags_fault (s : State) (f : Flags) : (s.setFlags f).fault = s.fault := rfl
@[simp] theorem State.setFlags_committed (s : State) (f : Flags) : (s.setFlags f).committed = s.committed := rfl
@[simp] theorem State.setFlags_turn (s : State) (f : Flags) : (s.setFlags f).turn = s.turn := rfl

/-! ### `sendToMemory` -/

@[simp] theorem State.sendToMemory_cfg (s : State) (l : Latch) : (s.sendToMemory l).cfg = s.cfg := rfl
@[simp] theorem State.sendToMemory_imem (s : State) (l : Latch) : (s.sendToMemory l).imem = s.imem := rfl
@[simp] theorem State.sendToMemory_x (s : State) (l : Latch) : (s.sendToMemory l).x = s.x := rfl
@[simp] theorem State.sendToMemory_pc (s : State) (l : Latch) : (s.sendToMemory l).pc = s.pc := rfl
@[simp] theorem State.sendToMemory_flags (s : State) (l : Latch) : (s.sendToMemory l).flags = s.flags := rfl
@[simp] theorem State.sendToMemory_dmem (s : State) (l : Latch) : (s.sendToMemory l).dmem = s.dmem := rfl
@[simp] theorem State.sendToMemory_fl (s : State) (l : Latch) : (s.sendToMemory l).fl = s.fl := rfl
@[simp] theorem State.sendToMemory_flHeld (s : State) (l : Latch) : (s.sendToMemory l).flHeld = s.flHeld := rfl
@[simp] theorem State.sendToMemory_fetchEn (s : State) (l : Latch) : (s.sendToMemory l).fetchEn = s.fetchEn := rfl
@[simp] theorem State.sendToMemory_redirectPending (s : State) (l : Latch) : (s.sendToMemory l).redirectPending = s.redirectPending := rfl
@[simp] theorem State.sendToMemory_dl (s : State) (l : Latch) : (s.sendToMemory l).dl = s.dl := rfl
@[simp] theorem State.sendToMemory_dlStall (s : State) (l : Latch) : (s.sendToMemory l).dlStall = s.dlStall := rfl
@[simp] theorem State.sendToMemory_el (s : State) (l : Latch) : (s.sendToMemory l).el = none := rfl
@[simp] theorem State.sendToMemory_ml (s : State) (l : Latch) : (s.sendToMemory l).ml = some l := rfl
@[simp] theorem State.sendToMemory_wl (s : State) (l : Latch) : (s.sendToMemory l).wl = s.wl := rfl
@[simp] theorem State.sendToMemory_busy (s : State) (l : Latch) : (s.sendToMemory l).busy = s.busy := rfl
@[simp] theorem State.sendToMemory_pendF (s : State) (l : Latch) : (s.sendToMemory l).pendF = s.pendF := rfl
@[simp] theorem State.sendToMemory_pendV (s : State) (l : Latch) : (s.sendToMemory l).pendV = s.pendV := rfl
@[simp] theorem State.sendToMemory_btb (s : State) (l : Latch) : (s.sendToMemory l).btb = s.btb := rfl
@[simp] theorem State.sendToMemory_btbHead (s : State) (l : Latch) : (s.sendToMemory l).btbHead = s.btbHead := rfl
@[simp] theorem State.sendToMemory_clock (s : State) (l : Latch) : (s.sendToMemory l).clock = s.clock := rfl
@[simp] theorem State.sendToMemory_insnCompleted (s : State) (l : Latch) : (s.sendToMemory l).insnCompleted = s.insnCompleted := rfl
@[simp] theorem State.sendToMemory_halted (s : State) (l : Latch) : (s.sendToMemory l).halted = s.halted := rfl
@[simp] theorem State.sendToMemory_fault (s : State) (l : Latch) : (s.sendToMemory l).fault = s.fault := rfl
@[simp] theorem State.sendToMemory_committed (s : State) (l : Latch) : (s.sendToMemory l).committed = s.committed := rfl
@[simp] theorem State.sendToMemory_turn (s : State) (l : Latch) : (s.sendToMemory l).turn = s.turn := rfl

/-! ### `sendToWriteback` -/

@[simp] theorem State.sendToWriteback_cfg (s : State) (l : Latch) : (s.sendToWriteback l).cfg = s.cfg := rfl
@[simp] theorem State.sendToWriteback_imem (s : State) (l : Latch) : (s.sendToWriteback l).imem = s.imem := rfl
@[simp] theorem State.sendToWriteback_x (s : State) (l : Latch) : (s.sendToWriteback l).x = s.x := rfl
@[simp] theorem State.sendToWriteback_pc (s : State) (l : Latch) : (s.sendToWriteback l).pc = s.pc := rfl
@[simp] theorem State.sendToWriteback_flags (s : State) (l : Latch) : (s.sendToWriteback l).flags = s.flags := rfl
@[simp] theorem State.sendToWriteback_dmem (s : State) (l : Latch) : (s.sendToWriteback l).dmem = s.dmem := rfl
@[simp] theorem State.sendToWriteback_fl (s : State) (l : Latch) : (s.sendToWriteback l).fl = s.fl := rfl
@[simp] theorem State.sendToWriteback_flHeld (s : State) (l : Latch) : (s.sendToWriteback l).flHeld = s.flHeld := rfl
@[simp] theorem State.sendToWriteback_fetchEn (s : State) (l : Latch) : (s.sendToWriteback l).fetchEn = s.fetchEn := rfl
@[simp] theorem State.sendToWriteback_redirectPending (s : State) (l : Latch) : (s.sendToWriteback l).redirectPending = s.redirectPending := rfl
@[simp] theorem State.sendToWriteback_dl (s : State) (l : Latch) : (s.sendToWriteback l).dl = s.dl := rfl
@[simp] theorem State.sendToWriteback_dlStall (s : State) (l : Latch) : (s.sendToWriteback l).dlStall = s.dlStall := rfl
@[simp] theorem State.sendToWriteback_el (s : State) (l : Latch) : (s.sendToWriteback l).el = s.el := rfl
@[simp] theorem State.sendToWriteback_ml (s : State) (l : Latch) : (s.sendToWriteback l).ml = none := rfl
@[simp] theorem State.sendToWriteback_wl (s : State) (l : Latch) : (s.sendToWriteback l).wl = some l := rfl
@[simp] theorem State.sendToWriteback_busy (s : State) (l : Latch) : (s.sendToWriteback l).busy = s.busy := rfl
@[simp] theorem State.sendToWriteback_pendF (s : State) (l : Latch) : (s.sendToWriteback l).pendF = s.pendF := rfl
@[simp] theorem State.sendToWriteback_pendV (s : State) (l : Latch) : (s.sendToWriteback l).pendV = s.pendV := rfl
@[simp] theorem State.sendToWriteback_btb (s : State) (l : Latch) : (s.sendToWriteback l).btb = s.btb := rfl
@[simp] theorem State.sendToWriteback_btbHead (s : State) (l : Latch) : (s.sendToWriteback l).btbHead = s.btbHead := rfl
@[simp] theorem State.sendToWriteback_clock (s : State) (l : Latch) : (s.sendToWriteback l).clock = s.clock := rfl
@[simp] theorem State.sendToWriteback_insnCompleted (s : State) (l : Latch) : (s.sendToWriteback l).insnCompleted = s.insnCompleted := rfl
@[simp] theorem State.sendToWriteback_halted (s : State) (l : Latch) : (s.sendToWriteback l).halted = s.halted := rfl
@[simp] theorem State.sendToWriteback_fault (s : State) (l : Latch) : (s.sendToWriteback l).fault = s.fault := rfl
@[simp] theorem State.sendToWriteback_committed (s : State) (l : Latch) : (s.sendToWriteback l).committed = s.committed := rfl
@[simp] theorem State.sendToWriteback_turn (s : State) (l : Latch) : (s.sendToWriteback l).turn = s.turn := rfl

/-! ### `redirect` -/

@[simp] theorem State.redirect_cfg (s : State) (t : Word) : (s.redirect t).cfg = s.cfg := rfl
@[simp] theorem State.redirect_imem (s : State) (t : Word) : (s.redirect t).imem = s.imem := rfl
@[simp] theorem State.redirect_x (s : State) (t : Word) : (s.redirect t).x = s.x := rfl
@[simp] theorem State.redirect_pc (s : State) (t : Word) : (s.redirect t).pc = t := rfl
@[simp] theorem State.redirect_flags (s : State) (t : Word) : (s.redirect t).flags = s.flags := rfl
@[simp] theorem State.redirect_dmem (s : State) (t : Word) : (s.redirect t).dmem = s.dmem := rfl
@[simp] theorem State.redirect_fl (s : State) (t : Word) : (s.redirect t).fl = s.fl := rfl
@[simp] theorem State.redirect_flHeld (s : State) (t : Word) : (s.redirect t).flHeld = false := rfl
@[simp] theorem State.redirect_fetchEn (s : State) (t : Word) : (s.redirect t).fetchEn = true := rfl
@[simp] theorem State.redirect_redirectPending (s : State) (t : Word) : (s.redirect t).redirectPending = true := rfl
@[simp] theorem State.redirect_dl (s : State) (t : Word) : (s.redirect t).dl = none := rfl
@[simp] theorem State.redirect_dlStall (s : State) (t : Word) : (s.redirect t).dlStall = false := rfl
@[simp] theorem State.redirect_el (s : State) (t : Word) : (s.redirect t).el = s.el := rfl
@[simp] theorem State.redirect_ml (s : State) (t : Word) : (s.redirect t).ml = s.ml := rfl
@[simp] theorem State.redirect_wl (s : State) (t : Word) : (s.redirect t).wl = s.wl := rfl
@[simp] theorem State.redirect_busy (s : State) (t : Word) : (s.redirect t).busy = s.busy := rfl
@[simp] theorem State.redirect_pendF (s : State) (t : Word) : (s.redirect t).pendF = s.pendF := rfl
@[simp] theorem State.redirect_pendV (s : State) (t : Word) : (s.redirect t).pendV = s.pendV := rfl
@[simp] theorem State.redirect_btb (s : State) (t : Word) : (s.redirect t).btb = s.btb := rfl
@[simp] theorem State.redirect_btbHead (s : State) (t : Word) : (s.redirect t).btbHead = s.btbHead := rfl
@[simp] theorem State.redirect_clock (s : State) (t : Word) : (s.redirect t).clock = s.clock := rfl
@[simp] theorem State.redirect_insnCompleted (s : State) (t : Word) : (s.redirect t).insnCompleted = s.insnCompleted := rfl
@[simp] theorem State.redirect_halted (s : State) (t : Word) : (s.redirect t).halted = s.halted := rfl
@[simp] theorem State.redirect_fault (s : State) (t : Word) : (s.redirect t).fault = s.fault := rfl
@[simp] theorem State.redirect_committed (s : State) (t : Word) : (s.redirect t).committed = s.committed := rfl
@[simp] theorem State.redirect_turn (s : State) (t : Word) : (s.redirect t).turn = s.turn := rfl

/-! ### `retire` -/

@[simp] theorem State.retire_cfg (s : State) (l : Latch) : (s.retire l).cfg = s.cfg := rfl
@[simp] theorem State.retire_imem (s : State) (l : Latch) : (s.retire l).imem = s.imem := rfl
@[simp] theorem State.retire_x (s : State) (l : Latch) : (s.retire l).x = s.x := rfl
@[simp] theorem State.retire_pc (s : State) (l : Latch) : (s.retire l).pc = s.pc := rfl
@[simp] theorem State.retire_flags (s : State) (l : Latch) : (s.retire l).flags = s.flags := rfl
@[simp] theorem State.retire_dmem (s : State) (l : Latch) : (s.retire l).dmem = s.dmem := rfl
@[simp] theorem State.retire_fl (s : State) (l : Latch) : (s.retire l).fl = s.fl := rfl
@[simp] theorem State.retire_flHeld (s : State) (l : Latch) : (s.retire l).flHeld = s.flHeld := rfl
@[simp] theorem State.retire_fetchEn (s : State) (l : Latch) : (s.retire l).fetchEn = s.fetchEn := rfl
@[simp] theorem State.retire_redirectPending (s : State) (l : Latch) : (s.retire l).redirectPending = s.redirectPending := rfl
@[simp] theorem State.retire_dl (s : State) (l : Latch) : (s.retire l).dl = s.dl := rfl
@[simp] theorem State.retire_dlStall (s : State) (l : Latch) : (s.retire l).dlStall = s.dlStall := rfl
@[simp] theorem State.retire_el (s : State) (l : Latch) : (s.retire l).el = s.el := rfl
@[simp] theorem State.retire_ml (s : State) (l : Latch) : (s.retire l).ml = s.ml := rfl
@[simp] theorem State.retire_wl (s : State) (l : Latch) : (s.retire l).wl = none := rfl
@[simp] theorem State.retire_busy (s : State) (l : Latch) : (s.retire l).busy = s.busy := rfl
@[simp] theorem State.retire_pendF (s : State) (l : Latch) : (s.retire l).pendF = s.pendF := rfl
@[simp] theorem State.retire_pendV (s : State) (l : Latch) : (s.retire l).pendV = s.pendV := rfl
@[simp] theorem State.retire_btb (s : State) (l : Latch) : (s.retire l).btb = s.btb := rfl
@[simp] theorem State.retire_btbHead (s : State) (l : Latch) : (s.retire l).btbHead = s.btbHead := rfl
@[simp] theorem State.retire_clock (s : State) (l : Latch) : (s.retire l).clock = s.clock := rfl
@[simp] theorem State.retire_insnCompleted (s : State) (l : Latch) : (s.retire l).insnCompleted = s.insnCompleted + 1 := rfl
@[simp] theorem State.retire_halted (s : State) (l : Latch) : (s.retire l).halted = s.halted := rfl
@[simp] theorem State.retire_fault (s : State) (l : Latch) : (s.retire l).fault = s.fault := rfl
@[simp] theorem State.retire_committed (s : State) (l : Latch) : (s.retire l).committed = some l.pc := rfl
@[simp] theorem State.retire_turn (s : State) (l : Latch) : (s.retire l).turn = s.turn := rfl

/-! ### `btbAlloc` -/

@[simp] theorem State.btbAlloc_cfg (s : State) (p : Word) : (s.btbAlloc p).cfg = s.cfg := rfl
@[simp] theorem State.btbAlloc_imem (s : State) (p : Word) : (s.btbAlloc p).imem = s.imem := rfl
@[simp] theorem State.btbAlloc_x (s : State) (p : Word) : (s.btbAlloc p).x = s.x := rfl
@[simp] theorem State.btbAlloc_pc (s : State) (p : Word) : (s.btbAlloc p).pc = s.pc := rfl
@[simp] theorem State.btbAlloc_flags (s : State) (p : Word) : (s.btbAlloc p).flags = s.flags := rfl
@[simp] theorem State.btbAlloc_dmem (s : State) (p : Word) : (s.btbAlloc p).dmem = s.dmem := rfl
@[simp] theorem State.btbAlloc_fl (s : State) (p : Word) : (s.btbAlloc p).fl = s.fl := rfl
@[simp] theorem State.btbAlloc_flHeld (s : State) (p : Word) : (s.btbAlloc p).flHeld = s.flHeld := rfl
@[simp] theorem State.btbAlloc_fetchEn (s : State) (p : Word) : (s.btbAlloc p).fetchEn = s.fetchEn := rfl
@[simp] theorem State.btbAlloc_redirectPending (s : State) (p : Word) : (s.btbAlloc p).redirectPending = s.redirectPending := rfl
@[simp] theorem State.btbAlloc_dl (s : State) (p : Word) : (s.btbAlloc p).dl = s.dl := rfl
@[simp] theorem State.btbAlloc_dlStall (s : State) (p : Word) : (s.btbAlloc p).dlStall = s.dlStall := rfl
@[simp] theorem State.btbAlloc_el (s : State) (p : Word) : (s.btbAlloc p).el = s.el := rfl
@[simp] theorem State.btbAlloc_ml (s : State) (p : Word) : (s.btbAlloc p).ml = s.ml := rfl
@[simp] theorem State.btbAlloc_wl (s : State) (p : Word) : (s.btbAlloc p).wl = s.wl := rfl
@[simp] theorem State.btbAlloc_busy (s : State) (p : Word) : (s.btbAlloc p).busy = s.busy := rfl
@[simp] theorem State.btbAlloc_pendF (s : State) (p : Word) : (s.btbAlloc p).pendF = s.pendF := rfl
@[simp] theorem State.btbAlloc_pendV (s : State) (p : Word) : (s.btbAlloc p).pendV = s.pendV := rfl
@[simp] theorem State.btbAlloc_btb (s : State) (p : Word) : (s.btbAlloc p).btb = s.btb.set s.btbHead (BtbEntry.allocated s.cfg p) := rfl
@[simp] theorem State.btbAlloc_btbHead (s : State) (p : Word) : (s.btbAlloc p).btbHead = (s.btbHead + 1) % s.cfg.btbEntries := rfl
@[simp] theorem State.btbAlloc_clock (s : State) (p : Word) : (s.btbAlloc p).clock = s.clock := rfl
@[simp] theorem State.btbAlloc_insnCompleted (s : State) (p : Word) : (s.btbAlloc p).insnCompleted = s.insnCompleted := rfl
@[simp] theorem State.btbAlloc_halted (s : State) (p : Word) : (s.btbAlloc p).halted = s.halted := rfl
@[simp] theorem State.btbAlloc_fault (s : State) (p : Word) : (s.btbAlloc p).fault = s.fault := rfl
@[simp] theorem State.btbAlloc_committed (s : State) (p : Word) : (s.btbAlloc p).committed = s.committed := rfl
@[simp] theorem State.btbAlloc_turn (s : State) (p : Word) : (s.btbAlloc p).turn = s.turn := rfl

/-! ### `setBtb` -/

@[simp] theorem State.setBtb_cfg (s : State) (k : Nat) (e : BtbEntry) : (s.setBtb k e).cfg = s.cfg := rfl
@[simp] theorem State.setBtb_imem (s : State) (k : Nat) (e : BtbEntry) : (s.setBtb k e).imem = s.imem := rfl
@[simp] theorem State.setBtb_x (s : State) (k : Nat) (e : BtbEntry) : (s.setBtb k e).x = s.x := rfl
@[simp] theorem State.setBtb_pc (s : State) (k : Nat) (e : BtbEntry) : (s.setBtb k e).pc = s.pc := rfl
@[simp] theorem State.setBtb_flags (s : State) (k : Nat) (e : BtbEntry) : (s.setBtb k e).flags = s.flags := rfl
@[simp] theorem State.setBtb_dmem (s : State) (k : Nat) (e : BtbEntry) : (s.setBtb k e).dmem = s.dmem := rfl
@[simp] theorem State.setBtb_fl (s : State) (k : Nat) (e : BtbEntry) : (s.setBtb k e).fl = s.fl := rfl
@[simp] theorem State.setBtb_flHeld (s : State) (k : Nat) (e : BtbEntry) : (s.setBtb k e).flHeld = s.flHeld := rfl
@[simp] theorem State.setBtb_fetchEn (s : State) (k : Nat) (e : BtbEntry) : (s.setBtb k e).fetchEn = s.fetchEn := rfl
@[simp] theorem State.setBtb_redirectPending (s : State) (k : Nat) (e : BtbEntry) : (s.setBtb k e).redirectPending = s.redirectPending := rfl
@[simp] theorem State.setBtb_dl (s : State) (k : Nat) (e : BtbEntry) : (s.setBtb k e).dl = s.dl := rfl
@[simp] theorem State.setBtb_dlStall (s : State) (k : Nat) (e : BtbEntry) : (s.setBtb k e).dlStall = s.dlStall := rfl
@[simp] theorem State.setBtb_el (s : State) (k : Nat) (e : BtbEntry) : (s.setBtb k e).el = s.el := rfl
@[simp] theorem State.setBtb_ml (s : State) (k : Nat) (e : BtbEntry) : (s.setBtb k e).ml = s.ml := rfl
@[simp] theorem State.setBtb_wl (s : State) (k : Nat) (e : BtbEntry) : (s.setBtb k e).wl = s.wl := rfl
@[simp] theorem State.setBtb_busy (s : State) (k : Nat) (e : BtbEntry) : (s.setBtb k e).busy = s.busy := rfl
@[simp] theorem State.setBtb_pendF (s : State) (k : Nat) (e : BtbEntry) : (s.setBtb k e).pendF = s.pendF := rfl
@[simp] theorem State.setBtb_pendV (s : State) (k : Nat) (e : BtbEntry) : (s.setBtb k e).pendV = s.pendV := rfl
@[simp] theorem State.setBtb_btb (s : State) (k : Nat) (e : BtbEntry) : (s.setBtb k e).btb = s.btb.set k e := rfl
@[simp] theorem State.setBtb_btbHead (s : State) (k : Nat) (e : BtbEntry) : (s.setBtb k e).btbHead = s.btbHead := rfl
@[simp] theorem State.setBtb_clock (s : State) (k : Nat) (e : BtbEntry) : (s.setBtb k e).clock = s.clock := rfl
@[simp] theorem State.setBtb_insnCompleted (s : State) (k : Nat) (e : BtbEntry) : (s.setBtb k e).insnCompleted = s.insnCompleted := rfl
@[simp] theorem State.setBtb_halted (s : State) (k : Nat) (e : BtbEntry) : (s.setBtb k e).halted = s.halted := rfl
@[simp] theorem State.setBtb_fault (s : State) (k : Nat) (e : BtbEntry) : (s.setBtb k e).fault = s.fault := rfl
@[simp] theorem State.setBtb_committed (s : State) (k : Nat) (e : BtbEntry) : (s.setBtb k e).committed = s.committed := rfl
@[simp] theorem State.setBtb_turn (s : State) (k : Nat) (e : BtbEntry) : (s.setBtb k e).turn = s.turn := rfl

/-! ### `at` -/

@[simp] theorem State.at_cfg (s : State) (stage : Stage) : (s.at stage).cfg = s.cfg := rfl
@[simp] theorem State.at_imem (s : State) (stage : Stage) : (s.at stage).imem = s.imem := rfl
@[simp] theorem State.at_x (s : State) (stage : Stage) : (s.at stage).x = s.x := rfl
@[simp] theorem State.at_pc (s : State) (stage : Stage) : (s.at stage).pc = s.pc := rfl
@[simp] theorem State.at_flags (s : State) (stage : Stage) : (s.at stage).flags = s.flags := rfl
@[simp] theorem State.at_dmem (s : State) (stage : Stage) : (s.at stage).dmem = s.dmem := rfl
@[simp] theorem State.at_fl (s : State) (stage : Stage) : (s.at stage).fl = s.fl := rfl
@[simp] theorem State.at_flHeld (s : State) (stage : Stage) : (s.at stage).flHeld = s.flHeld := rfl
@[simp] theorem State.at_fetchEn (s : State) (stage : Stage) : (s.at stage).fetchEn = s.fetchEn := rfl
@[simp] theorem State.at_redirectPending (s : State) (stage : Stage) : (s.at stage).redirectPending = s.redirectPending := rfl
@[simp] theorem State.at_dl (s : State) (stage : Stage) : (s.at stage).dl = s.dl := rfl
@[simp] theorem State.at_dlStall (s : State) (stage : Stage) : (s.at stage).dlStall = s.dlStall := rfl
@[simp] theorem State.at_el (s : State) (stage : Stage) : (s.at stage).el = s.el := rfl
@[simp] theorem State.at_ml (s : State) (stage : Stage) : (s.at stage).ml = s.ml := rfl
@[simp] theorem State.at_wl (s : State) (stage : Stage) : (s.at stage).wl = s.wl := rfl
@[simp] theorem State.at_busy (s : State) (stage : Stage) : (s.at stage).busy = s.busy := rfl
@[simp] theorem State.at_pendF (s : State) (stage : Stage) : (s.at stage).pendF = s.pendF := rfl
@[simp] theorem State.at_pendV (s : State) (stage : Stage) : (s.at stage).pendV = s.pendV := rfl
@[simp] theorem State.at_btb (s : State) (stage : Stage) : (s.at stage).btb = s.btb := rfl
@[simp] theorem State.at_btbHead (s : State) (stage : Stage) : (s.at stage).btbHead = s.btbHead := rfl
@[simp] theorem State.at_clock (s : State) (stage : Stage) : (s.at stage).clock = s.clock := rfl
@[simp] theorem State.at_insnCompleted (s : State) (stage : Stage) : (s.at stage).insnCompleted = s.insnCompleted := rfl
@[simp] theorem State.at_halted (s : State) (stage : Stage) : (s.at stage).halted = s.halted := rfl
@[simp] theorem State.at_fault (s : State) (stage : Stage) : (s.at stage).fault = s.fault := rfl
@[simp] theorem State.at_committed (s : State) (stage : Stage) : (s.at stage).committed = s.committed := rfl
@[simp] theorem State.at_turn (s : State) (stage : Stage) : (s.at stage).turn = stage := rfl

/-! ### `endTick` -/

@[simp] theorem State.endTick_cfg (s : State) : s.endTick.cfg = s.cfg := rfl
@[simp] theorem State.endTick_imem (s : State) : s.endTick.imem = s.imem := rfl
@[simp] theorem State.endTick_x (s : State) : s.endTick.x = s.x := rfl
@[simp] theorem State.endTick_pc (s : State) : s.endTick.pc = s.pc := rfl
@[simp] theorem State.endTick_flags (s : State) : s.endTick.flags = s.flags := rfl
@[simp] theorem State.endTick_dmem (s : State) : s.endTick.dmem = s.dmem := rfl
@[simp] theorem State.endTick_fl (s : State) : s.endTick.fl = s.fl := rfl
@[simp] theorem State.endTick_flHeld (s : State) : s.endTick.flHeld = s.flHeld := rfl
@[simp] theorem State.endTick_fetchEn (s : State) : s.endTick.fetchEn = s.fetchEn := rfl
@[simp] theorem State.endTick_redirectPending (s : State) : s.endTick.redirectPending = s.redirectPending := rfl
@[simp] theorem State.endTick_dl (s : State) : s.endTick.dl = s.dl := rfl
@[simp] theorem State.endTick_dlStall (s : State) : s.endTick.dlStall = s.dlStall := rfl
@[simp] theorem State.endTick_el (s : State) : s.endTick.el = s.el := rfl
@[simp] theorem State.endTick_ml (s : State) : s.endTick.ml = s.ml := rfl
@[simp] theorem State.endTick_wl (s : State) : s.endTick.wl = s.wl := rfl
@[simp] theorem State.endTick_busy (s : State) : s.endTick.busy = s.busy := rfl
@[simp] theorem State.endTick_pendF (s : State) : s.endTick.pendF = s.pendF := rfl
@[simp] theorem State.endTick_pendV (s : State) : s.endTick.pendV = s.pendV := rfl
@[simp] theorem State.endTick_btb (s : State) : s.endTick.btb = s.btb := rfl
@[simp] theorem State.endTick_btbHead (s : State) : s.endTick.btbHead = s.btbHead := rfl
@[simp] theorem State.endTick_clock (s : State) : s.endTick.clock = s.clock + 1 := rfl
@[simp] theorem State.endTick_insnCompleted (s : State) : s.endTick.insnCompleted = s.insnCompleted := rfl
@[simp] theorem State.endTick_halted (s : State) : s.endTick.halted = s.halted := rfl
@[simp] theorem State.endTick_fault (s : State) : s.endTick.fault = s.fault := rfl
@[simp] theorem State.endTick_committed (s : State) : s.endTick.committed = s.committed := rfl
@[simp] theorem State.endTick_turn (s : State) : s.endTick.turn = .fetch := rfl

/-! ### `markAll`: only `busy` changes -/

@[simp] theorem State.markAll_cfg (s : State) (ws : List Reg) : (s.markAll ws).cfg = s.cfg := by
  induction ws generalizing s with
  | nil => rfl
  | cons w rest ih => exact (ih (s.markBusy w)).trans rfl
@[simp] theorem State.markAll_imem (s : State) (ws : List Reg) : (s.markAll ws).imem = s.imem := by
  induction ws generalizing s with
  | nil => rfl
  | cons w rest ih => exact (ih (s.markBusy w)).trans rfl
@[simp] theorem State.markAll_x (s : State) (ws : List Reg) : (s.markAll ws).x = s.x := by
  induction ws generalizing s with
  | nil => rfl
  | cons w rest ih => exact (ih (s.markBusy w)).trans rfl
@[simp] theorem State.markAll_pc (s : State) (ws : List Reg) : (s.markAll ws).pc = s.pc := by
  induction ws generalizing s with
  | nil => rfl
  | cons w rest ih => exact (ih (s.markBusy w)).trans rfl
@[simp] theorem State.markAll_flags (s : State) (ws : List Reg) : (s.markAll ws).flags = s.flags := by
  induction ws generalizing s with
  | nil => rfl
  | cons w rest ih => exact (ih (s.markBusy w)).trans rfl
@[simp] theorem State.markAll_dmem (s : State) (ws : List Reg) : (s.markAll ws).dmem = s.dmem := by
  induction ws generalizing s with
  | nil => rfl
  | cons w rest ih => exact (ih (s.markBusy w)).trans rfl
@[simp] theorem State.markAll_fl (s : State) (ws : List Reg) : (s.markAll ws).fl = s.fl := by
  induction ws generalizing s with
  | nil => rfl
  | cons w rest ih => exact (ih (s.markBusy w)).trans rfl
@[simp] theorem State.markAll_flHeld (s : State) (ws : List Reg) : (s.markAll ws).flHeld = s.flHeld := by
  induction ws generalizing s with
  | nil => rfl
  | cons w rest ih => exact (ih (s.markBusy w)).trans rfl
@[simp] theorem State.markAll_fetchEn (s : State) (ws : List Reg) : (s.markAll ws).fetchEn = s.fetchEn := by
  induction ws generalizing s with
  | nil => rfl
  | cons w rest ih => exact (ih (s.markBusy w)).trans rfl
@[simp] theorem State.markAll_redirectPending (s : State) (ws : List Reg) : (s.markAll ws).redirectPending = s.redirectPending := by
  induction ws generalizing s with
  | nil => rfl
  | cons w rest ih => exact (ih (s.markBusy w)).trans rfl
@[simp] theorem State.markAll_dl (s : State) (ws : List Reg) : (s.markAll ws).dl = s.dl := by
  induction ws generalizing s with
  | nil => rfl
  | cons w rest ih => exact (ih (s.markBusy w)).trans rfl
@[simp] theorem State.markAll_dlStall (s : State) (ws : List Reg) : (s.markAll ws).dlStall = s.dlStall := by
  induction ws generalizing s with
  | nil => rfl
  | cons w rest ih => exact (ih (s.markBusy w)).trans rfl
@[simp] theorem State.markAll_el (s : State) (ws : List Reg) : (s.markAll ws).el = s.el := by
  induction ws generalizing s with
  | nil => rfl
  | cons w rest ih => exact (ih (s.markBusy w)).trans rfl
@[simp] theorem State.markAll_ml (s : State) (ws : List Reg) : (s.markAll ws).ml = s.ml := by
  induction ws generalizing s with
  | nil => rfl
  | cons w rest ih => exact (ih (s.markBusy w)).trans rfl
@[simp] theorem State.markAll_wl (s : State) (ws : List Reg) : (s.markAll ws).wl = s.wl := by
  induction ws generalizing s with
  | nil => rfl
  | cons w rest ih => exact (ih (s.markBusy w)).trans rfl
@[simp] theorem State.markAll_pendF (s : State) (ws : List Reg) : (s.markAll ws).pendF = s.pendF := by
  induction ws generalizing s with
  | nil => rfl
  | cons w rest ih => exact (ih (s.markBusy w)).trans rfl
@[simp] theorem State.markAll_pendV (s : State) (ws : List Reg) : (s.markAll ws).pendV = s.pendV := by
  induction ws generalizing s with
  | nil => rfl
  | cons w rest ih => exact (ih (s.markBusy w)).trans rfl
@[simp] theorem State.markAll_btb (s : State) (ws : List Reg) : (s.markAll ws).btb = s.btb := by
  induction ws generalizing s with
  | nil => rfl
  | cons w rest ih => exact (ih (s.markBusy w)).trans rfl
@[simp] theorem State.markAll_btbHead (s : State) (ws : List Reg) : (s.markAll ws).btbHead = s.btbHead := by
  induction ws generalizing s with
  | nil => rfl
  | cons w rest ih => exact (ih (s.markBusy w)).trans rfl
@[simp] theorem State.markAll_clock (s : State) (ws : List Reg) : (s.markAll ws).clock = s.clock := by
  induction ws generalizing s with
  | nil => rfl
  | cons w rest ih => exact (ih (s.markBusy w)).trans rfl
@[simp] theorem State.markAll_insnCompleted (s : State) (ws : List Reg) : (s.markAll ws).insnCompleted = s.insnCompleted := by
  induction ws generalizing s with
  | nil => rfl
  | cons w rest ih => exact (ih (s.markBusy w)).trans rfl
@[simp] theorem State.markAll_halted (s : State) (ws : List Reg) : (s.markAll ws).halted = s.halted := by
  induction ws generalizing s with
  | nil => rfl
  | cons w rest ih => exact (ih (s.markBusy w)).trans rfl
@[simp] theorem State.markAll_fault (s : State) (ws : List Reg) : (s.markAll ws).fault = s.fault := by
  induction ws generalizing s with
  | nil => rfl
  | cons w rest ih => exact (ih (s.markBusy w)).trans rfl
@[simp] theorem State.markAll_committed (s : State) (ws : List Reg) : (s.markAll ws).committed = s.committed := by
  induction ws generalizing s with
  | nil => rfl
  | cons w rest ih => exact (ih (s.markBusy w)).trans rfl
@[simp] theorem State.markAll_turn (s : State) (ws : List Reg) : (s.markAll ws).turn = s.turn := by
  induction ws generalizing s with
  | nil => rfl
  | cons w rest ih => exact (ih (s.markBusy w)).trans rfl

end Sys2Proof.Machine
end

