-- ==== Sys2Proof/Laws/Arithmetic.lean ====
section
/-! SUPPORT. The wrap-around arithmetic of 46_insn_alu.md R250 as bit-vector operations, and the flags as signed tests. -/

namespace Sys2Proof.Machine

theorem wrap_toInt (P : Params) (a : Word) : wrap P a.toInt = P.fit a := by rw [wrap, BitVec.ofInt_toInt]

/-- `wrap` is the identity on words for `XLEN = 32` (00_scope.md R10). -/
theorem fit_word {P : Params} (h : P.xlen = 32) (v : Word) : P.fit v = v := by
  unfold Params.fit
  rw [h, BitVec.setWidth_eq, BitVec.signExtend_eq]

/-- The integer that `fit` answers: the balanced residue modulo `2^XLEN` (00_scope.md R10). -/
theorem fit_toInt {P : Params} (h : P.xlen ≤ 32) (v : Word) : (P.fit v).toInt = v.toInt.bmod (2 ^ P.xlen) := by
  unfold Params.fit
  rw [BitVec.toInt_signExtend_of_le h, BitVec.toInt_setWidth, BitVec.toInt_eq_toNat_bmod,
    Int.bmod_bmod_of_dvd (by exact_mod_cast pow_dvd_pow 2 h)]

/-- `wrap(n)` is congruent to `n` modulo `2^XLEN` (00_scope.md R10). -/
theorem wrap_toInt_bmod {P : Params} (h : P.xlen ≤ 32) (n : Int) : (wrap P n).toInt = n.bmod (2 ^ P.xlen) := by
  rw [wrap, fit_toInt h, BitVec.toInt_ofInt, Int.bmod_bmod_of_dvd (by exact_mod_cast pow_dvd_pow 2 h)]

theorem Params.holds_iff (P : Params) (v : Word) :
    P.holds v = true ↔ -(2 : Int) ^ (P.xlen - 1) ≤ v.toInt ∧ v.toInt < 2 ^ (P.xlen - 1) := by simp [Params.holds]

/-- `wrap(n)` is in the `XLEN`-bit range (00_scope.md R10). -/
theorem holds_fit {P : Params} (h1 : 1 ≤ P.xlen) (h : P.xlen ≤ 32) (v : Word) : P.holds (P.fit v) = true := by
  rw [Params.holds_iff, fit_toInt h]
  obtain ⟨k, hk⟩ : ∃ k, P.xlen = k + 1 := ⟨P.xlen - 1, by omega⟩
  have hp : (0 : Int) < 2 ^ k := by positivity
  have hl := Int.le_bmod (x := v.toInt) (m := 2 ^ P.xlen) (by positivity)
  have hu := Int.bmod_lt (x := v.toInt) (m := 2 ^ P.xlen) (by positivity)
  have he : ((2 ^ P.xlen : Nat) : Int) = 2 * 2 ^ k := by rw [hk, pow_succ]; push_cast; ring
  rw [show P.xlen - 1 = k by omega]
  generalize v.toInt.bmod (2 ^ P.xlen) = d at *
  generalize (2 : Int) ^ k = c at *
  constructor <;> omega

/-- An `XLEN`-bit value is its own `fit`. -/
theorem fit_of_holds {P : Params} (h1 : 1 ≤ P.xlen) (h : P.xlen ≤ 32) {v : Word} (hv : P.holds v = true) : P.fit v = v := by
  rw [Params.holds_iff] at hv
  apply BitVec.eq_of_toInt_eq
  rw [fit_toInt h]
  obtain ⟨k, hk⟩ : ∃ k, P.xlen = k + 1 := ⟨P.xlen - 1, by omega⟩
  rw [hk] at hv ⊢
  simp only [Nat.add_sub_cancel] at hv
  apply Int.bmod_eq_of_le <;> push_cast [pow_succ] <;> omega

theorem addWords_eq (P : Params) (a b : Word) : addWords P a b = P.fit (a + b) := by
  simp [addWords, wrap, BitVec.ofInt_add]

theorem subWords_eq (P : Params) (a b : Word) : subWords P a b = P.fit (a - b) := by
  rw [subWords, wrap]
  congr 1
  apply BitVec.eq_of_toInt_eq
  simp [BitVec.toInt_ofInt, BitVec.toInt_sub]

theorem mulWords_eq (P : Params) (a b : Word) : mulWords P a b = P.fit (a * b) := by
  simp [mulWords, wrap, BitVec.ofInt_mul]

theorem divWords_eq (P : Params) (a b : Word) : divWords P a b = P.fit (a.sdiv b) := by
  rw [divWords, wrap]
  congr 1
  apply BitVec.eq_of_toInt_eq
  simp [BitVec.toInt_ofInt, BitVec.toInt_sdiv]

theorem nextAddress_eq (P : Params) (pc : Word) : nextAddress P pc = P.fit (pc + P.strideWord) := by
  simp [nextAddress, wrap, BitVec.ofInt_add, Params.strideWord]

theorem postIncrement_eq (P : Params) (base : Word) : postIncrement P base = P.fit (base + P.incrementWord) := by
  simp [postIncrement, wrap, BitVec.ofInt_add, Params.incrementWord]

theorem effectiveAddress_eq (P : Params) (base imm : Word) : effectiveAddress P base imm = P.fit (base + imm) :=
  addWords_eq P base imm

theorem branchTarget_eq (P : Params) (pc imm : Word) : branchTarget P pc imm = P.fit (pc + imm) := addWords_eq P pc imm

theorem jumpTarget_eq (P : Params) (v1 imm : Word) : jumpTarget P v1 imm = P.fit (v1 + imm) := addWords_eq P v1 imm

/-- The divisions that fault are those by 0 and `INT_MIN / -1`. -/
theorem divFaults_iff (P : Params) (a b : Word) :
    divFaults P a b = true ↔ b = 0#32 ∨ (a.toInt = -(2 ^ (P.xlen - 1)) ∧ b = 0xFFFFFFFF#32) := by
  have h0 : b.toInt = 0 ↔ b = 0#32 := by rw [← BitVec.toInt_inj]; simp
  have h1 : b.toInt = -1 ↔ b = 0xFFFFFFFF#32 := by rw [← BitVec.toInt_inj]; simp
  simp only [divFaults, Bool.or_eq_true, Bool.and_eq_true, decide_eq_true_eq, h0, h1]
  rfl

/-- The quotient rounded toward zero by signs and magnitudes (46_insn_alu.md R254). -/
theorem tdiv_eq_sign (x y : Int) : x.tdiv y = x.sign * y.sign * (x.natAbs / y.natAbs : Nat) := by
  obtain ⟨n, rfl | rfl⟩ := Int.eq_nat_or_neg x <;> obtain ⟨m, rfl | rfl⟩ := Int.eq_nat_or_neg y <;>
    rcases Nat.eq_zero_or_pos n with rfl | hn <;> rcases Nat.eq_zero_or_pos m with rfl | hm <;>
    simp_all [Int.sign_eq_one_of_pos, Int.neg_tdiv, Int.tdiv_neg]

/-- A division of an `XLEN`-bit value that does not fault has its exact quotient (46_insn_alu.md R254, R263). -/
theorem divWords_toInt {P : Params} (h1 : 1 ≤ P.xlen) (h2 : P.xlen ≤ 32) {a b : Word} (ha : P.holds a = true)
    (hf : divFaults P a b = false) : (divWords P a b).toInt = a.toInt.tdiv b.toInt := by
  rw [divWords, wrap_toInt_bmod h2]
  rw [Params.holds_iff] at ha
  simp only [divFaults, Bool.or_eq_false_iff, Bool.and_eq_false_iff, decide_eq_false_iff_not] at hf
  have hm : P.intMin = -(2 ^ (P.xlen - 1)) := rfl
  obtain ⟨k, hk⟩ : ∃ k, P.xlen = k + 1 := ⟨P.xlen - 1, by omega⟩
  have he : ((2 ^ P.xlen : Nat) : Int) = 2 * 2 ^ k := by rw [hk, pow_succ]; push_cast; ring
  rw [show P.xlen - 1 = k by omega] at hm ha
  rw [hm] at hf
  generalize a.toInt = x at *
  generalize b.toInt = y at *
  have hle : (x.tdiv y).natAbs ≤ x.natAbs := by rw [Int.natAbs_tdiv]; exact Nat.div_le_self _ _
  have hlt : x.tdiv y < 2 ^ k := by
    by_contra c
    have hx : x = -2 ^ k := by omega
    have hp : (0 : Int) < 2 ^ k := by positivity
    have hq : x.natAbs / y.natAbs = x.natAbs := by
      have := Int.natAbs_tdiv x y
      rw [← show x.natAbs.div y.natAbs = x.natAbs / y.natAbs from rfl, ← this]; omega
    have hy : y.natAbs = 1 := by
      by_contra hne
      have := Nat.div_lt_self (show 0 < x.natAbs by omega) (show 1 < y.natAbs by omega)
      omega
    have hy1 : y = 1 := by
      rcases Int.natAbs_eq y with h | h <;> rw [hy] at h
      · simpa using h
      · rcases hf.2 with n | n
        · exact absurd hx n
        · exact absurd (by simpa using h) n
    rw [hy1, Int.tdiv_one] at c
    omega
  apply Int.bmod_eq_of_le <;> generalize (2 : Int) ^ k = c at * <;> omega

/-- Exactly one flag is true after `flags <- sign(v)` (10_state.md R26). -/
theorem signFlags_cases (v : Word) :
    (v.toInt = 0 ∧ signFlags v = ⟨true, false, false⟩) ∨ (0 < v.toInt ∧ signFlags v = ⟨false, true, false⟩) ∨
      (v.toInt < 0 ∧ signFlags v = ⟨false, false, true⟩) := by
  rcases lt_trichotomy v.toInt 0 with h | h | h
  · refine .inr (.inr ⟨h, ?_⟩)
    simp [signFlags, h, h.ne, h.le]
  · exact .inl ⟨h, by simp [signFlags, h]⟩
  · refine .inr (.inl ⟨h, ?_⟩)
    simp [signFlags, h, h.ne', h.le]

/-- Exactly one flag is true after a comparison (43_execute_redirect.md R182). -/
theorem compareFlags_cases (a b : Word) :
    (a.toInt = b.toInt ∧ compareFlags a b = ⟨true, false, false⟩) ∨
      (b.toInt < a.toInt ∧ compareFlags a b = ⟨false, true, false⟩) ∨
      (a.toInt < b.toInt ∧ compareFlags a b = ⟨false, false, true⟩) := by
  rcases lt_trichotomy a.toInt b.toInt with h | h | h
  · refine .inr (.inr ⟨h, ?_⟩)
    simp [compareFlags, h, h.ne, h.le]
  · exact .inl ⟨h, by simp [compareFlags, h]⟩
  · refine .inr (.inl ⟨h, ?_⟩)
    simp [compareFlags, h, h.ne', h.le]

end Sys2Proof.Machine
end

