-- ==== Sys2Proof/Laws/Step.lean ====
section
/-! SUPPORT. `exec`, the stage procedures and the step always answer a next state; what that state is, as plain functions on
states that later proofs compose. -/

namespace Sys2Proof.Machine

/-! ## The five actions of an instruction -/

/-- What an instruction does at Fetch. -/
def fetchAction (i : Instr) : State → State :=
  match i with
  | .bz imm => fetchPredicted (.bz imm) .bz
  | .bnz imm => fetchPredicted (.bnz imm) .bnz
  | .bp imm => fetchPredicted (.bp imm) .bp
  | .bnp imm => fetchPredicted (.bnp imm) .bnp
  | .halt => fetchHalting .halt
  | i => fetchSequential i

/-- What an instruction does at Decode. -/
def decodeAction (i : Instr) : State → State :=
  match i with
  | .bz imm => decodeTrained (.bz imm)
  | .bnz imm => decodeTrained (.bnz imm)
  | .bp imm => decodeTrained (.bp imm)
  | .bnp imm => decodeTrained (.bnp imm)
  | i => decodeStage i

/-- What an instruction does at Execute. -/
def executeAction (i : Instr) : State → State :=
  match i with
  | .add rd _ _ => computeRR rd addWords
  | .sub rd _ _ => computeRR rd subWords
  | .mul rd _ _ => computeRR rd mulWords
  | .div rd _ _ => computeDiv rd
  | .and rd _ _ => computeRR rd andWords
  | .or rd _ _ => computeRR rd orWords
  | .xor rd _ _ => computeRR rd xorWords
  | .addl rd _ imm => computeRI rd imm addWords
  | .subl rd _ imm => computeRI rd imm subWords
  | .movc rd imm => moveConstant rd imm
  | .cmp _ _ => compareRR
  | .cml _ imm => compareRI imm
  | .load _ _ imm => addressOfLoad imm
  | .loadp _ rs1 imm => addressOfLoadP rs1 imm
  | .store _ _ imm => addressOfStore imm
  | .storep _ rs2 imm => addressOfStoreP rs2 imm
  | .bz imm => branchTrained .bz condBZ imm
  | .bnz imm => branchTrained .bnz condBNZ imm
  | .bp imm => branchTrained .bp condBP imm
  | .bnp imm => branchTrained .bnp condBNP imm
  | .bn imm => branchStatic condBN imm
  | .bnn imm => branchStatic condBNN imm
  | .jump _ imm => jumpTo imm
  | .jalr rd _ imm => jumpAndLink rd imm
  | .nop | .halt => passExecute

/-- What an instruction does at Memory. -/
def memoryAction (i : Instr) : State → State :=
  match i with
  | .load .. | .loadp .. => loadWord
  | .store .. | .storep .. => storeWord
  | _ => passMemory

/-- What an instruction does at Writeback. -/
def writebackAction (i : Instr) : State → State :=
  match i with
  | .add rd _ _ | .sub rd _ _ | .mul rd _ _ | .div rd _ _ | .and rd _ _ | .or rd _ _ | .xor rd _ _ => commitResult rd
  | .addl rd _ _ | .subl rd _ _ | .movc rd _ | .jalr rd _ _ | .load rd _ _ => commitResult rd
  | .loadp rd rs1 _ => commitLoadP rd rs1
  | .storep _ rs2 _ => commitBase rs2
  | .halt => commitHalt
  | .store .. | .cmp .. | .cml .. | .bz .. | .bnz .. | .bp .. | .bnp .. | .bn .. | .bnn .. | .jump .. | .nop => commitNothing

/-- The state after an instruction's action in the stage whose procedure runs. -/
def actOn (i : Instr) (s : State) : State :=
  s.onTurn (fetchAction i) (decodeAction i) (executeAction i) (memoryAction i) (writebackAction i)

/-- Every instruction answers a next state, in every state. -/
theorem exec_eq (i : Instr) (s : State) : exec i s = .next (actOn i s) := by
  cases i <;> rfl

theorem actOn_fetch (i : Instr) (s : State) : actOn i (s.at .fetch) = fetchAction i (s.at .fetch) := rfl
theorem actOn_decode (i : Instr) (s : State) : actOn i (s.at .decode) = decodeAction i (s.at .decode) := rfl
theorem actOn_execute (i : Instr) (s : State) : actOn i (s.at .execute) = executeAction i (s.at .execute) := rfl
theorem actOn_memory (i : Instr) (s : State) : actOn i (s.at .memory) = memoryAction i (s.at .memory) := rfl
theorem actOn_writeback (i : Instr) (s : State) : actOn i (s.at .writeback) = writebackAction i (s.at .writeback) := rfl

/-- In the turn of a stage, an instruction's meaning is its action there. -/
theorem exec_fetch (i : Instr) {s : State} (h : s.turn = .fetch) : exec i s = .next (fetchAction i s) := by
  simp only [exec_eq, actOn, State.onTurn, h]

theorem exec_decode (i : Instr) {s : State} (h : s.turn = .decode) : exec i s = .next (decodeAction i s) := by
  simp only [exec_eq, actOn, State.onTurn, h]

theorem exec_execute (i : Instr) {s : State} (h : s.turn = .execute) : exec i s = .next (executeAction i s) := by
  simp only [exec_eq, actOn, State.onTurn, h]

theorem exec_memory (i : Instr) {s : State} (h : s.turn = .memory) : exec i s = .next (memoryAction i s) := by
  simp only [exec_eq, actOn, State.onTurn, h]

theorem exec_writeback (i : Instr) {s : State} (h : s.turn = .writeback) : exec i s = .next (writebackAction i s) := by
  simp only [exec_eq, actOn, State.onTurn, h]

/-! ## The stage procedures -/

/-- The state after `Writeback()`. -/
def writebackState (s : State) : State :=
  match s.wl with
  | none => s
  | some l =>
    match l.op with
    | .instr i => writebackAction i (s.at .writeback)
    | .invalid => (s.at .writeback).raise .invariantFault

/-- The state after `Memory()`. -/
def memoryState (s : State) : State :=
  match s.ml with
  | none => s
  | some l =>
    match l.op with
    | .instr i => memoryAction i (s.at .memory)
    | .invalid => (s.at .memory).raise .invariantFault

/-- The state after `Execute()`. -/
def executeState (s : State) : State :=
  match s.el with
  | none => s
  | some l =>
    match l.op with
    | .instr i => executeAction i (s.at .execute)
    | .invalid => (s.at .execute).raise .invariantFault

/-- The state after `Decode()`. -/
def decodeState (s : State) : State :=
  match s.dl with
  | none => s
  | some l =>
    match l.op with
    | .instr i => decodeAction i (s.at .decode)
    | .invalid => s.raise (.fetchFault l.pc)

/-- The state after a record or INVALID at Fetch. -/
def fetchOpState (op : Fetched) (s : State) : State :=
  match op with
  | .instr i => fetchAction i (s.at .fetch)
  | .invalid => fetchWith .invalid false sequentialPc (s.at .fetch)

/-- The state after `Fetch()`. -/
def fetchState (s : State) : State :=
  if s.redirectPending then { s with redirectPending := false }
  else if s.flHeld then
    match s.fl with
    | some l => fetchOpState l.op s
    | none => s.raise .invariantFault
  else if s.fetchEn then fetchOpState (s.ifetch s.pc) s
  else s

theorem writebackState_none {s : State} (h : s.wl = none) : writebackState s = s := by simp only [writebackState, h]
theorem memoryState_none {s : State} (h : s.ml = none) : memoryState s = s := by simp only [memoryState, h]
theorem executeState_none {s : State} (h : s.el = none) : executeState s = s := by simp only [executeState, h]
theorem decodeState_none {s : State} (h : s.dl = none) : decodeState s = s := by simp only [decodeState, h]

theorem writebackState_instr {s : State} {l : Latch} {i : Instr} (h : s.wl = some l) (ho : l.op = .instr i) :
    writebackState s = writebackAction i (s.at .writeback) := by simp only [writebackState, h, ho]
theorem memoryState_instr {s : State} {l : Latch} {i : Instr} (h : s.ml = some l) (ho : l.op = .instr i) :
    memoryState s = memoryAction i (s.at .memory) := by simp only [memoryState, h, ho]
theorem executeState_instr {s : State} {l : Latch} {i : Instr} (h : s.el = some l) (ho : l.op = .instr i) :
    executeState s = executeAction i (s.at .execute) := by simp only [executeState, h, ho]
theorem decodeState_instr {s : State} {l : Latch} {i : Instr} (h : s.dl = some l) (ho : l.op = .instr i) :
    decodeState s = decodeAction i (s.at .decode) := by simp only [decodeState, h, ho]
theorem decodeState_invalid {s : State} {l : Latch} (h : s.dl = some l) (ho : l.op = .invalid) :
    decodeState s = s.raise (.fetchFault l.pc) := by simp only [decodeState, h, ho]

theorem runWriteback_eq (s : State) : runWriteback s = .next (writebackState s) := by
  unfold runWriteback writebackState runLatch
  cases s.wl with
  | none => rfl
  | some l => cases h : l.op <;> simp [h, exec_eq, actOn_writeback]

theorem runMemory_eq (s : State) : runMemory s = .next (memoryState s) := by
  unfold runMemory memoryState runLatch
  cases s.ml with
  | none => rfl
  | some l => cases h : l.op <;> simp [h, exec_eq, actOn_memory]

theorem runExecute_eq (s : State) : runExecute s = .next (executeState s) := by
  unfold runExecute executeState runLatch
  cases s.el with
  | none => rfl
  | some l => cases h : l.op <;> simp [h, exec_eq, actOn_execute]

theorem runDecode_eq (s : State) : runDecode s = .next (decodeState s) := by
  unfold runDecode decodeState
  cases s.dl with
  | none => rfl
  | some l => cases h : l.op <;> simp [h, exec_eq, actOn_decode]

theorem fetchOp_eq (op : Fetched) (s : State) : fetchOp op s = .next (fetchOpState op s) := by
  cases op <;> simp [fetchOp, fetchOpState, exec_eq, actOn_fetch]

theorem runFetch_eq (s : State) : runFetch s = .next (fetchState s) := by
  unfold runFetch fetchState
  split
  · rfl
  · split
    · cases s.fl <;> simp [fetchOp_eq]
    · split <;> simp [fetchOp_eq]

/-! ## One tick -/

/-- The next stage on a tick that has not ended. -/
def live (f : State → State) (s : State) : State := if s.terminal then s else f s

/-- The state after one tick. -/
def tickState (s : State) : State :=
  if s.terminal then { s with committed := none }
  else
    (live fetchState (live decodeState (live executeState (live memoryState
      (writebackState { s with committed := none }))))).endTick

theorem live_running {s : State} (f : State → State) (h : s.terminal = false) : live f s = f s := by simp [live, h]

theorem live_ended {s : State} (f : State → State) (h : s.terminal = true) : live f s = s := by simp [live, h]

theorem tickState_running {s : State} (h : s.terminal = false) :
    tickState s = (live fetchState (live decodeState (live executeState (live memoryState
      (writebackState { s with committed := none }))))).endTick := by simp [tickState, h]

theorem tickState_ended {s : State} (h : s.terminal = true) : tickState s = { s with committed := none } := by
  simp [tickState, h]

theorem proceed_next (s : State) (f : State → Result State) (g : State → State) (h : ∀ u, f u = .next (g u)) :
    proceed (.next s) f = .next (live g s) := by
  simp only [proceed, live, h]
  split <;> rfl

/-- The step always answers a next state: the five stages in reverse pipeline order (40_scheduler.md R111). -/
theorem step_eq (s : State) : step s = .next (tickState s) := by
  unfold step advanceCycle tickState runStages
  split
  · rfl
  · rw [runWriteback_eq, proceed_next _ _ _ runMemory_eq, proceed_next _ _ _ runExecute_eq,
      proceed_next _ _ _ runDecode_eq, proceed_next _ _ _ runFetch_eq]

theorem step_next {s t : State} (h : step s = .next t) : t = tickState s := by
  rw [step_eq] at h
  cases h
  rfl

/-- A property that every stage keeps and that the beginning and the end of a tick keep is kept by the step. -/
theorem step_keeps {P Q : State → Prop} {s t : State} (h : step s = .next t)
    (ended : s.terminal = true → Q { s with committed := none })
    (start : s.terminal = false → P { s with committed := none })
    (writeback : ∀ u, P u → P (writebackState u)) (memory : ∀ u, P u → P (memoryState u))
    (execute : ∀ u, P u → P (executeState u)) (decode : ∀ u, P u → P (decodeState u))
    (fetch : ∀ u, P u → P (fetchState u)) (finish : ∀ u, P u → Q u.endTick) : Q t := by
  have keep (f : State → State) (hf : ∀ u, P u → P (f u)) (u : State) (hu : P u) : P (live f u) := by
    unfold live
    split
    · exact hu
    · exact hf u hu
  rw [step_next h]
  unfold tickState
  split
  · exact ended ‹_›
  · rename_i hs
    have hs' : s.terminal = false := by simpa using hs
    exact finish _ (keep _ fetch _ (keep _ decode _ (keep _ execute _ (keep _ memory _ (writeback _ (start hs'))))))

/-- The same with a property of its own after each stage: a tick ends after the first stage that leaves it terminal, or after
Fetch. -/
theorem step_stages {Q P0 P1 P2 P3 P4 P5 : State → Prop} {s t : State} (h : step s = .next t)
    (ended : s.terminal = true → Q { s with committed := none })
    (start : s.terminal = false → P0 { s with committed := none })
    (writeback : ∀ u, P0 u → P1 (writebackState u))
    (memory : ∀ u, P1 u → u.terminal = false → P2 (memoryState u))
    (execute : ∀ u, P2 u → u.terminal = false → P3 (executeState u))
    (decode : ∀ u, P3 u → u.terminal = false → P4 (decodeState u))
    (fetch : ∀ u, P4 u → u.terminal = false → P5 (fetchState u))
    (stop1 : ∀ u, P1 u → u.terminal = true → Q u.endTick) (stop2 : ∀ u, P2 u → u.terminal = true → Q u.endTick)
    (stop3 : ∀ u, P3 u → u.terminal = true → Q u.endTick) (stop4 : ∀ u, P4 u → u.terminal = true → Q u.endTick)
    (finish : ∀ u, P5 u → Q u.endTick) : Q t := by
  rw [step_next h]
  cases ht : s.terminal with
  | true => rw [tickState_ended ht]; exact ended ht
  | false =>
    rw [tickState_running ht]
    have p1 := writeback _ (start ht)
    generalize writebackState { s with committed := none } = u1 at *
    cases t1 : u1.terminal with
    | true =>
      rw [live_ended memoryState t1, live_ended executeState t1, live_ended decodeState t1, live_ended fetchState t1]
      exact stop1 _ p1 t1
    | false =>
      rw [live_running memoryState t1]
      have p2 := memory _ p1 t1
      generalize memoryState u1 = u2 at *
      cases t2 : u2.terminal with
      | true =>
        rw [live_ended executeState t2, live_ended decodeState t2, live_ended fetchState t2]
        exact stop2 _ p2 t2
      | false =>
        rw [live_running executeState t2]
        have p3 := execute _ p2 t2
        generalize executeState u2 = u3 at *
        cases t3 : u3.terminal with
        | true =>
          rw [live_ended decodeState t3, live_ended fetchState t3]
          exact stop3 _ p3 t3
        | false =>
          rw [live_running decodeState t3]
          have p4 := decode _ p3 t3
          generalize decodeState u3 = u4 at *
          cases t4 : u4.terminal with
          | true =>
            rw [live_ended fetchState t4]
            exact stop4 _ p4 t4
          | false => rw [live_running fetchState t4]; exact finish _ (fetch _ p4 t4)

end Sys2Proof.Machine
end

