-- ==== Sys2Proof/Laws/Claims.lean ====
section
/-! SUPPORT. The words of Safety.lean in terms of the operations: flags, published values, write sets, runs. -/

namespace Sys2Proof.Machine

/-- `sign(v)` by the sign bit (10_state.md R27). -/
theorem flagsOfResult_eq (r : Word) : signFlags r = flagsOfResult r := by
  have hz : r.toInt = 0 ↔ r = 0#32 := by rw [← BitVec.toInt_inj]; simp
  unfold flagsOfResult
  rcases signFlags_cases r with ⟨h, e⟩ | ⟨h, e⟩ | ⟨h, e⟩
  · rw [if_pos (hz.mp h), e]
  · have hm : r.msb = false := by rw [BitVec.msb_eq_toInt]; simp; omega
    rw [if_neg (fun c => by have := hz.mpr c; omega), hm, e]; rfl
  · have hm : r.msb = true := by rw [BitVec.msb_eq_toInt]; simp; omega
    rw [if_neg (fun c => by have := hz.mpr c; omega), hm, e]; rfl

/-- The direct comparison as a signed order on words (43_execute_redirect.md R182). -/
theorem flagsOfCompare_eq (a b : Word) : compareFlags a b = flagsOfCompare a b := by
  unfold flagsOfCompare
  rcases compareFlags_cases a b with ⟨h, e⟩ | ⟨h, e⟩ | ⟨h, e⟩
  · rw [if_pos (BitVec.toInt_inj.mp h), e]
  · have hm : a.slt b = false := by rw [BitVec.slt_eq_decide]; simp; omega
    rw [if_neg (fun c => by subst c; omega), hm, e]; rfl
  · have hm : a.slt b = true := by rw [BitVec.slt_eq_decide]; simp; omega
    rw [if_neg (fun c => by subst c; omega), hm, e]; rfl

/-- What `finishResult` leaves, in the terms of the statements (43_execute_redirect.md R181, R188, R189). -/
theorem finishResult_eq (s : State) (l : Latch) (rd : Reg) (r : Word) : s.finishResult l rd r = { s with
    flags := flagsOfResult r
    pendF := s.pendFWith rd
    pendV := s.pendVWith rd r
    ml := some { l with res := some r }
    el := none } := by
  unfold State.finishResult State.sendToMemory State.publish State.setFlags State.pendFWith State.pendVWith
  rw [flagsOfResult_eq]
  cases h : s.cfg.policy <;> simp

/-- What `publish` leaves (43_execute_redirect.md R188). -/
theorem publish_eq (s : State) (rd : Reg) (r : Word) :
    s.publish rd r = { s with pendF := s.pendFWith rd, pendV := s.pendVWith rd r } := by
  unfold State.publish State.pendFWith State.pendVWith
  cases h : s.cfg.policy <;> simp

/-- A register that an instruction publishes at Execute is one that it writes (42_decode_hazard.md R151). -/
theorem publishes_writes {o : Option Latch} {r : Reg} (h : r ∈ publishesOf o) : r ∈ writesOf o := by
  cases o with
  | none => exact h
  | some l =>
    unfold publishesOf at h
    unfold writesOf
    cases ho : l.op with
    | invalid => simp [ho] at h
    | instr i =>
      simp only [ho] at h ⊢
      simp [writes, h]

theorem writesOf_instr {l : Latch} {i : Instr} (h : l.op = .instr i) : writesOf (some l) = writes i := by
  simp [writesOf, h]

theorem publishesOf_instr {l : Latch} {i : Instr} (h : l.op = .instr i) : publishesOf (some l) = writesAtExecute i := by
  simp [publishesOf, h]

/-- What `Performs` relates is what the stage procedure answers. -/
theorem writebackState_of_performs {s u : State} (h : Performs .writeback s.wl s u) : writebackState s = u := by
  rcases h with ⟨hw, rfl⟩ | ⟨l, i, hw, ho, he⟩
  · exact writebackState_none hw
  · rw [writebackState_instr hw ho]
    rw [exec_writeback _ rfl] at he
    exact Host.Outcome.next.inj he

theorem memoryState_of_performs {s u : State} (h : Performs .memory s.ml s u) : memoryState s = u := by
  rcases h with ⟨hm, rfl⟩ | ⟨l, i, hm, ho, he⟩
  · exact memoryState_none hm
  · rw [memoryState_instr hm ho]
    rw [exec_memory _ rfl] at he
    exact Host.Outcome.next.inj he

theorem executeState_of_performs {s u : State} (h : Performs .execute s.el s u) : executeState s = u := by
  rcases h with ⟨hx, rfl⟩ | ⟨l, i, hx, ho, he⟩
  · exact executeState_none hx
  · rw [executeState_instr hx ho]
    rw [exec_execute _ rfl] at he
    exact Host.Outcome.next.inj he

/-- A run of one tick more is the run after that tick. -/
theorem core_run_succ (s : State) (k : Nat) : Sys2Proof.core.run (k + 1) s = Sys2Proof.core.run k (tickState s) := by
  have h : Sys2Proof.core.step s = .next (tickState s) := step_eq s
  simp only [Host.Core.run, h]

end Sys2Proof.Machine
end

