-- ==== Sys2Proof/Laws/Decode.lean ====
section
/-! SUPPORT. The fields of a packed word and the table's masks. -/

namespace Sys2Proof

/-- A bit of packed fields. -/
theorem getLsbD_pack (f : Fields) (k : Nat) : f.pack.getLsbD k =
    if k < 32 then f.imm.getLsbD k else if k < 40 then f.rs2.getLsbD (k - 32) else if k < 48 then f.rs1.getLsbD (k - 40)
    else if k < 56 then f.rd.getLsbD (k - 48) else f.opcode.getLsbD (k - 56) := by
  simp only [Fields.pack, BitVec.getLsbD_append]
  by_cases h1 : k < 32
  · simp [h1]
  · have e1 : (k - 32 < 8) ↔ k < 40 := by omega
    have e2 : (k - 40 < 8) ↔ k < 48 := by omega
    have e3 : (k - 48 < 8) ↔ k < 56 := by omega
    have s2 : k - 32 - 8 = k - 40 := by omega
    have s3 : k - 40 - 8 = k - 48 := by omega
    have s4 : k - 48 - 8 = k - 56 := by omega
    simp only [h1, e1, e2, e3, s2, s3, s4, if_false]

/-- Taking the fields of packed fields gives them back (30_encoding.md R83). -/
@[simp] theorem fieldsOf_pack (f : Fields) : fieldsOf f.pack = f := by
  have bit (start len k : Nat) (hk : k < len) :
      (f.pack.extractLsb' start len).getLsbD k = f.pack.getLsbD (start + k) := by
    simp [hk]
  obtain ⟨op, rd, rs1, rs2, imm⟩ := f
  simp only [fieldsOf, Fields.mk.injEq]
  refine ⟨?_, ?_, ?_, ?_, ?_⟩ <;> apply BitVec.eq_of_getLsbD_eq <;> intro k hk <;> rw [bit _ _ _ hk, getLsbD_pack]
  · have h1 : ¬ 56 + k < 32 := by omega
    have h2 : ¬ 56 + k < 40 := by omega
    have h3 : ¬ 56 + k < 48 := by omega
    have h4 : ¬ 56 + k < 56 := by omega
    simp [h1, h2, h3, h4]
  · have h1 : ¬ 48 + k < 32 := by omega
    have h2 : ¬ 48 + k < 40 := by omega
    have h3 : ¬ 48 + k < 48 := by omega
    have h4 : 48 + k < 56 := by omega
    simp [h1, h2, h3, h4]
  · have h1 : ¬ 40 + k < 32 := by omega
    have h2 : ¬ 40 + k < 40 := by omega
    have h3 : 40 + k < 48 := by omega
    simp [h1, h2, h3]
  · have h1 : ¬ 32 + k < 32 := by omega
    have h2 : 32 + k < 40 := by omega
    simp [h1, h2]
  · simp [hk]

/-- A packed word is its fields packed. -/
@[simp] theorem pack_fieldsOf (w : PackedWord) : (fieldsOf w).pack = w := by
  apply BitVec.eq_of_getLsbD_eq
  intro k hk
  rw [getLsbD_pack]
  simp only [fieldsOf, BitVec.getLsbD_extractLsb']
  split
  · simp [*]
  · split
    · have e : 32 + (k - 32) = k := by omega
      have l : k - 32 < 8 := by omega
      simp [e, l]
    · split
      · have e : 40 + (k - 40) = k := by omega
        have l : k - 40 < 8 := by omega
        simp [e, l]
      · split
        · have e : 48 + (k - 48) = k := by omega
          have l : k - 48 < 8 := by omega
          simp [e, l]
        · have e : 56 + (k - 56) = k := by omega
          have l : k - 56 < 8 := by omega
          simp [e, l]

/-- A register index survives its eight-bit field. -/
@[simp] theorem takeReg_regField (r : Reg) (k : Reg → Decoded) : takeReg (regField r) k = k r := by
  have h : (regField r).toNat = r.val := by
    simp only [regField, BitVec.toNat_ofNat]
    exact Nat.mod_eq_of_lt (by omega)
  have hr : (regField r).toNat < 16 := by rw [h]; exact r.isLt
  simp only [takeReg, dif_pos hr]
  congr 1
  exact Fin.ext h

/-- A register field read back is the field of the register it names. -/
theorem takeReg_ok {b : BitVec 8} {k : Reg → Decoded} {i : Instr} (h : takeReg b k = .ok i) :
    ∃ r, b = regField r ∧ k r = .ok i := by
  unfold takeReg at h
  split at h
  · rename_i hb
    refine ⟨⟨b.toNat, hb⟩, ?_, h⟩
    simp [regField]
  · cases h

theorem requireZero_ok {c : Bool} {k : Decoded} {i : Instr} (h : requireZero c k = .ok i) : c = true ∧ k = .ok i := by
  cases c
  · cases h
  · exact ⟨rfl, h⟩

/-- The upper four bits of a register field are zero (30_encoding.md R88). -/
@[simp] theorem regField_and_high (r : Reg) : regField r &&& 0xF0#8 = 0#8 := by
  revert r; decide

/-- Packed fields masked field by field. -/
theorem pack_and_pack (f g : Fields) :
    f.pack &&& g.pack = Fields.pack ⟨f.opcode &&& g.opcode, f.rd &&& g.rd, f.rs1 &&& g.rs1, f.rs2 &&& g.rs2, f.imm &&& g.imm⟩ := by
  apply BitVec.eq_of_getLsbD_eq
  intro k hk
  simp only [BitVec.getLsbD_and, getLsbD_pack]
  split
  · rfl
  · split
    · rfl
    · split
      · rfl
      · split <;> rfl

/-- A format's mask, field by field (30_encoding.md R88): the opcode, the upper bits of the used registers, the whole of the
unused fields. -/
def Format.maskFields : Format → Fields
  | .rrr => ⟨0xFF#8, 0xF0#8, 0xF0#8, 0xF0#8, 0xFFFFFFFF#32⟩
  | .rri => ⟨0xFF#8, 0xF0#8, 0xF0#8, 0xFF#8, 0#32⟩
  | .ri => ⟨0xFF#8, 0xF0#8, 0xFF#8, 0xFF#8, 0#32⟩
  | .sti => ⟨0xFF#8, 0xFF#8, 0xF0#8, 0xF0#8, 0#32⟩
  | .crr => ⟨0xFF#8, 0xFF#8, 0xF0#8, 0xF0#8, 0xFFFFFFFF#32⟩
  | .si => ⟨0xFF#8, 0xFF#8, 0xF0#8, 0xFF#8, 0#32⟩
  | .bi => ⟨0xFF#8, 0xFF#8, 0xFF#8, 0xFF#8, 0#32⟩
  | .n => ⟨0xFF#8, 0xFF#8, 0xFF#8, 0xFF#8, 0xFFFFFFFF#32⟩

theorem Format.rowMask_eq (f : Format) : f.rowMask = f.maskFields.pack := by
  cases f <;> rfl

/-- A row's match value, field by field. -/
theorem rowMatch_eq (op : BitVec 8) : op ++ 0#56 = Fields.pack ⟨op, 0#8, 0#8, 0#8, 0#32⟩ := by
  revert op; decide

end Sys2Proof
end

