-- ==== Sys2Proof/Laws/Memory.lean ====
section
/-! SUPPORT. Data memory: reading after writing, and the one form in which memory is kept. -/

namespace Sys2Proof.Machine

/-- Below the first listed index nothing is listed. -/
theorem readCells_below {m : List MemCell} {low a : Nat} (h : cellsFrom low m = true) (ha : a < low) :
    readCells m a = memDefault := by
  induction m generalizing low with
  | nil => rfl
  | cons c rest ih =>
    obtain ⟨b, v⟩ := c
    simp only [cellsFrom, Bool.and_eq_true, decide_eq_true_eq] at h
    have hb : a ≠ b := by omega
    simp only [readCells, if_neg hb]
    exact ih h.2 (by omega)

theorem cellsFrom_mono {m : List MemCell} {low low' : Nat} (hl : low' ≤ low) (h : cellsFrom low m = true) :
    cellsFrom low' m = true := by
  cases m with
  | nil => rfl
  | cons c rest =>
    simp only [cellsFrom, Bool.and_eq_true, decide_eq_true_eq] at h ⊢
    exact ⟨⟨by omega, h.1.2⟩, h.2⟩

/-- A write keeps the form. -/
theorem writeCells_cellsFrom {m : List MemCell} {low a : Nat} (v : Word) (h : cellsFrom low m = true) (ha : low ≤ a) :
    cellsFrom low (writeCells m a v) = true := by
  induction m generalizing low with
  | nil => by_cases hv : v = memDefault <;> simp [writeCells, cellsFrom, hv, ha]
  | cons c rest ih =>
    obtain ⟨b, u⟩ := c
    simp only [cellsFrom, Bool.and_eq_true, decide_eq_true_eq] at h
    obtain ⟨⟨hb, hu⟩, hr⟩ := h
    simp only [writeCells]
    split
    · by_cases hv : v = memDefault
      · simp [hv, cellsFrom, hb, hr, bne_iff_ne.mp hu]
      · have : a + 1 ≤ b := by omega
        simp [hv, cellsFrom, ha, this, hr, bne_iff_ne.mp hu]
    · split
      · subst_vars
        by_cases hv : v = memDefault
        · simpa [hv] using cellsFrom_mono (by omega) hr
        · simp [hv, cellsFrom, hb, hr]
      · simp only [cellsFrom, hb, hu, decide_true, Bool.and_self, Bool.true_and]
        exact ih hr (by omega)

/-- A write to data memory keeps its one form. -/
theorem writeMem_wf (s : State) (a : Nat) (v : Word) (h : Memory.wf s.dmem = true) :
    Memory.wf (s.writeMem a v).dmem = true := writeCells_cellsFrom v h (Nat.zero_le a)

/-- Memory after reset is in the form. -/
theorem reset_memory_wf : Memory.wf State.reset.dmem = true := rfl

/-- Reading the index just written. -/
theorem readCells_writeCells_same {m : List MemCell} {low : Nat} (a : Nat) (v : Word) (h : cellsFrom low m = true) :
    readCells (writeCells m a v) a = v := by
  induction m generalizing low with
  | nil => by_cases hv : v = memDefault <;> simp [writeCells, readCells, hv]
  | cons c rest ih =>
    obtain ⟨b, u⟩ := c
    simp only [cellsFrom, Bool.and_eq_true, decide_eq_true_eq] at h
    simp only [writeCells]
    split
    · by_cases hv : v = memDefault
      · have hb : a ≠ b := by omega
        simp only [hv, if_true, readCells, if_neg hb]
        exact readCells_below h.2 (by omega)
      · simp [hv, readCells]
    · split
      · by_cases hv : v = memDefault
        · simpa [hv] using readCells_below h.2 (by omega)
        · simp [hv, readCells]
      · rename_i h2
        simp only [readCells, if_neg h2]
        exact ih h.2

/-- Reading any other index. -/
theorem readCells_writeCells_other {m : List MemCell} {a b : Nat} (v : Word) (hab : b ≠ a) :
    readCells (writeCells m a v) b = readCells m b := by
  induction m with
  | nil => by_cases hv : v = memDefault <;> simp [writeCells, readCells, hv, hab]
  | cons c rest ih =>
    obtain ⟨d, u⟩ := c
    simp only [writeCells]
    split
    · by_cases hv : v = memDefault <;> simp [readCells, hv, hab]
    · split
      · subst_vars
        by_cases hv : v = memDefault <;> simp [readCells, hv, hab]
      · simp only [readCells, ih]

theorem readMem_writeMem_same (s : State) (a : Nat) (v : Word) (h : Memory.wf s.dmem = true) :
    (s.writeMem a v).readMem a = v := readCells_writeCells_same a v h

theorem readMem_writeMem_other (s : State) (a b : Nat) (v : Word) (hab : b ≠ a) :
    (s.writeMem a v).readMem b = s.readMem b := readCells_writeCells_other v hab

/-- A write lists nothing but what was listed and the written index. -/
theorem mem_writeCells {m : List MemCell} {a : Nat} {v : Word} {c : MemCell} (h : c ∈ writeCells m a v) :
    c ∈ m ∨ c.1 = a := by
  induction m with
  | nil =>
    by_cases hv : v = memDefault <;> simp [writeCells, hv] at h
    exact .inr (by simp [h])
  | cons d rest ih =>
    obtain ⟨b, u⟩ := d
    simp only [writeCells] at h
    split at h
    · by_cases hv : v = memDefault
      · simp only [hv, if_true] at h; exact .inl h
      · simp only [hv, if_false, List.mem_cons] at h
        rcases h with rfl | h
        · exact .inr rfl
        · exact .inl (by simpa using h)
    · split at h
      · by_cases hv : v = memDefault
        · simp only [hv, if_true] at h; exact .inl (List.mem_cons_of_mem _ h)
        · simp only [hv, if_false, List.mem_cons] at h
          rcases h with rfl | h
          · exact .inr rfl
          · exact .inl (List.mem_cons_of_mem _ h)
      · simp only [List.mem_cons] at h
        rcases h with rfl | h
        · exact .inl List.mem_cons_self
        · exact (ih h).imp (List.mem_cons_of_mem _) id

end Sys2Proof.Machine
end

