-- ==== Sys2Proof/Laws/PerInstr.lean ====
section
/-! SUPPORT. Families of statements about every instruction as syntax, one lemma per constructor. -/

namespace Sys2Proof.Laws.EncodeMatchesRow

/-- The packed word of an instruction has the bits its row of the opcode table fixes (30_encoding.md R88). -/
def Statement (i : Instr) : Prop := encode i &&& i.format.rowMask = i.rowMatch

/-- The masked packed word, field by field. -/
theorem statement_of_fields {i : Instr}
    (h : (⟨i.fields.opcode &&& i.format.maskFields.opcode, i.fields.rd &&& i.format.maskFields.rd,
      i.fields.rs1 &&& i.format.maskFields.rs1, i.fields.rs2 &&& i.format.maskFields.rs2,
      i.fields.imm &&& i.format.maskFields.imm⟩ : Fields) = ⟨i.fields.opcode, 0#8, 0#8, 0#8, 0#32⟩) :
    Statement i := by
  have masked : encode i &&& i.format.rowMask = (i.fields.pack) &&& i.format.maskFields.pack :=
    congrArg (encode i &&& ·) (Format.rowMask_eq i.format)
  exact masked.trans ((pack_and_pack _ _).trans ((congrArg Fields.pack h).trans (rowMatch_eq _).symm))

theorem add (rd rs1 rs2 : Reg) : Statement (.add rd rs1 rs2) := statement_of_fields (by simp [Instr.fields, Instr.format, Format.maskFields])
theorem sub (rd rs1 rs2 : Reg) : Statement (.sub rd rs1 rs2) := statement_of_fields (by simp [Instr.fields, Instr.format, Format.maskFields])
theorem mul (rd rs1 rs2 : Reg) : Statement (.mul rd rs1 rs2) := statement_of_fields (by simp [Instr.fields, Instr.format, Format.maskFields])
theorem div (rd rs1 rs2 : Reg) : Statement (.div rd rs1 rs2) := statement_of_fields (by simp [Instr.fields, Instr.format, Format.maskFields])
theorem and (rd rs1 rs2 : Reg) : Statement (.and rd rs1 rs2) := statement_of_fields (by simp [Instr.fields, Instr.format, Format.maskFields])
theorem or (rd rs1 rs2 : Reg) : Statement (.or rd rs1 rs2) := statement_of_fields (by simp [Instr.fields, Instr.format, Format.maskFields])
theorem xor (rd rs1 rs2 : Reg) : Statement (.xor rd rs1 rs2) := statement_of_fields (by simp [Instr.fields, Instr.format, Format.maskFields])
theorem movc (rd : Reg) (imm : Word) : Statement (.movc rd imm) := statement_of_fields (by simp [Instr.fields, Instr.format, Format.maskFields])
theorem load (rd rs1 : Reg) (imm : Word) : Statement (.load rd rs1 imm) := statement_of_fields (by simp [Instr.fields, Instr.format, Format.maskFields])
theorem store (rs1 rs2 : Reg) (imm : Word) : Statement (.store rs1 rs2 imm) := statement_of_fields (by simp [Instr.fields, Instr.format, Format.maskFields])
theorem bz (imm : Word) : Statement (.bz imm) := statement_of_fields (by simp [Instr.fields, Instr.format, Format.maskFields])
theorem bnz (imm : Word) : Statement (.bnz imm) := statement_of_fields (by simp [Instr.fields, Instr.format, Format.maskFields])
theorem halt : Statement .halt := statement_of_fields (by simp [Instr.fields, Instr.format, Format.maskFields])
theorem addl (rd rs1 : Reg) (imm : Word) : Statement (.addl rd rs1 imm) := statement_of_fields (by simp [Instr.fields, Instr.format, Format.maskFields])
theorem subl (rd rs1 : Reg) (imm : Word) : Statement (.subl rd rs1 imm) := statement_of_fields (by simp [Instr.fields, Instr.format, Format.maskFields])
theorem loadp (rd rs1 : Reg) (imm : Word) : Statement (.loadp rd rs1 imm) := statement_of_fields (by simp [Instr.fields, Instr.format, Format.maskFields])
theorem storep (rs1 rs2 : Reg) (imm : Word) : Statement (.storep rs1 rs2 imm) := statement_of_fields (by simp [Instr.fields, Instr.format, Format.maskFields])
theorem cmp (rs1 rs2 : Reg) : Statement (.cmp rs1 rs2) := statement_of_fields (by simp [Instr.fields, Instr.format, Format.maskFields])
theorem cml (rs1 : Reg) (imm : Word) : Statement (.cml rs1 imm) := statement_of_fields (by simp [Instr.fields, Instr.format, Format.maskFields])
theorem bp (imm : Word) : Statement (.bp imm) := statement_of_fields (by simp [Instr.fields, Instr.format, Format.maskFields])
theorem bnp (imm : Word) : Statement (.bnp imm) := statement_of_fields (by simp [Instr.fields, Instr.format, Format.maskFields])
theorem bn (imm : Word) : Statement (.bn imm) := statement_of_fields (by simp [Instr.fields, Instr.format, Format.maskFields])
theorem bnn (imm : Word) : Statement (.bnn imm) := statement_of_fields (by simp [Instr.fields, Instr.format, Format.maskFields])
theorem jump (rs1 : Reg) (imm : Word) : Statement (.jump rs1 imm) := statement_of_fields (by simp [Instr.fields, Instr.format, Format.maskFields])
theorem jalr (rd rs1 : Reg) (imm : Word) : Statement (.jalr rd rs1 imm) := statement_of_fields (by simp [Instr.fields, Instr.format, Format.maskFields])
theorem nop : Statement .nop := statement_of_fields (by simp [Instr.fields, Instr.format, Format.maskFields])

end Sys2Proof.Laws.EncodeMatchesRow
end

