-- ==== Sys2Proof/Laws/Registers.lean ====
section
/-! SUPPORT. Reading registers and hazard bits after the operations that write them. -/

namespace Sys2Proof.Machine

@[simp] theorem State.reg_setReg (s : State) (r q : Reg) (v : Word) :
    (s.setReg r v).reg q = if q = r then v else s.reg q := by
  simp only [State.reg, State.setReg_x, Vector.getElem_set]
  by_cases h : q = r
  · simp [h]
  · have : r.val ≠ q.val := fun e => h (Fin.ext e.symm)
    simp [h, this]

@[simp] theorem State.isBusy_markBusy (s : State) (r q : Reg) :
    (s.markBusy r).isBusy q = (decide (q = r) || s.isBusy q) := by
  simp only [State.isBusy, State.markBusy_busy, Vector.getElem_set]
  by_cases h : q = r
  · simp [h]
  · have : r.val ≠ q.val := fun e => h (Fin.ext e.symm)
    simp [h, this]

@[simp] theorem State.isBusy_markAll (s : State) (ws : List Reg) (q : Reg) :
    (s.markAll ws).isBusy q = (decide (q ∈ ws) || s.isBusy q) := by
  induction ws generalizing s with
  | nil => simp [State.markAll]
  | cons w rest ih =>
    simp only [State.markAll, ih, State.isBusy_markBusy, List.mem_cons]
    by_cases h1 : q = w <;> by_cases h2 : q ∈ rest <;> simp [h1, h2]

@[simp] theorem State.isBusy_release (s : State) (r q : Reg) :
    (s.release r).isBusy q = (!decide (q = r) && s.isBusy q) := by
  simp only [State.isBusy, State.release_busy, Vector.getElem_set]
  by_cases h : q = r
  · simp [h]
  · have : r.val ≠ q.val := fun e => h (Fin.ext e.symm)
    simp [h, this]

@[simp] theorem State.isPending_release (s : State) (r q : Reg) :
    (s.release r).isPending q = (!decide (q = r) && s.isPending q) := by
  simp only [State.isPending, State.release_pendF, Vector.getElem_set]
  by_cases h : q = r
  · simp [h]
  · have : r.val ≠ q.val := fun e => h (Fin.ext e.symm)
    simp [h, this]

@[simp] theorem State.isPending_publish (s : State) (r q : Reg) (v : Word) :
    (s.publish r v).isPending q = (decide (s.cfg.policy = .fb ∧ q = r) || s.isPending q) := by
  simp only [State.isPending, State.publish_pendF]
  by_cases hp : s.cfg.policy = .fb
  · simp only [hp, if_true, Vector.getElem_set]
    by_cases h : q = r
    · simp [h]
    · have : r.val ≠ q.val := fun e => h (Fin.ext e.symm)
      simp [h, this]
  · simp [hp]

@[simp] theorem State.pendingValue_publish (s : State) (r q : Reg) (v : Word) :
    (s.publish r v).pendingValue q = if s.cfg.policy = .fb ∧ q = r then v else s.pendingValue q := by
  simp only [State.pendingValue, State.publish_pendV]
  by_cases hp : s.cfg.policy = .fb
  · simp only [hp, if_true, Vector.getElem_set]
    by_cases h : q = r
    · simp [h]
    · have : r.val ≠ q.val := fun e => h (Fin.ext e.symm)
      simp [h, this]
  · simp [hp]

/-- What `opnd` reads (42_decode_hazard.md R160). -/
theorem State.opnd_eq (s : State) (r : Reg) :
    s.opnd r = if s.cfg.policy = .fb ∧ s.isPending r = true then s.pendingValue r else s.reg r := by
  unfold State.opnd
  cases s.cfg.policy <;> simp

/-- What the stall condition says (42_decode_hazard.md R161, R162). -/
theorem State.stalls_iff (s : State) (i : Instr) :
    s.stalls i = true ↔ (∃ r ∈ writes i, s.isBusy r = true) ∨
      ∃ r ∈ sources i, s.isBusy r = true ∧ (s.cfg.policy = .fb → s.isPending r = false) := by
  unfold State.stalls
  cases h : s.cfg.policy
  · simp [State.stallSS, or_comm]
  · simp [State.stallFB]

end Sys2Proof.Machine
end

