-- ==== Sys2Proof/Laws/Stages.lean ====
section
/-! SUPPORT. What each shared stage operation can do, said once: its answer when the fields it reads have a value, an
elimination rule for every other case, and what each of the five stages leaves alone. -/

namespace Sys2Proof.Machine

/-! ## Elimination rules: every way an operation can answer -/

/-- Execute answers the state itself when `EL` is empty, else what it does to the occupant (R180). -/
theorem State.inExecute_elim {P : State → Prop} {s : State} {k : Latch → State} (empty : s.el = none → P s)
    (occupied : ∀ l, s.el = some l → P (k l)) : P (s.inExecute k) := by
  unfold State.inExecute
  split
  · exact empty ‹_›
  · exact occupied _ ‹_›

/-- Memory answers the state itself when `ML` is empty, else what it does to the occupant (R210). -/
theorem State.inMemoryStage_elim {P : State → Prop} {s : State} {k : Latch → State} (empty : s.ml = none → P s)
    (occupied : ∀ l, s.ml = some l → P (k l)) : P (s.inMemoryStage k) := by
  unfold State.inMemoryStage
  split
  · exact empty ‹_›
  · exact occupied _ ‹_›

/-- Writeback answers the state itself when `WL` is empty, else what it does to the occupant (R215). -/
theorem State.inWriteback_elim {P : State → Prop} {s : State} {k : Latch → State} (empty : s.wl = none → P s)
    (occupied : ∀ l, s.wl = some l → P (k l)) : P (s.inWriteback k) := by
  unfold State.inWriteback
  split
  · exact empty ‹_›
  · exact occupied _ ‹_›

/-- Reading a latch field uses its value, or breaks an invariant when it has none (10_state.md R34). -/
theorem State.reading_elim {P : State → Prop} {s : State} {field : Option Word} {k : Word → State}
    (absent : field = none → P (s.raise .invariantFault)) (present : ∀ v, field = some v → P (k v)) :
    P (s.reading field k) := by
  unfold State.reading
  split
  · exact absent rfl
  · exact present _ rfl

@[simp] theorem State.reading_some (s : State) (v : Word) (k : Word → State) : s.reading (some v) k = k v := rfl

theorem State.inExecute_some {s : State} {l : Latch} (h : s.el = some l) (k : Latch → State) : s.inExecute k = k l := by
  simp [State.inExecute, h]

theorem State.inMemoryStage_some {s : State} {l : Latch} (h : s.ml = some l) (k : Latch → State) :
    s.inMemoryStage k = k l := by
  simp [State.inMemoryStage, h]

theorem State.inWriteback_some {s : State} {l : Latch} (h : s.wl = some l) (k : Latch → State) :
    s.inWriteback k = k l := by
  simp [State.inWriteback, h]

/-! ## Execute (43_execute_redirect.md) -/

/-- What every answer of Execute leaves as it was. -/
structure ExecuteKeeps (s t : State) : Prop where
  cfg : t.cfg = s.cfg
  imem : t.imem = s.imem
  x : t.x = s.x
  dmem : t.dmem = s.dmem
  fl : t.fl = s.fl
  wl : t.wl = s.wl
  busy : t.busy = s.busy
  clock : t.clock = s.clock
  insnCompleted : t.insnCompleted = s.insnCompleted
  halted : t.halted = s.halted
  committed : t.committed = s.committed

/-- What becomes of the predictor at Execute: nothing, or a training of the branch's entry (R193). -/
inductive Trains (i : Instr) (p : Word) (s t : State) : Prop where
  | untouched (same : t.btb = s.btb ∧ t.btbHead = s.btbHead)
  | taken (k : Nat) (policy : s.cfg.policy = .ss) (trained : (trainedAs i).isSome = true) (found : s.btbFind p = some k)
      (table : t.btb = (s.trainTaken k (branchTarget s.cfg p (displacement i))).btb) (head : t.btbHead = s.btbHead)
  | allocated (policy : s.cfg.policy = .ss) (trained : (trainedAs i).isSome = true) (absent : s.btbFind p = none)
      (table : t.btb = ((s.btbAlloc p).trainTaken s.btbHead (branchTarget s.cfg p (displacement i))).btb)
      (head : t.btbHead = (s.btbAlloc p).btbHead)
  | notTaken (k : Nat) (policy : s.cfg.policy = .ss) (trained : (trainedAs i).isSome = true) (found : s.btbFind p = some k)
      (resolved : (s.btbEntry k).resolved = true) (table : t.btb = (s.trainNotTaken k).btb) (head : t.btbHead = s.btbHead)

/-- The Fetch and Decode side of the state after an Execute that did not redirect. -/
structure FrontKept (s t : State) : Prop where
  pc : t.pc = s.pc
  dl : t.dl = s.dl
  dlStall : t.dlStall = s.dlStall
  flHeld : t.flHeld = s.flHeld
  fetchEn : t.fetchEn = s.fetchEn
  redirectPending : t.redirectPending = s.redirectPending

/-- The Fetch and Decode side of the state after a redirect (R195). -/
structure FrontRedirected (t : State) : Prop where
  dl : t.dl = none
  dlStall : t.dlStall = false
  flHeld : t.flHeld = false
  fetchEn : t.fetchEn = true
  redirectPending : t.redirectPending = true

/-- The instruction `i` was executed: it left `EL` as `l` and is in `ML` as `l'`. -/
structure Executed (i : Instr) (l l' : Latch) (s t : State) : Prop where
  keeps : ExecuteKeeps s t
  ml : t.ml = some l'
  el : t.el = none
  fault : t.fault = s.fault
  record : l'.pc = l.pc ∧ l'.op = l.op ∧ l'.v1 = l.v1 ∧ l'.v2 = l.v2
  written : l'.executed i = true
  flags : t.flags = s.flags ∨ (setsFlags i = true ∧ t.flags.exactlyOne = true)
  front : FrontKept s t ∨ (FrontRedirected t ∧ i ≠ .halt ∧ t.flags = s.flags)
  pending : (writesAtExecute i = [] ∧ t.pendF = s.pendF ∧ t.pendV = s.pendV) ∨
    ∃ r v, writesAtExecute i = [r] ∧ (l.op = .instr i → l'.commitValue r = some v) ∧ t.pendF = s.pendFWith r ∧
      t.pendV = s.pendVWith r v
  predictor : Trains i l.pc s t

theorem signFlags_exactlyOne (v : Word) : (signFlags v).exactlyOne = true := by
  rcases signFlags_cases v with ⟨-, h⟩ | ⟨-, h⟩ | ⟨-, h⟩ <;> rw [h] <;> rfl

theorem compareFlags_exactlyOne (a b : Word) : (compareFlags a b).exactlyOne = true := by
  rcases compareFlags_cases a b with ⟨-, h⟩ | ⟨-, h⟩ | ⟨-, h⟩ <;> rw [h] <;> rfl

theorem State.publish_pendFWith (s : State) (r : Reg) (v : Word) : (s.publish r v).pendF = s.pendFWith r := by
  simp [State.pendFWith]

theorem State.publish_pendVWith (s : State) (r : Reg) (v : Word) : (s.publish r v).pendV = s.pendVWith r v := by
  simp [State.pendVWith]

/-- A value written by Execute into `res` and published, with or without flags (R181, R183, R188, R189). -/
theorem executed_result {i : Instr} {l : Latch} {s u : State} {rd : Reg} (v : Word)
    (hw : writesAtExecute i = [rd]) (hi : postIncrements i = false) (hm : accessesMemory i = false)
    (hc : ∀ l' : Latch, l'.op = .instr i → l'.commitValue rd = l'.res)
    (hu : u = s ∨ ∃ f : Flags, u = s.setFlags f ∧ setsFlags i = true ∧ f.exactlyOne = true) :
    Executed i l { l with res := some v } s ((u.publish rd v).sendToMemory { l with res := some v }) := by
  rcases hu with rfl | ⟨f, rfl, hf, he⟩
  · exact ⟨by constructor <;> simp, rfl, rfl, by simp, ⟨rfl, rfl, rfl, rfl⟩, by simp [Latch.executed, hi, hm],
      .inl (by simp), .inl (by constructor <;> simp),
      .inr ⟨rd, v, hw, fun h => hc _ h, State.publish_pendFWith _ rd v, State.publish_pendVWith _ rd v⟩, .untouched (by simp)⟩
  · exact ⟨by constructor <;> simp, rfl, rfl, by simp, ⟨rfl, rfl, rfl, rfl⟩, by simp [Latch.executed, hi, hm],
      .inr ⟨hf, by simpa using he⟩, .inl (by constructor <;> simp),
      .inr ⟨rd, v, hw, fun h => hc _ h, State.publish_pendFWith _ rd v, State.publish_pendVWith _ rd v⟩, .untouched (by simp)⟩

/-- A latch moved on with nothing published, the flags perhaps written (R182, R184, R189). -/
theorem executed_plain {i : Instr} {l l' : Latch} {s u : State} (hw : writesAtExecute i = [])
    (hr : l'.pc = l.pc ∧ l'.op = l.op ∧ l'.v1 = l.v1 ∧ l'.v2 = l.v2) (he : l'.executed i = true)
    (hu : u = s ∨ ∃ f : Flags, u = s.setFlags f ∧ setsFlags i = true ∧ f.exactlyOne = true) :
    Executed i l l' s (u.sendToMemory l') := by
  rcases hu with rfl | ⟨f, rfl, hf, hx⟩
  · exact ⟨by constructor <;> simp, rfl, rfl, by simp, hr, he, .inl (by simp), .inl (by constructor <;> simp),
      .inl ⟨hw, by simp, by simp⟩, .untouched (by simp)⟩
  · exact ⟨by constructor <;> simp, rfl, rfl, by simp, hr, he, .inr ⟨hf, by simpa using hx⟩, .inl (by constructor <;> simp),
      .inl ⟨hw, by simp, by simp⟩, .untouched (by simp)⟩

/-- The ways Execute can answer for the occupant `l` of `EL`: an operand it needs was never captured, the division fault, or
the instruction is executed. -/
inductive ExecuteOutcome (i : Instr) (l : Latch) (s t : State) : Prop where
  | uncaptured (missing : l.operandsCaptured i = false) (answer : t = s.raise .invariantFault)
  | divides (answer : t = s.raise (.arithmeticFault l.pc))
  | executed (l' : Latch) (answer : Executed i l l' s t)

/-- A register that the instruction writes and that is not a post-incremented base takes `res` (44_memory_writeback.md
R216). -/
theorem commitValue_res {l : Latch} {i : Instr} {r : Reg} (ho : l.op = .instr i) (hj : postIncrements i = false)
    (hr : r ∈ writes i) : l.commitValue r = l.res := by
  unfold Latch.commitValue
  rw [ho]
  cases i <;> first | exact if_pos hr | exact absurd hj (by simp [postIncrements])

theorem computeRR_outcome {i : Instr} {l : Latch} {s : State} {rd rs1 rs2 : Reg} (f : Params → Word → Word → Word)
    (h : s.el = some l) (hf : setsFlags i = true) (hw : writesAtExecute i = [rd])
    (hi : postIncrements i = false) (hm : accessesMemory i = false) (h1 : operand1 i = some rs1)
    (h2 : operand2 i = some rs2) : ExecuteOutcome i l s (computeRR rd f s) := by
  unfold computeRR
  rw [State.inExecute_some h]
  refine State.reading_elim (P := ExecuteOutcome i l s)
    (fun e => .uncaptured (by simp [Latch.operandsCaptured, h1, e]) rfl) fun a _ => ?_
  refine State.reading_elim (P := ExecuteOutcome i l s)
    (fun e => .uncaptured (by simp [Latch.operandsCaptured, h2, e]) rfl) fun b _ => ?_
  exact .executed _ (executed_result _ hw hi hm (fun _ ho => commitValue_res ho hi (by simp [writes, hw]))
    (.inr ⟨_, rfl, hf, signFlags_exactlyOne _⟩))

theorem computeRI_outcome {i : Instr} {l : Latch} {s : State} {rd rs1 : Reg} (imm : Word) (f : Params → Word → Word → Word)
    (h : s.el = some l) (hf : setsFlags i = true) (hw : writesAtExecute i = [rd])
    (hi : postIncrements i = false) (hm : accessesMemory i = false) (h1 : operand1 i = some rs1) :
    ExecuteOutcome i l s (computeRI rd imm f s) := by
  unfold computeRI
  rw [State.inExecute_some h]
  refine State.reading_elim (P := ExecuteOutcome i l s)
    (fun e => .uncaptured (by simp [Latch.operandsCaptured, h1, e]) rfl) fun a _ => ?_
  exact .executed _ (executed_result _ hw hi hm (fun _ ho => commitValue_res ho hi (by simp [writes, hw]))
    (.inr ⟨_, rfl, hf, signFlags_exactlyOne _⟩))

theorem computeDiv_outcome {l : Latch} {s : State} (rd rs1 rs2 : Reg) (h : s.el = some l) :
    ExecuteOutcome (.div rd rs1 rs2) l s (computeDiv rd s) := by
  unfold computeDiv
  rw [State.inExecute_some h]
  refine State.reading_elim (P := ExecuteOutcome _ l s)
    (fun e => .uncaptured (by simp [Latch.operandsCaptured, operand1, e]) rfl) fun a _ => ?_
  refine State.reading_elim (P := ExecuteOutcome _ l s)
    (fun e => .uncaptured (by simp [Latch.operandsCaptured, operand2, e]) rfl) fun b _ => ?_
  split
  · exact .divides rfl
  · exact .executed _ (executed_result _ rfl rfl rfl
      (fun _ ho => commitValue_res ho rfl (by simp [writes, writesAtExecute, writesAtMemory]))
      (.inr ⟨_, rfl, rfl, signFlags_exactlyOne _⟩))

theorem compareRR_outcome {l : Latch} {s : State} (rs1 rs2 : Reg) (h : s.el = some l) :
    ExecuteOutcome (.cmp rs1 rs2) l s (compareRR s) := by
  unfold compareRR
  rw [State.inExecute_some h]
  refine State.reading_elim (P := ExecuteOutcome _ l s)
    (fun e => .uncaptured (by simp [Latch.operandsCaptured, operand1, e]) rfl) fun a _ => ?_
  refine State.reading_elim (P := ExecuteOutcome _ l s)
    (fun e => .uncaptured (by simp [Latch.operandsCaptured, operand2, e]) rfl) fun b _ => ?_
  exact .executed _ (executed_plain rfl ⟨rfl, rfl, rfl, rfl⟩ rfl (.inr ⟨_, rfl, rfl, compareFlags_exactlyOne _ _⟩))

theorem compareRI_outcome {l : Latch} {s : State} (rs1 : Reg) (imm : Word) (h : s.el = some l) :
    ExecuteOutcome (.cml rs1 imm) l s (compareRI imm s) := by
  unfold compareRI
  rw [State.inExecute_some h]
  refine State.reading_elim (P := ExecuteOutcome _ l s)
    (fun e => .uncaptured (by simp [Latch.operandsCaptured, operand1, e]) rfl) fun a _ => ?_
  exact .executed _ (executed_plain rfl ⟨rfl, rfl, rfl, rfl⟩ rfl (.inr ⟨_, rfl, rfl, compareFlags_exactlyOne _ _⟩))

theorem moveConstant_outcome {l : Latch} {s : State} (rd : Reg) (imm : Word) (h : s.el = some l) :
    ExecuteOutcome (.movc rd imm) l s (moveConstant rd imm s) := by
  unfold moveConstant
  rw [State.inExecute_some h]
  exact .executed _ (executed_result _ rfl rfl rfl
    (fun _ ho => commitValue_res ho rfl (by simp [writes, writesAtExecute, writesAtMemory])) (.inl rfl))

theorem addressOfLoad_outcome {l : Latch} {s : State} (rd rs1 : Reg) (imm : Word) (h : s.el = some l) :
    ExecuteOutcome (.load rd rs1 imm) l s (addressOfLoad imm s) := by
  unfold addressOfLoad
  rw [State.inExecute_some h]
  refine State.reading_elim (P := ExecuteOutcome _ l s)
    (fun e => .uncaptured (by simp [Latch.operandsCaptured, operand1, e]) rfl) fun a _ => ?_
  exact .executed _ (executed_plain rfl ⟨rfl, rfl, rfl, rfl⟩ rfl (.inl rfl))

theorem addressOfStore_outcome {l : Latch} {s : State} (rs1 rs2 : Reg) (imm : Word) (h : s.el = some l) :
    ExecuteOutcome (.store rs1 rs2 imm) l s (addressOfStore imm s) := by
  unfold addressOfStore
  rw [State.inExecute_some h]
  refine State.reading_elim (P := ExecuteOutcome _ l s)
    (fun e => .uncaptured (by simp [Latch.operandsCaptured, operand2, e]) rfl) fun a _ => ?_
  exact .executed _ (executed_plain rfl ⟨rfl, rfl, rfl, rfl⟩ rfl (.inl rfl))

/-- The post-increment forms: the base is published, address and base written (R184, R185, R188). -/
theorem executed_postIncrement {i : Instr} {l : Latch} {s : State} {rb : Reg} (a b : Word)
    (hw : writesAtExecute i = [rb]) (hp : producesResult i = false)
    (hc : ∀ l' : Latch, l'.op = .instr i → l'.commitValue rb = l'.res2) :
    Executed i l { l with addr := some a, res2 := some b } s
      ((s.publish rb b).sendToMemory { l with addr := some a, res2 := some b }) :=
  ⟨by constructor <;> simp, rfl, rfl, by simp, ⟨rfl, rfl, rfl, rfl⟩, by simp [Latch.executed, hp],
    .inl (by simp), .inl (by constructor <;> simp),
    .inr ⟨rb, b, hw, fun h => hc _ h, State.publish_pendFWith _ rb b, State.publish_pendVWith _ rb b⟩,
    .untouched (by simp)⟩

theorem addressOfLoadP_outcome {l : Latch} {s : State} (rd rs1 : Reg) (imm : Word) (h : s.el = some l) :
    ExecuteOutcome (.loadp rd rs1 imm) l s (addressOfLoadP rs1 imm s) := by
  unfold addressOfLoadP
  rw [State.inExecute_some h]
  refine State.reading_elim (P := ExecuteOutcome _ l s)
    (fun e => .uncaptured (by simp [Latch.operandsCaptured, operand1, e]) rfl) fun a _ => ?_
  exact .executed _ (executed_postIncrement _ _ rfl rfl fun l' ho => by simp [Latch.commitValue, ho])

theorem addressOfStoreP_outcome {l : Latch} {s : State} (rs1 rs2 : Reg) (imm : Word) (h : s.el = some l) :
    ExecuteOutcome (.storep rs1 rs2 imm) l s (addressOfStoreP rs2 imm s) := by
  unfold addressOfStoreP
  rw [State.inExecute_some h]
  refine State.reading_elim (P := ExecuteOutcome _ l s)
    (fun e => .uncaptured (by simp [Latch.operandsCaptured, operand2, e]) rfl) fun a _ => ?_
  exact .executed _ (executed_postIncrement _ _ rfl rfl fun l' ho => by simp [Latch.commitValue, ho])

/-- A redirect moved on with nothing published (R191, R193, R194). -/
theorem executed_redirect {i : Instr} {l : Latch} {s u : State} (t : Word) (hw : writesAtExecute i = [])
    (he : l.executed i = true) (hh : i ≠ .halt) (hk : ExecuteKeeps s u) (hf : u.fault = s.fault)
    (hz : u.flags = s.flags) (hp : u.pendF = s.pendF ∧ u.pendV = s.pendV) (ht : Trains i l.pc s u) :
    Executed i l l s ((u.redirect t).sendToMemory l) := by
  obtain ⟨h1, h2, h3, h4, h5, h6, h7, h8, h9, h10, h11⟩ := hk
  refine ⟨⟨h1, h2, h3, h4, h5, h6, h7, h8, h9, h10, h11⟩, rfl, rfl, hf, ⟨rfl, rfl, rfl, rfl⟩, he, .inl hz,
    .inr ⟨⟨rfl, rfl, rfl, rfl, rfl⟩, hh, hz⟩, .inl ⟨hw, hp.1, hp.2⟩, ?_⟩
  cases ht with
  | untouched h => exact .untouched h
  | taken k a b c d e => exact .taken k a b c d e
  | allocated a b c d e => exact .allocated a b c d e
  | notTaken k a b c d e f => exact .notTaken k a b c d e f

theorem ExecuteKeeps.refl (s : State) : ExecuteKeeps s s := by constructor <;> rfl

theorem jumpTo_outcome {l : Latch} {s : State} (rs1 : Reg) (imm : Word) (h : s.el = some l) :
    ExecuteOutcome (.jump rs1 imm) l s (jumpTo imm s) := by
  unfold jumpTo
  rw [State.inExecute_some h]
  refine State.reading_elim (P := ExecuteOutcome _ l s)
    (fun e => .uncaptured (by simp [Latch.operandsCaptured, operand1, e]) rfl) fun a _ => ?_
  exact .executed _ (executed_redirect _ rfl rfl (by simp) (.refl s) rfl rfl ⟨rfl, rfl⟩ (.untouched ⟨rfl, rfl⟩))

theorem jumpAndLink_outcome {l : Latch} {s : State} (rd rs1 : Reg) (imm : Word) (h : s.el = some l) :
    ExecuteOutcome (.jalr rd rs1 imm) l s (jumpAndLink rd imm s) := by
  unfold jumpAndLink
  rw [State.inExecute_some h]
  refine State.reading_elim (P := ExecuteOutcome _ l s)
    (fun e => .uncaptured (by simp [Latch.operandsCaptured, operand1, e]) rfl) fun a _ => ?_
  exact .executed _ ⟨by constructor <;> simp, rfl, rfl, by simp, ⟨rfl, rfl, rfl, rfl⟩, rfl, .inl (by simp),
    .inr ⟨⟨rfl, rfl, rfl, rfl, rfl⟩, by simp, by simp⟩,
    .inr ⟨rd, _, rfl, fun ho => commitValue_res ho rfl (by simp [writes, writesAtExecute, writesAtMemory]),
      State.publish_pendFWith _ rd _, State.publish_pendVWith _ rd _⟩, .untouched (by simp)⟩

/-- A branch resolved statically: redirected, or moved on (R194). -/
theorem staticOutcome_executed {i : Instr} {l : Latch} {s : State} (taken : Bool) (imm : Word)
    (hw : writesAtExecute i = []) (he : l.executed i = true) (hh : i ≠ .halt) :
    Executed i l l s ((staticOutcome taken l imm s).sendToMemory l) := by
  unfold staticOutcome
  split
  · exact executed_redirect _ hw he hh (.refl s) rfl rfl ⟨rfl, rfl⟩ (.untouched ⟨rfl, rfl⟩)
  · exact executed_plain hw ⟨rfl, rfl, rfl, rfl⟩ he (.inl rfl)

theorem branchStatic_outcome {i : Instr} {l : Latch} {s : State} (cond : Flags → Bool) (imm : Word) (h : s.el = some l)
    (hw : writesAtExecute i = []) (he : l.executed i = true) (hh : i ≠ .halt) :
    ExecuteOutcome i l s (branchStatic cond imm s) := by
  unfold branchStatic
  rw [State.inExecute_some h]
  exact .executed _ (staticOutcome_executed _ _ hw he hh)

theorem branchTrained_outcome {i : Instr} {l : Latch} {s : State} (op : Trained) (cond : Flags → Bool)
    (h : s.el = some l) (ht : trainedAs i = some op) (hw : writesAtExecute i = []) (he : l.executed i = true)
    (hh : i ≠ .halt) : ExecuteOutcome i l s (branchTrained op cond (displacement i) s) := by
  unfold branchTrained
  rw [State.inExecute_some h]
  refine .executed l ?_
  have hs : (trainedAs i).isSome = true := by rw [ht]; rfl
  cases hpol : s.cfg.policy with
  | fb => exact staticOutcome_executed _ _ hw he hh
  | ss =>
    simp only [trainedOutcome]
    split
    · unfold State.entryFor
      split
      · rename_i k hk
        exact executed_redirect _ hw he hh (by constructor <;> rfl) rfl rfl ⟨rfl, rfl⟩ (.taken k hpol hs hk rfl rfl)
      · rename_i hk
        exact executed_redirect _ hw he hh (by constructor <;> rfl) rfl rfl ⟨rfl, rfl⟩ (.allocated hpol hs hk rfl rfl)
    · split
      · exact executed_plain hw ⟨rfl, rfl, rfl, rfl⟩ he (.inl rfl)
      · rename_i k hk
        split
        · rename_i hp
          have hr : (s.btbEntry k).resolved = true := by
            simp only [BtbEntry.predictsTaken, Bool.and_eq_true] at hp
            exact hp.1
          exact executed_redirect _ hw he hh (by constructor <;> rfl) rfl rfl ⟨rfl, rfl⟩
            (.notTaken k hpol hs hk hr rfl rfl)
        · exact executed_plain hw ⟨rfl, rfl, rfl, rfl⟩ he (.inl rfl)

theorem passExecute_outcome {i : Instr} {l : Latch} {s : State} (h : s.el = some l) (hw : writesAtExecute i = [])
    (he : l.executed i = true) : ExecuteOutcome i l s (passExecute s) := by
  unfold passExecute
  rw [State.inExecute_some h]
  exact .executed _ (executed_plain hw ⟨rfl, rfl, rfl, rfl⟩ he (.inl rfl))

/-- What Execute can do with the occupant of `EL`, whatever the instruction. -/
theorem executeAction_outcome (i : Instr) {l : Latch} {s : State} (h : s.el = some l) :
    ExecuteOutcome i l s (executeAction i s) := by
  cases i with
  | add rd rs1 rs2 => exact computeRR_outcome _ h rfl rfl rfl rfl rfl rfl
  | sub rd rs1 rs2 => exact computeRR_outcome _ h rfl rfl rfl rfl rfl rfl
  | mul rd rs1 rs2 => exact computeRR_outcome _ h rfl rfl rfl rfl rfl rfl
  | div rd rs1 rs2 => exact computeDiv_outcome _ _ _ h
  | and rd rs1 rs2 => exact computeRR_outcome _ h rfl rfl rfl rfl rfl rfl
  | or rd rs1 rs2 => exact computeRR_outcome _ h rfl rfl rfl rfl rfl rfl
  | xor rd rs1 rs2 => exact computeRR_outcome _ h rfl rfl rfl rfl rfl rfl
  | addl rd rs1 imm => exact computeRI_outcome _ _ h rfl rfl rfl rfl rfl
  | subl rd rs1 imm => exact computeRI_outcome _ _ h rfl rfl rfl rfl rfl
  | movc rd imm => exact moveConstant_outcome _ _ h
  | cmp rs1 rs2 => exact compareRR_outcome _ _ h
  | cml rs1 imm => exact compareRI_outcome _ _ h
  | load rd rs1 imm => exact addressOfLoad_outcome _ _ _ h
  | loadp rd rs1 imm => exact addressOfLoadP_outcome _ _ _ h
  | store rs1 rs2 imm => exact addressOfStore_outcome _ _ _ h
  | storep rs1 rs2 imm => exact addressOfStoreP_outcome _ _ _ h
  | bz imm => exact branchTrained_outcome (i := .bz imm) _ _ h rfl rfl rfl (by simp)
  | bnz imm => exact branchTrained_outcome (i := .bnz imm) _ _ h rfl rfl rfl (by simp)
  | bp imm => exact branchTrained_outcome (i := .bp imm) _ _ h rfl rfl rfl (by simp)
  | bnp imm => exact branchTrained_outcome (i := .bnp imm) _ _ h rfl rfl rfl (by simp)
  | bn imm => exact branchStatic_outcome _ _ h rfl rfl (by simp)
  | bnn imm => exact branchStatic_outcome _ _ h rfl rfl (by simp)
  | jump rs1 imm => exact jumpTo_outcome _ _ h
  | jalr rd rs1 imm => exact jumpAndLink_outcome _ _ _ h
  | nop => exact passExecute_outcome h rfl rfl
  | halt => exact passExecute_outcome h rfl rfl

/-! ## Memory (44_memory_writeback.md) -/

/-- What every answer of Memory leaves as it was. -/
structure MemoryKeeps (s t : State) : Prop where
  cfg : t.cfg = s.cfg
  imem : t.imem = s.imem
  x : t.x = s.x
  pc : t.pc = s.pc
  flags : t.flags = s.flags
  fl : t.fl = s.fl
  flHeld : t.flHeld = s.flHeld
  fetchEn : t.fetchEn = s.fetchEn
  redirectPending : t.redirectPending = s.redirectPending
  dl : t.dl = s.dl
  dlStall : t.dlStall = s.dlStall
  el : t.el = s.el
  busy : t.busy = s.busy
  pendF : t.pendF = s.pendF
  pendV : t.pendV = s.pendV
  btb : t.btb = s.btb
  btbHead : t.btbHead = s.btbHead
  clock : t.clock = s.clock
  insnCompleted : t.insnCompleted = s.insnCompleted
  halted : t.halted = s.halted
  committed : t.committed = s.committed

/-- The instruction `i` left `ML` as `l` and is in `WL` as `l'`. -/
structure Accessed (i : Instr) (l l' : Latch) (s t : State) : Prop where
  keeps : MemoryKeeps s t
  wl : t.wl = some l'
  ml : t.ml = none
  fault : t.fault = s.fault
  record : l'.pc = l.pc ∧ l'.op = l.op ∧ l'.addr = l.addr ∧ l'.res2 = l.res2
  /-- A load has the word it read as its result; any other instruction keeps the one it had. -/
  result : (i.opClass = .load → l'.res.isSome = true) ∧ (i.opClass ≠ .load → l'.res = l.res)
  /-- A store writes the word its address names; nothing else writes data memory (R64). -/
  memory : t.dmem = s.dmem ∨ ∃ a v, i.opClass = .store ∧ l.addr = some a ∧ l.v1 = some v ∧ s.inMemory a = true ∧
    t.dmem = writeCells s.dmem (memIndex a) v

/-- The ways Memory can answer for the occupant `l` of `ML`. -/
inductive MemoryOutcome (i : Instr) (l : Latch) (s t : State) : Prop where
  | missing (access : accessesMemory i = true) (field : l.addr = none ∨ (i.opClass = .store ∧ l.v1 = none))
      (answer : t = s.raise .invariantFault)
  | outOfRange (a : Word) (access : accessesMemory i = true) (address : l.addr = some a) (range : s.inMemory a = false)
      (answer : t = s.raise (.memoryFault l.pc a))
  | accessed (l' : Latch) (answer : Accessed i l l' s t)

theorem loadWord_outcome {i : Instr} {l : Latch} {s : State} (h : s.ml = some l) (hi : i.opClass = .load) :
    MemoryOutcome i l s (loadWord s) := by
  unfold loadWord
  rw [State.inMemoryStage_some h]
  have ha : accessesMemory i = true := by simp [accessesMemory, hi]
  refine State.reading_elim (P := MemoryOutcome i l s) (fun e => .missing ha (.inl e) rfl) fun a e => ?_
  by_cases hr : s.inMemory a = true
  · rw [if_pos hr]
    exact .accessed _ ⟨by constructor <;> rfl, rfl, rfl, rfl, ⟨rfl, rfl, rfl, rfl⟩, ⟨fun _ => rfl, fun c => absurd hi c⟩,
      .inl rfl⟩
  · rw [if_neg hr]
    exact .outOfRange a ha e (by simpa using hr) rfl

theorem storeWord_outcome {i : Instr} {l : Latch} {s : State} (h : s.ml = some l) (hi : i.opClass = .store) :
    MemoryOutcome i l s (storeWord s) := by
  unfold storeWord
  rw [State.inMemoryStage_some h]
  have ha : accessesMemory i = true := by simp [accessesMemory, hi]
  refine State.reading_elim (P := MemoryOutcome i l s) (fun e => .missing ha (.inl e) rfl) fun a e => ?_
  by_cases hr : s.inMemory a = true
  · rw [if_pos hr]
    refine State.reading_elim (P := MemoryOutcome i l s) (fun e => .missing ha (.inr ⟨hi, e⟩) rfl) fun v ev => ?_
    exact .accessed _ ⟨by constructor <;> rfl, rfl, rfl, rfl, ⟨rfl, rfl, rfl, rfl⟩,
      ⟨fun c => by simp [hi] at c, fun _ => rfl⟩, .inr ⟨a, v, hi, e, ev, hr, rfl⟩⟩
  · rw [if_neg hr]
    exact .outOfRange a ha e (by simpa using hr) rfl

theorem passMemory_outcome {i : Instr} {l : Latch} {s : State} (h : s.ml = some l) (hi : i.opClass ≠ .load) :
    MemoryOutcome i l s (passMemory s) := by
  unfold passMemory
  rw [State.inMemoryStage_some h]
  exact .accessed _ ⟨by constructor <;> rfl, rfl, rfl, rfl, ⟨rfl, rfl, rfl, rfl⟩, ⟨fun c => absurd c hi, fun _ => rfl⟩,
    .inl rfl⟩

/-- What Memory can do with the occupant of `ML`, whatever the instruction. -/
theorem memoryAction_outcome (i : Instr) {l : Latch} {s : State} (h : s.ml = some l) :
    MemoryOutcome i l s (memoryAction i s) := by
  cases i with
  | load | loadp => exact loadWord_outcome h rfl
  | store | storep => exact storeWord_outcome h rfl
  | _ => exact passMemory_outcome h (by simp [Instr.opClass])

/-! ## Writeback (44_memory_writeback.md) -/

/-- What every answer of Writeback leaves as it was. -/
structure WritebackKeeps (s t : State) : Prop where
  cfg : t.cfg = s.cfg
  imem : t.imem = s.imem
  pc : t.pc = s.pc
  flags : t.flags = s.flags
  dmem : t.dmem = s.dmem
  fl : t.fl = s.fl
  flHeld : t.flHeld = s.flHeld
  fetchEn : t.fetchEn = s.fetchEn
  redirectPending : t.redirectPending = s.redirectPending
  dl : t.dl = s.dl
  dlStall : t.dlStall = s.dlStall
  el : t.el = s.el
  ml : t.ml = s.ml
  pendV : t.pendV = s.pendV
  btb : t.btb = s.btb
  btbHead : t.btbHead = s.btbHead
  clock : t.clock = s.clock

/-- The instruction `i`, in `WL` as `l`, was committed: exactly the registers it writes are written and released. -/
structure Committed (i : Instr) (l : Latch) (s t : State) : Prop where
  keeps : WritebackKeeps s t
  wl : t.wl = none
  fault : t.fault = s.fault
  halted : t.halted = (s.halted || decide (i = .halt))
  counted : t.insnCompleted = s.insnCompleted + 1
  reported : t.committed = some l.pc
  written : ∀ r, r ∈ writes i → l.op = .instr i → some (t.reg r) = l.commitValue r
  unwritten : ∀ r, r ∉ writes i → t.reg r = s.reg r
  released : ∀ r, t.isBusy r = (s.isBusy r && !decide (r ∈ writes i))
  unpended : ∀ r, t.isPending r = (s.isPending r && !decide (r ∈ writes i))

/-- The ways Writeback can answer for the occupant `l` of `WL`. -/
inductive WritebackOutcome (i : Instr) (l : Latch) (s t : State) : Prop where
  | missing (field : (i.opClass ≠ .store ∧ l.res = none) ∨ (postIncrements i = true ∧ l.res2 = none))
      (written : writes i ≠ []) (answer : t = s.raise .invariantFault)
  | committed (answer : Committed i l s t)

@[simp] theorem State.reg_release (s : State) (r q : Reg) : (s.release r).reg q = s.reg q := rfl
@[simp] theorem State.isBusy_setReg (s : State) (r q : Reg) (v : Word) : (s.setReg r v).isBusy q = s.isBusy q := rfl
@[simp] theorem State.isPending_setReg (s : State) (r q : Reg) (v : Word) :
    (s.setReg r v).isPending q = s.isPending q := rfl
@[simp] theorem State.reg_retire (s : State) (l : Latch) (q : Reg) : (s.retire l).reg q = s.reg q := rfl
@[simp] theorem State.isBusy_retire (s : State) (l : Latch) (q : Reg) : (s.retire l).isBusy q = s.isBusy q := rfl
@[simp] theorem State.isPending_retire (s : State) (l : Latch) (q : Reg) :
    (s.retire l).isPending q = s.isPending q := rfl

/-- A committed register (R216, R217). -/
@[simp] theorem State.reg_commitReg (s : State) (r q : Reg) (v : Word) :
    (s.commitReg r v).reg q = if q = r then v else s.reg q := by simp [State.commitReg]
@[simp] theorem State.isBusy_commitReg (s : State) (r q : Reg) (v : Word) :
    (s.commitReg r v).isBusy q = (!decide (q = r) && s.isBusy q) := by simp [State.commitReg]
@[simp] theorem State.isPending_commitReg (s : State) (r q : Reg) (v : Word) :
    (s.commitReg r v).isPending q = (!decide (q = r) && s.isPending q) := by simp [State.commitReg]

theorem commitResult_outcome {i : Instr} {l : Latch} {s : State} {rd : Reg} (h : s.wl = some l)
    (hw : writes i = [rd]) (hp : postIncrements i = false) (hs : i.opClass ≠ .store) :
    WritebackOutcome i l s (commitResult rd s) := by
  unfold commitResult
  rw [State.inWriteback_some h]
  refine State.reading_elim (P := WritebackOutcome i l s) (fun e => .missing (.inl ⟨hs, e⟩) (by simp [hw]) rfl)
    fun v e => ?_
  have hh : i ≠ .halt := by rintro rfl; cases hw
  refine .committed ⟨by constructor <;> rfl, rfl, rfl, ?_, rfl, rfl, ?_, ?_, ?_, ?_⟩
  · simp [hh, State.commitReg]
  · intro r hr ho
    rw [commitValue_res ho hp hr, e]
    simp_all
  · intro r hr
    simp_all
  · intro r; simp [hw, Bool.and_comm]
  · intro r; simp [hw, Bool.and_comm]

theorem commitLoadP_outcome {l : Latch} {s : State} (rd rs1 : Reg) (imm : Word) (h : s.wl = some l) :
    WritebackOutcome (.loadp rd rs1 imm) l s (commitLoadP rd rs1 s) := by
  unfold commitLoadP
  rw [State.inWriteback_some h]
  refine State.reading_elim (P := WritebackOutcome _ l s)
    (fun e => .missing (.inl ⟨by simp [Instr.opClass], e⟩) (by simp [writes, writesAtMemory]) rfl) fun v e => ?_
  refine State.reading_elim (P := WritebackOutcome _ l s)
    (fun e => .missing (.inr ⟨rfl, e⟩) (by simp [writes, writesAtMemory]) rfl) fun w e' => ?_
  refine .committed ⟨by constructor <;> rfl, rfl, rfl, by simp [State.commitReg], rfl, rfl, ?_, ?_, ?_, ?_⟩
  · intro r hr ho
    simp only [Latch.commitValue, ho, State.reg_retire, State.reg_commitReg]
    simp only [writes, writesAtMemory, writesAtExecute, List.cons_append, List.nil_append, List.mem_cons,
      List.not_mem_nil, or_false] at hr
    split
    · exact e'.symm
    · rcases hr with rfl | rfl
      · simp [e]
      · exact absurd rfl ‹_›
  · intro r hr
    simp only [writes, writesAtMemory, writesAtExecute, List.cons_append, List.nil_append, List.mem_cons,
      List.not_mem_nil, or_false, not_or] at hr
    simp [hr.1, hr.2]
  · intro r
    by_cases h1 : r = rd <;> by_cases h2 : r = rs1 <;> simp [writes, writesAtMemory, writesAtExecute, h1, h2]
  · intro r
    by_cases h1 : r = rd <;> by_cases h2 : r = rs1 <;> simp [writes, writesAtMemory, writesAtExecute, h1, h2]

theorem commitBase_outcome {l : Latch} {s : State} (rs1 rs2 : Reg) (imm : Word) (h : s.wl = some l) :
    WritebackOutcome (.storep rs1 rs2 imm) l s (commitBase rs2 s) := by
  unfold commitBase
  rw [State.inWriteback_some h]
  refine State.reading_elim (P := WritebackOutcome _ l s)
    (fun e => .missing (.inr ⟨rfl, e⟩) (by simp [writes, writesAtExecute, writesAtMemory]) rfl) fun w e' => ?_
  refine .committed ⟨by constructor <;> rfl, rfl, rfl, by simp [State.commitReg], rfl, rfl, ?_, ?_, ?_, ?_⟩
  · intro r hr ho
    simp_all [Latch.commitValue, writes, writesAtMemory, writesAtExecute]
  · intro r hr
    simp_all [writes, writesAtMemory, writesAtExecute]
  · intro r; simp [writes, writesAtMemory, writesAtExecute, Bool.and_comm]
  · intro r; simp [writes, writesAtMemory, writesAtExecute, Bool.and_comm]

theorem commitNothing_outcome {i : Instr} {l : Latch} {s : State} (h : s.wl = some l) (hw : writes i = [])
    (hh : i ≠ .halt) : WritebackOutcome i l s (commitNothing s) := by
  unfold commitNothing
  rw [State.inWriteback_some h]
  exact .committed ⟨by constructor <;> rfl, rfl, rfl, by simp [hh], rfl, rfl, by simp [hw], by simp, by simp [hw],
    by simp [hw]⟩

theorem commitHalt_outcome {l : Latch} {s : State} (h : s.wl = some l) : WritebackOutcome .halt l s (commitHalt s) := by
  unfold commitHalt
  rw [State.inWriteback_some h]
  have hw : writes .halt = [] := rfl
  exact .committed ⟨by constructor <;> rfl, rfl, rfl, by simp, rfl, rfl, by simp [hw], fun _ _ => rfl,
    fun _ => by simp [hw]; rfl, fun _ => by simp [hw]; rfl⟩

/-- What Writeback can do with the occupant of `WL`, whatever the instruction. -/
theorem writebackAction_outcome (i : Instr) {l : Latch} {s : State} (h : s.wl = some l) :
    WritebackOutcome i l s (writebackAction i s) := by
  cases i with
  | loadp => exact commitLoadP_outcome _ _ _ h
  | storep => exact commitBase_outcome _ _ _ h
  | halt => exact commitHalt_outcome h
  | store | cmp | cml | bz | bnz | bp | bnp | bn | bnn | jump | nop => exact commitNothing_outcome h rfl (by simp)
  | _ => exact commitResult_outcome h rfl rfl (by simp [Instr.opClass])

/-! ## Decode (42_decode_hazard.md) -/

/-- What every answer of Decode leaves as it was. -/
structure DecodeKeeps (s t : State) : Prop where
  cfg : t.cfg = s.cfg
  imem : t.imem = s.imem
  x : t.x = s.x
  pc : t.pc = s.pc
  flags : t.flags = s.flags
  dmem : t.dmem = s.dmem
  fl : t.fl = s.fl
  flHeld : t.flHeld = s.flHeld
  fetchEn : t.fetchEn = s.fetchEn
  redirectPending : t.redirectPending = s.redirectPending
  ml : t.ml = s.ml
  wl : t.wl = s.wl
  pendF : t.pendF = s.pendF
  pendV : t.pendV = s.pendV
  clock : t.clock = s.clock
  insnCompleted : t.insnCompleted = s.insnCompleted
  halted : t.halted = s.halted
  committed : t.committed = s.committed

/-- What becomes of the predictor at Decode: nothing, or an entry for a branch that has none (R153). -/
inductive Allocates (i : Instr) (p : Word) (s t : State) : Prop where
  | untouched (same : t.btb = s.btb ∧ t.btbHead = s.btbHead)
  | allocated (policy : s.cfg.policy = .ss) (trained : (trainedAs i).isSome = true) (absent : s.btbFind p = none)
      (table : t.btb = (s.btbAlloc p).btb) (head : t.btbHead = (s.btbAlloc p).btbHead)

/-- The instruction `i`, in `DL` as `l`, was admitted to `EL` (R163, R164, R166). -/
structure Admitted (i : Instr) (l : Latch) (s t : State) : Prop where
  keeps : DecodeKeeps s t
  fault : t.fault = s.fault
  noHazard : s.stalls i = false
  el : t.el = some { l with v1 := (operand1 i).map s.opnd, v2 := (operand2 i).map s.opnd }
  dl : t.dl = none
  dlStall : t.dlStall = false
  busy : ∀ r, t.isBusy r = (decide (r ∈ writes i) || s.isBusy r)
  predictor : Allocates i l.pc s t

/-- The ways Decode can answer for the occupant `l` of `DL`. -/
inductive DecodeOutcome (i : Instr) (l : Latch) (s t : State) : Prop where
  | refused (hazard : s.stalls i = true) (answer : t = { s with dlStall := true })
  | admitted (answer : Admitted i l s t)

@[simp] theorem State.isBusy_btbAlloc (s : State) (p : Word) (r : Reg) : (s.btbAlloc p).isBusy r = s.isBusy r := rfl
@[simp] theorem State.opnd_btbAlloc (s : State) (p : Word) : (s.btbAlloc p).opnd = s.opnd := rfl
@[simp] theorem State.stalls_btbAlloc (s : State) (p : Word) (i : Instr) : (s.btbAlloc p).stalls i = s.stalls i := rfl

/-- Decode of an instruction that meets a hazard only sets `DL.stall` (R165). -/
theorem decodeStage_refuses {i : Instr} {l : Latch} {s : State} (h : s.dl = some l) (hz : s.stalls i = true) :
    decodeStage i s = { s with dlStall := true } := by
  unfold decodeStage
  split
  · simp_all
  · rw [if_pos hz]

/-- Decode of an instruction that meets no hazard (R163, R164, R166). -/
theorem decodeStage_admits {i : Instr} {l : Latch} {s : State} (h : s.dl = some l) (hz : s.stalls i = false) :
    decodeStage i s = { (s.markAll (writes i)) with
      el := some { l with v1 := (operand1 i).map s.opnd, v2 := (operand2 i).map s.opnd }
      dl := none
      dlStall := false } := by
  unfold decodeStage
  split
  · simp_all
  · rename_i l' hl
    obtain rfl : l = l' := by simpa [h] using hl
    rw [if_neg (by simp [hz])]

theorem decodeStage_outcome (i : Instr) {l : Latch} {s : State} (h : s.dl = some l) :
    DecodeOutcome i l s (decodeStage i s) := by
  cases hz : s.stalls i with
  | true => exact .refused hz (decodeStage_refuses h hz)
  | false =>
    rw [decodeStage_admits h hz]
    exact .admitted ⟨by constructor <;> simp, by simp, hz, rfl, rfl, rfl, fun r => State.isBusy_markAll s _ r,
      .untouched (by simp)⟩

/-- An instruction that reads and writes no register meets no hazard (R161, R162). -/
theorem stalls_of_no_registers {i : Instr} (s : State) (hs : sources i = []) (hw : writes i = []) :
    s.stalls i = false := by
  unfold State.stalls
  cases s.cfg.policy <;> simp [State.stallSS, State.stallFB, hs, hw]

theorem decodeTrained_outcome {i : Instr} {op : Trained} {l : Latch} {s : State} (h : s.dl = some l)
    (ht : trainedAs i = some op) (hs : sources i = []) (hw : writes i = []) :
    DecodeOutcome i l s (decodeTrained i s) := by
  have keep : DecodeOutcome i l s (decodeStage i s) := decodeStage_outcome i h
  unfold decodeTrained allocateIfMissing
  rw [h]
  split
  · rename_i l' hp hl
    cases hl
    split
    · rename_i hf
      have hz : s.stalls i = false := stalls_of_no_registers s hs hw
      rw [decodeStage_admits (s := s.btbAlloc l.pc) h hz]
      exact .admitted ⟨by constructor <;> simp, by simp, hz, rfl, rfl, rfl, fun r => State.isBusy_markAll _ _ r,
        .allocated hp (by simp [ht]) hf (by simp) (by simp)⟩
    · exact keep
  · exact keep

/-- What Decode can do with the occupant of `DL`, whatever the instruction. -/
theorem decodeAction_outcome (i : Instr) {l : Latch} {s : State} (h : s.dl = some l) :
    DecodeOutcome i l s (decodeAction i s) := by
  cases i with
  | bz imm => exact decodeTrained_outcome (op := .bz) h rfl rfl rfl
  | bnz imm => exact decodeTrained_outcome (op := .bnz) h rfl rfl rfl
  | bp imm => exact decodeTrained_outcome (op := .bp) h rfl rfl rfl
  | bnp imm => exact decodeTrained_outcome (op := .bnp) h rfl rfl rfl
  | _ => exact decodeStage_outcome _ h

/-! ## Fetch (41_fetch.md) -/

/-- Fetch of every instruction loads its own record and moves the pc to some address; HALT alone disables Fetch (R137). -/
theorem fetchAction_eq (i : Instr) :
    ∃ next, fetchAction i = fetchWith (.instr i) (decide (i = .halt)) next := by
  by_cases h : i = .halt
  · subst h
    exact ⟨sequentialPc, rfl⟩
  · rw [show decide (i = .halt) = false by simpa using h]
    cases i <;> first | exact absurd rfl h | exact ⟨_, rfl⟩

/-- The state after a latch is forwarded to an empty `DL` (R132, R135, R137). -/
def State.forwarded (s : State) (l : Latch) : State :=
  { s with dl := some l, dlStall := false, flHeld := false, fetchEn := s.fetchEn && !decide (l.op = .instr .halt) }

theorem fetchWith_held_waits {s : State} (op : Fetched) (halts : Bool) (next : State → Word) (hh : s.flHeld = true)
    (hd : s.dl.isSome = true) : fetchWith op halts next s = s := by
  obtain ⟨d, hd⟩ := Option.isSome_iff_exists.mp hd
  simp [fetchWith, hh, hd]

theorem fetchWith_held_forwards {s : State} {l : Latch} (op : Fetched) (halts : Bool) (next : State → Word)
    (hh : s.flHeld = true) (hd : s.dl = none) (hf : s.fl = some l) (ho : halts = decide (l.op = .instr .halt)) :
    fetchWith op halts next s = s.forwarded l := by
  simp [fetchWith, hh, hd, State.forward, hf, ho, State.forwarded]

theorem fetchWith_loads {s : State} (op : Fetched) (halts : Bool) (next : State → Word) (hh : s.flHeld = false)
    (hd : s.dl = none) (ho : halts = decide (op = .instr .halt)) :
    fetchWith op halts next s =
      { s with fl := some (Latch.fresh s.pc op), pc := next s }.forwarded (Latch.fresh s.pc op) := by
  subst ho
  simp only [fetchWith, hh, hd, State.forward]
  rfl

theorem fetchWith_holds {s : State} (op : Fetched) (halts : Bool) (next : State → Word) (hh : s.flHeld = false)
    (hd : s.dl.isSome = true) :
    fetchWith op halts next s = { s with fl := some (Latch.fresh s.pc op), pc := next s, flHeld := true } := by
  obtain ⟨d, hd⟩ := Option.isSome_iff_exists.mp hd
  simp [fetchWith, hh, hd]

/-- The ways Fetch can answer (R130 to R139). -/
inductive FetchOutcome (s t : State) : Prop where
  | bubble (pending : s.redirectPending = true) (answer : t = { s with redirectPending := false })
  | disabled (pending : s.redirectPending = false) (held : s.flHeld = false) (enabled : s.fetchEn = false)
      (answer : t = s)
  | waits (pending : s.redirectPending = false) (held : s.flHeld = true) (latch : s.fl.isSome = true)
      (occupied : s.dl.isSome = true) (answer : t = s.at .fetch)
  | missing (pending : s.redirectPending = false) (held : s.flHeld = true) (latch : s.fl = none)
      (answer : t = s.raise .invariantFault)
  | retried (l : Latch) (pending : s.redirectPending = false) (held : s.flHeld = true) (latch : s.fl = some l)
      (empty : s.dl = none) (answer : t = (s.at .fetch).forwarded l)
  | loads (n : Word) (pending : s.redirectPending = false) (held : s.flHeld = false) (enabled : s.fetchEn = true)
      (empty : s.dl = none)
      (answer : t = { s.at .fetch with fl := some (Latch.fresh s.pc (s.ifetch s.pc)), pc := n }.forwarded
        (Latch.fresh s.pc (s.ifetch s.pc)))
  | holds (n : Word) (pending : s.redirectPending = false) (held : s.flHeld = false) (enabled : s.fetchEn = true)
      (occupied : s.dl.isSome = true)
      (answer : t = { s.at .fetch with fl := some (Latch.fresh s.pc (s.ifetch s.pc)), pc := n, flHeld := true })

/-- A record or INVALID at Fetch is one `fetchWith`. -/
theorem fetchOpState_eq (op : Fetched) (s : State) :
    ∃ next, fetchOpState op s = fetchWith op (decide (op = .instr .halt)) next (s.at .fetch) := by
  cases op with
  | invalid => exact ⟨sequentialPc, rfl⟩
  | instr i =>
    obtain ⟨next, h⟩ := fetchAction_eq i
    exact ⟨next, by simp [fetchOpState, h]⟩

/-- What Fetch can do. -/
theorem fetchState_outcome (s : State) : FetchOutcome s (fetchState s) := by
  unfold fetchState
  by_cases hp : s.redirectPending = true
  · rw [if_pos hp]; exact .bubble hp rfl
  rw [if_neg hp]
  have hp : s.redirectPending = false := by simpa using hp
  by_cases hh : s.flHeld = true
  · rw [if_pos hh]
    cases hf : s.fl with
    | none => exact .missing hp hh hf rfl
    | some l =>
      obtain ⟨next, e⟩ := fetchOpState_eq l.op s
      show FetchOutcome s (fetchOpState l.op s)
      rw [e]
      cases hd : s.dl with
      | none => exact .retried l hp hh hf hd (fetchWith_held_forwards (s := s.at .fetch) _ _ _ hh hd hf rfl)
      | some d =>
        exact .waits hp hh (by simp [hf]) (by simp [hd])
          (fetchWith_held_waits (s := s.at .fetch) _ _ _ hh (by simp [hd]))
  · rw [if_neg hh]
    have hh : s.flHeld = false := by simpa using hh
    by_cases he : s.fetchEn = true
    · rw [if_pos he]
      obtain ⟨next, e⟩ := fetchOpState_eq (s.ifetch s.pc) s
      rw [e]
      cases hd : s.dl with
      | none => exact .loads _ hp hh he hd (fetchWith_loads (s := s.at .fetch) _ _ _ hh hd rfl)
      | some d => exact .holds _ hp hh he (by simp [hd]) (fetchWith_holds (s := s.at .fetch) _ _ _ hh (by simp [hd]))
    · rw [if_neg he]
      exact .disabled hp hh (by simpa using he) rfl

/-! ## The stage procedures: every way each can answer -/

/-- `Writeback()` on an empty `WL`, on INVALID, or on an instruction (R215). -/
theorem writebackState_elim {P : State → Prop} (s : State) (empty : s.wl = none → P s)
    (invalid : ∀ l, s.wl = some l → l.op = .invalid → P ((s.at .writeback).raise .invariantFault))
    (occupied : ∀ l i t, s.wl = some l → l.op = .instr i → WritebackOutcome i l (s.at .writeback) t → P t) :
    P (writebackState s) := by
  unfold writebackState
  split
  · exact empty ‹_›
  · rename_i l h
    split
    · exact occupied l _ _ h ‹_› (writebackAction_outcome (s := s.at .writeback) _ h)
    · exact invalid l h ‹_›

/-- `Memory()` on an empty `ML`, on INVALID, or on an instruction (R210). -/
theorem memoryState_elim {P : State → Prop} (s : State) (empty : s.ml = none → P s)
    (invalid : ∀ l, s.ml = some l → l.op = .invalid → P ((s.at .memory).raise .invariantFault))
    (occupied : ∀ l i t, s.ml = some l → l.op = .instr i → MemoryOutcome i l (s.at .memory) t → P t) :
    P (memoryState s) := by
  unfold memoryState
  split
  · exact empty ‹_›
  · rename_i l h
    split
    · exact occupied l _ _ h ‹_› (memoryAction_outcome (s := s.at .memory) _ h)
    · exact invalid l h ‹_›

/-- `Execute()` on an empty `EL`, on INVALID, or on an instruction (R180). -/
theorem executeState_elim {P : State → Prop} (s : State) (empty : s.el = none → P s)
    (invalid : ∀ l, s.el = some l → l.op = .invalid → P ((s.at .execute).raise .invariantFault))
    (occupied : ∀ l i t, s.el = some l → l.op = .instr i → ExecuteOutcome i l (s.at .execute) t → P t) :
    P (executeState s) := by
  unfold executeState
  split
  · exact empty ‹_›
  · rename_i l h
    split
    · exact occupied l _ _ h ‹_› (executeAction_outcome (s := s.at .execute) _ h)
    · exact invalid l h ‹_›

/-- `Decode()` on an empty `DL`, on INVALID, or on an instruction (R150, R152). -/
theorem decodeState_elim {P : State → Prop} (s : State) (empty : s.dl = none → P s)
    (invalid : ∀ l, s.dl = some l → l.op = .invalid → P (s.raise (.fetchFault l.pc)))
    (occupied : ∀ l i t, s.dl = some l → l.op = .instr i → DecodeOutcome i l (s.at .decode) t → P t) :
    P (decodeState s) := by
  unfold decodeState
  split
  · exact empty ‹_›
  · rename_i l h
    split
    · exact occupied l _ _ h ‹_› (decodeAction_outcome (s := s.at .decode) _ h)
    · exact invalid l h ‹_›

theorem writebackState_keeps (s : State) : WritebackKeeps s (writebackState s) :=
  writebackState_elim s (fun _ => by constructor <;> rfl) (fun _ _ _ => by constructor <;> rfl) fun _ _ _ _ _ o => by
    cases o with
    | missing _ _ a => rw [a]; constructor <;> rfl
    | committed a =>
      obtain ⟨h1, h2, h3, h4, h5, h6, h7, h8, h9, h10, h11, h12, h13, h14, h15, h16, h17⟩ := a.keeps
      exact ⟨h1, h2, h3, h4, h5, h6, h7, h8, h9, h10, h11, h12, h13, h14, h15, h16, h17⟩

theorem memoryState_keeps (s : State) : MemoryKeeps s (memoryState s) :=
  memoryState_elim s (fun _ => by constructor <;> rfl) (fun _ _ _ => by constructor <;> rfl) fun _ _ _ _ _ o => by
    cases o with
    | missing _ _ a => rw [a]; constructor <;> rfl
    | outOfRange _ _ _ _ a => rw [a]; constructor <;> rfl
    | accessed _ a =>
      obtain ⟨h1, h2, h3, h4, h5, h6, h7, h8, h9, h10, h11, h12, h13, h14, h15, h16, h17, h18, h19, h20, h21⟩ := a.keeps
      exact ⟨h1, h2, h3, h4, h5, h6, h7, h8, h9, h10, h11, h12, h13, h14, h15, h16, h17, h18, h19, h20, h21⟩

theorem executeState_keeps (s : State) : ExecuteKeeps s (executeState s) :=
  executeState_elim s (fun _ => by constructor <;> rfl) (fun _ _ _ => by constructor <;> rfl) fun _ _ _ _ _ o => by
    cases o with
    | uncaptured _ a => rw [a]; constructor <;> rfl
    | divides a => rw [a]; constructor <;> rfl
    | executed _ a =>
      obtain ⟨h1, h2, h3, h4, h5, h6, h7, h8, h9, h10, h11⟩ := a.keeps
      exact ⟨h1, h2, h3, h4, h5, h6, h7, h8, h9, h10, h11⟩

theorem decodeState_keeps (s : State) : DecodeKeeps s (decodeState s) :=
  decodeState_elim s (fun _ => by constructor <;> rfl) (fun _ _ _ => by constructor <;> rfl) fun _ _ _ _ _ o => by
    cases o with
    | refused _ a => rw [a]; constructor <;> rfl
    | admitted a =>
      obtain ⟨h1, h2, h3, h4, h5, h6, h7, h8, h9, h10, h11, h12, h13, h14, h15, h16, h17, h18⟩ := a.keeps
      exact ⟨h1, h2, h3, h4, h5, h6, h7, h8, h9, h10, h11, h12, h13, h14, h15, h16, h17, h18⟩

/-- Everything Fetch leaves as it was, beside the Fetch side itself. -/
structure FetchKeeps (s t : State) : Prop where
  cfg : t.cfg = s.cfg
  imem : t.imem = s.imem
  clock : t.clock = s.clock
  x : t.x = s.x
  flags : t.flags = s.flags
  dmem : t.dmem = s.dmem
  el : t.el = s.el
  ml : t.ml = s.ml
  wl : t.wl = s.wl
  busy : t.busy = s.busy
  pendF : t.pendF = s.pendF
  pendV : t.pendV = s.pendV
  btb : t.btb = s.btb
  btbHead : t.btbHead = s.btbHead
  insnCompleted : t.insnCompleted = s.insnCompleted
  halted : t.halted = s.halted
  committed : t.committed = s.committed

theorem fetchState_keeps (s : State) : FetchKeeps s (fetchState s) := by
  have o := fetchState_outcome s
  generalize fetchState s = t at o
  cases o with
  | bubble _ a => subst a; constructor <;> rfl
  | disabled _ _ _ a => subst a; constructor <;> rfl
  | waits _ _ _ _ a => subst a; constructor <;> rfl
  | missing _ _ _ a => subst a; constructor <;> rfl
  | retried _ _ _ _ _ a => subst a; constructor <;> rfl
  | loads _ _ _ _ _ a => subst a; constructor <;> rfl
  | holds _ _ _ _ _ a => subst a; constructor <;> rfl

end Sys2Proof.Machine
end

