-- ==== Sys2Proof/Laws/WellFormed.lean ====
section
/-! SUPPORT. The checks of WellFormed.lean as propositions. -/

namespace Sys2Proof.Machine

/-- Everything that `initialize` asks of the parameters (60_exceptions.md R335, log 23). -/
theorem wellFormed_iff (P : Params) : P.wellFormed = true ↔
    1 ≤ P.btbEntries ∧ (∀ m : Trained, P.takenMin m = 1 ∨ P.takenMin m = 2) ∧
      1 ≤ P.xlen ∧ P.xlen ≤ 32 ∧ 1 ≤ P.nreg ∧ P.nreg ≤ 16 ∧ 1 ≤ P.insnStride ∧ 1 ≤ P.dmemWords ∧
      P.ctrNeutral ≤ P.ctrMax ∧ P.ctrMax ≤ 3 ∧
      -(2 : Int) ^ (P.xlen - 1) ≤ P.codeBase.toInt ∧ P.codeBase.toInt < 2 ^ (P.xlen - 1) := by
  have hm : (∀ m : Trained, P.takenMin m = 1 ∨ P.takenMin m = 2) ↔
      (P.minBZ = 1 ∨ P.minBZ = 2) ∧ (P.minBNZ = 1 ∨ P.minBNZ = 2) ∧ (P.minBP = 1 ∨ P.minBP = 2) ∧
        (P.minBNP = 1 ∨ P.minBNP = 2) :=
    ⟨fun h => ⟨h .bz, h .bnz, h .bp, h .bnp⟩, fun ⟨a, b, c, d⟩ m => by cases m <;> assumption⟩
  rw [hm]
  simp only [Params.wellFormed, Params.sizesWellFormed, Params.predictorWellFormed, takenMinWellFormed, Bool.and_eq_true,
    decide_eq_true_eq, Bool.or_eq_true, beq_iff_eq, Params.holds_iff]
  constructor
  · rintro ⟨⟨⟨⟨⟨⟨⟨a, b⟩, c⟩, d⟩, e⟩, f⟩, g⟩, ⟨⟨⟨⟨⟨⟨h, i⟩, j⟩, k⟩, l⟩, m⟩, n⟩⟩
    exact ⟨h, ⟨k, l, m, n⟩, a, b, c, d, e, f, j, i, g⟩
  · rintro ⟨h, ⟨k, l, m, n⟩, a, b, c, d, e, f, j, i, g⟩
    exact ⟨⟨⟨⟨⟨⟨⟨a, b⟩, c⟩, d⟩, e⟩, f⟩, g⟩, ⟨⟨⟨⟨⟨⟨h, i⟩, j⟩, k⟩, l⟩, m⟩, n⟩⟩

/-- An instruction whose registers and immediate are in range (30_encoding.md R96). -/
theorem inRange_iff (P : Params) (i : Instr) : i.inRange P = true ↔
    (∀ r ∈ i.registers, r.val < P.nreg) ∧
      ∀ v, i.immediate = some v → -(2 : Int) ^ (P.xlen - 1) ≤ v.toInt ∧ v.toInt < 2 ^ (P.xlen - 1) := by
  unfold Instr.inRange
  cases i.immediate <;> simp [Params.holds_iff]

end Sys2Proof.Machine
end

