-- ==== Sys2Proof/Tests/Slice0.lean ====
section
/-! SUPPORT. Small tests: every constructor's word written out from the table of 30_encoding.md R84, the checks of
WellFormed.lean and of the decoder, and each instruction in one stage. Expected values are those of 95_test_vectors.md; each
test names its row there. -/

namespace Sys2Proof.Tests

open Sys2Proof Sys2Proof.Machine

/-! ## Decoding: one word for each constructor (bytes `opcode rd rs1 rs2`, then `imm`) -/

theorem test_decode_add : decode 0x0002000100000000#64 = .ok (.add 2 0 1) := by decide
theorem test_decode_sub : decode 0x010F030400000000#64 = .ok (.sub 15 3 4) := by decide
theorem test_decode_mul : decode 0x0201020300000000#64 = .ok (.mul 1 2 3) := by decide
theorem test_decode_div : decode 0x0303010200000000#64 = .ok (.div 3 1 2) := by decide
theorem test_decode_and : decode 0x0405060700000000#64 = .ok (.and 5 6 7) := by decide
theorem test_decode_or : decode 0x05080F0000000000#64 = .ok (.or 8 15 0) := by decide
theorem test_decode_xor : decode 0x0609000F00000000#64 = .ok (.xor 9 0 15) := by decide
theorem test_decode_movc : decode 0x07010000FFFFFFFA#64 = .ok (.movc 1 (-6)) := by decide
theorem test_decode_load : decode 0x08030100FFFFFFFD#64 = .ok (.load 3 1 (-3)) := by decide
theorem test_decode_store : decode 0x0900020100000001#64 = .ok (.store 2 1 1) := by decide
theorem test_decode_bz : decode 0x0A00000000000008#64 = .ok (.bz 8) := by decide
theorem test_decode_bnz : decode 0x0B000000FFFFFFF8#64 = .ok (.bnz (-8)) := by decide
theorem test_decode_halt : decode 0x0C00000000000000#64 = .ok .halt := by decide
theorem test_decode_addl : decode 0x0D0202000000000A#64 = .ok (.addl 2 2 10) := by decide
theorem test_decode_subl : decode 0x0E01010000000001#64 = .ok (.subl 1 1 1) := by decide
theorem test_decode_loadp : decode 0x0F040100FFFFFFFC#64 = .ok (.loadp 4 1 (-4)) := by decide
theorem test_decode_storep : decode 0x1000020100000000#64 = .ok (.storep 2 1 0) := by decide
theorem test_decode_cmp : decode 0x1100030E00000000#64 = .ok (.cmp 3 14) := by decide
theorem test_decode_cml : decode 0x12000800FFFFFFFF#64 = .ok (.cml 8 (-1)) := by decide
theorem test_decode_bp : decode 0x1300000000000010#64 = .ok (.bp 16) := by decide
theorem test_decode_bnp : decode 0x140000007FFFFFFF#64 = .ok (.bnp 0x7FFFFFFF) := by decide
theorem test_decode_bn : decode 0x1500000080000000#64 = .ok (.bn 0x80000000) := by decide
theorem test_decode_bnn : decode 0x1600000000000000#64 = .ok (.bnn 0) := by decide
theorem test_decode_jump : decode 0x17000E0000000000#64 = .ok (.jump 14 0) := by decide
theorem test_decode_jalr : decode 0x180E000000000FB4#64 = .ok (.jalr 14 0 4020) := by decide
theorem test_decode_nop : decode 0x1900000000000000#64 = .ok .nop := by decide

/-- R88: an opcode byte above `0x19`. -/
theorem test_decode_refuses_opcode : decode 0xFF00000000000000#64 = .error (.unknownOpcode 0xFF#8) := by decide
/-- R88: a register field of 16 or more, one field of each place. -/
theorem test_decode_refuses_register : decode 0x0010000000000000#64 = .error (.registerOutOfRange 0x10#8) ∧
    decode 0x1700FF0000000000#64 = .error (.registerOutOfRange 0xFF#8) ∧
    decode 0x1100001000000000#64 = .error (.registerOutOfRange 0x10#8) := by decide
/-- R88, R93: a field that the format does not use is not zero. -/
theorem test_decode_refuses_unused : decode 0x0002000100000001#64 = .error .unusedFieldNotZero ∧
    decode 0x0701010000000005#64 = .error .unusedFieldNotZero ∧
    decode 0x0C00000100000000#64 = .error .unusedFieldNotZero := by decide
/-- R93: the packed word of `ADD R2,R0,R1` and of `BNZ,#-8`, written by the encoder. -/
theorem test_encode : encode (.add 2 0 1) = 0x0002000100000000#64 ∧ encode (.bnz (-8)) = 0x0B000000FFFFFFF8#64 := by decide
/-- The table's bit numbers give the same word: `HALT` and a word of more than 64 bits. -/
theorem test_decodeTableWord : decodeTableWord 64 0x0C00000000000000 = some .halt ∧ decodeTableWord 72 0 = none := by
  decide

/-! ## What the load checks (30_encoding.md R94, R96, 60_exceptions.md R335) -/

/-- M10: `LOADP R1,R1,#0` is refused; `STOREP R1,R1,#0` (M14) is not. -/
theorem test_loadp_same_register_refused : Instr.wellFormed (.loadp 1 1 0) = false ∧
    Instr.wellFormed (.loadp 1 0 0) = true ∧ Instr.wellFormed (.storep 1 1 0) = true := by decide
theorem test_loadp_program_refused :
    initEngine (.standard .ss) [.loadp 1 1 0, .halt] = .refused (.loadError .refusedForm) := rfl
/-- F7: the empty program. -/
theorem test_empty_program_refused : initEngine (.standard .ss) [] = .refused (.loadError .emptyProgram) := rfl
theorem test_no_predictor_entry_refused :
    initEngine { Params.standard .ss with btbEntries := 0 } [.halt] = .refused (.loadError .badParameters) := rfl
theorem test_no_memory_refused :
    initEngine { Params.standard .fb with dmemWords := 0 } [.halt] = .refused (.loadError .badParameters) := rfl
theorem test_taken_min_refused : Params.wellFormed { Params.standard .ss with minBP := 3 } = false ∧
    Params.wellFormed { Params.standard .ss with minBZ := 0 } = false ∧
    Params.wellFormed { Params.standard .ss with minBNZ := 2 } = true := by decide
theorem test_ill_formed_word_refused : initEngineWords (.standard .ss) [0x1A00000000000000#64] =
    .refused (.loadError (.illFormedWord (.unknownOpcode 0x1A#8))) := rfl

/-- A core of 8 bits and 8 registers. -/
def narrow : Params := { Params.standard .fb with xlen := 8, nreg := 8, codeBase := 40#32 }

/-- R96: a register that a smaller core does not have, and an immediate outside a narrower range, next to the last of each. -/
theorem test_operand_out_of_range_refused :
    initEngine narrow [.add 8 0 0] = .refused (.loadError .operandOutOfRange) ∧
      initEngine narrow [.movc 0 128#32] = .refused (.loadError .operandOutOfRange) ∧
      initEngine narrow [.movc 7 (-128)] = .next (State.resetWith narrow [.movc 7 (-128)]) := ⟨rfl, rfl, rfl⟩
/-- Which reason is answered when several checks fail (log 22). -/
theorem test_load_error_order :
    initEngine { narrow with nreg := 0 } [] = .refused (.loadError .badParameters) ∧
      initEngine narrow [.loadp 1 1 0, .jump 8 0] = .refused (.loadError .operandOutOfRange) ∧
      initEngineWords { narrow with nreg := 0 } [0x1A00000000000000#64] =
        .refused (.loadError (.illFormedWord (.unknownOpcode 0x1A#8))) := ⟨rfl, rfl, rfl⟩
/-- R10: `wrap` to 8 bits at the edges of the range. -/
theorem test_wrap_narrow : addWords narrow 127#32 1#32 = (-128) ∧ subWords narrow (-128) 1#32 = 127#32 ∧
    mulWords narrow 16#32 16#32 = 0#32 ∧ divFaults narrow (-128) (-1) = true ∧ divFaults narrow (-127) (-1) = false := by
  decide

/-! ## One instruction in one stage -/

/-- The next state of an answer. -/
def after (r : Result State) : State :=
  match r with
  | .next s => s
  | _ => State.reset

/-- `i` alone in `EL`, fetched from 4008, with operand values and flags, under `FB`. -/
def atExecute (i : Instr) (v1 v2 : Word) (f : Flags) : State :=
  { State.resetWith (Params.standard .fb) [] with
    turn := .execute
    flags := f
    el := some { Latch.fresh 4008#32 (.instr i) with v1 := some v1, v2 := some v2 } }

/-- All flags false, as after reset. -/
def noFlags : Flags := ⟨false, false, false⟩

/-- What Execute leaves: the result buffered in `ML`, and the flags. -/
def computed (i : Instr) (v1 v2 : Word) : Option Word × Flags :=
  let t := after (exec i (atExecute i v1 v2 noFlags))
  (t.ml.bind (·.res), t.flags)

/-- A2 -/
theorem test_add_wraps : computed (.add 2 0 1) 0x7FFFFFFF#32 1#32 = (some 0x80000000#32, ⟨false, false, true⟩) := by decide
/-- A8 -/
theorem test_sub_negates_min : computed (.sub 2 0 1) 0#32 0x80000000#32 = (some 0x80000000#32, ⟨false, false, true⟩) := by
  decide
/-- A11 -/
theorem test_mul_wraps : computed (.mul 2 0 1) 46341#32 46341#32 = (some (-2147479015), ⟨false, false, true⟩) := by decide
/-- A15 -/
theorem test_div_truncates : computed (.div 2 0 1) (-7) 2#32 = (some (-3), ⟨false, false, true⟩) := by decide
/-- A23: no result, no flag, the fault with the division's own address. -/
theorem test_div_min_by_minus_one :
    (after (exec (.div 2 0 1) (atExecute (.div 2 0 1) 0x80000000#32 (-1) noFlags))).fault = some (.arithmeticFault 4008#32) ∧
      computed (.div 2 0 1) 0x80000000#32 (-1) = (none, noFlags) := by decide
/-- LG1 -/
theorem test_and : computed (.and 2 0 1) (-6) 7#32 = (some 2#32, ⟨false, true, false⟩) := by decide
/-- LG4 -/
theorem test_or : computed (.or 2 0 1) (-6) 7#32 = (some (-1), ⟨false, false, true⟩) := by decide
/-- LG8 -/
theorem test_xor_self : computed (.xor 2 0 1) 12345#32 12345#32 = (some 0#32, ⟨true, false, false⟩) := by decide
/-- I3 -/
theorem test_addl : computed (.addl 2 0 (-5)) 5#32 0#32 = (some 0#32, ⟨true, false, false⟩) := by decide
/-- I6 -/
theorem test_subl : computed (.subl 2 0 1) 0x80000000#32 0#32 = (some 0x7FFFFFFF#32, ⟨false, true, false⟩) := by decide
/-- I11: MOVC of 0 sets no flag. -/
theorem test_movc_zero : computed (.movc 2 0) 0#32 0#32 = (some 0#32, noFlags) := by decide
/-- K5: the comparison is direct; a wrapped subtraction would say P. -/
theorem test_cmp_direct : computed (.cmp 0 1) 0x80000000#32 1#32 = (none, ⟨false, false, true⟩) := by decide
/-- K10 -/
theorem test_cml_direct : computed (.cml 0 (-1)) 0x7FFFFFFF#32 0#32 = (none, ⟨false, true, false⟩) := by decide

/-- The address and the incremented base that Execute buffers in `ML`. -/
def addressed (i : Instr) (v1 v2 : Word) : Option Word × Option Word :=
  let t := after (exec i (atExecute i v1 v2 noFlags))
  (t.ml.bind (·.addr), t.ml.bind (·.res2))

/-- M5: the sum wraps before the check. -/
theorem test_load_address : addressed (.load 2 1 1) 0x7FFFFFFF#32 0#32 = (some 0x80000000#32, none) := by decide
/-- M9: the increment is of the base, not of the address. -/
theorem test_loadp_address : addressed (.loadp 4 1 (-4)) 204#32 0#32 = (some 200#32, some 208#32) := by decide
/-- M11: the base of a store is `Rs2`. -/
theorem test_store_address : addressed (.store 2 1 1) 9#32 200#32 = (some 201#32, none) := by decide
/-- M15: the incremented base wraps. -/
theorem test_storep_address : addressed (.storep 0 1 (-2147483644)) 0#32 2147483644#32 = (some 0#32, some 0x80000000#32) := by
  decide

/-- The pc and the pending redirect that Execute leaves. -/
def resolved (i : Instr) (v1 : Word) (f : Flags) : Word × Bool :=
  let t := after (exec i (atExecute i v1 0#32 f))
  (t.pc, t.redirectPending)

/-- B1 and B2: the pc after reset is 4000. -/
theorem test_bz : resolved (.bz 8) 0#32 ⟨true, false, false⟩ = (4016#32, true) ∧
    resolved (.bz 8) 0#32 ⟨false, true, false⟩ = (4000#32, false) := by decide
/-- B3 and the row BNZ of the table of flag states. -/
theorem test_bnz : resolved (.bnz (-8)) 0#32 noFlags = (4000#32, true) ∧
    resolved (.bnz (-8)) 0#32 ⟨true, false, false⟩ = (4000#32, false) := by decide
theorem test_bp : resolved (.bp 8) 0#32 ⟨false, true, false⟩ = (4016#32, true) ∧
    resolved (.bp 8) 0#32 ⟨true, false, false⟩ = (4000#32, false) := by decide
theorem test_bnp : resolved (.bnp 8) 0#32 ⟨true, false, false⟩ = (4016#32, true) ∧
    resolved (.bnp 8) 0#32 ⟨false, true, false⟩ = (4000#32, false) := by decide
theorem test_bn : resolved (.bn 8) 0#32 ⟨false, false, true⟩ = (4016#32, true) ∧
    resolved (.bn 8) 0#32 noFlags = (4000#32, false) := by decide
theorem test_bnn : resolved (.bnn 8) 0#32 noFlags = (4016#32, true) ∧
    resolved (.bnn 8) 0#32 ⟨false, false, true⟩ = (4000#32, false) := by decide
/-- J1 -/
theorem test_jump : resolved (.jump 5 12) 4000#32 noFlags = (4012#32, true) := by decide
/-- J4: the link is the address of the JALR plus 4, published under `FB`. -/
theorem test_jalr : resolved (.jalr 14 0 4020) 0#32 noFlags = (4020#32, true) ∧
    (after (exec (.jalr 14 0 4020) (atExecute (.jalr 14 0 4020) 0#32 0#32 noFlags))).pendingValue 14 = 4012#32 := by decide
theorem test_nop_passes : resolved .nop 0#32 noFlags = (4000#32, false) ∧ computed .nop 0#32 0#32 = (none, noFlags) := by
  decide

/-- `i` alone in `ML` with an address and a first operand, over a memory with one word. -/
def atMemory (i : Instr) (addr v1 : Word) : State :=
  { State.resetWith (Params.standard .fb) [] with
    turn := .memory
    dmem := [(4095, 77#32)]
    ml := some { Latch.fresh 4000#32 (.instr i) with addr := some addr, v1 := some v1 } }

/-- M6 and M3: the last valid word, and the first address past the end. -/
theorem test_load_memory :
    ((after (exec (.load 2 1 0) (atMemory (.load 2 1 0) 4095#32 0#32))).wl.bind (·.res)) = some 77#32 ∧
      (after (exec (.load 2 1 1) (atMemory (.load 2 1 1) 4096#32 0#32))).fault = some (.memoryFault 4000#32 4096#32) := by
  decide
/-- M4's address, at LOADP. -/
theorem test_loadp_memory : (after (exec (.loadp 2 0 (-1)) (atMemory (.loadp 2 0 (-1)) (-1) 0#32))).fault =
    some (.memoryFault 4000#32 (-1)) := by decide
/-- M11: one word written. Writing 0 takes the word from the list. -/
theorem test_store_memory : (after (exec (.store 2 1 1) (atMemory (.store 2 1 1) 201#32 9#32))).dmem =
    [(201, 9#32), (4095, 77#32)] ∧
    (after (exec (.store 2 1 1) (atMemory (.store 2 1 1) 4095#32 0#32))).dmem = [] := by decide
/-- M16's fault leaves memory as it was. -/
theorem test_storep_memory : (after (exec (.storep 2 1 0) (atMemory (.storep 2 1 0) 5000#32 1#32))).dmem =
    [(4095, 77#32)] ∧ (after (exec (.storep 2 1 0) (atMemory (.storep 2 1 0) 5000#32 1#32))).fault =
      some (.memoryFault 4000#32 5000#32) := by decide

/-- `i` alone in `WL` with a result and an incremented base. -/
def atWriteback (i : Instr) (res res2 : Word) : State :=
  { State.resetWith (Params.standard .fb) [] with
    turn := .writeback
    wl := some { Latch.fresh 4004#32 (.instr i) with res := some res, res2 := some res2 } }

/-- M7: the loaded word and the incremented base are both committed. -/
theorem test_loadp_commits : (after (exec (.loadp 1 0 0) (atWriteback (.loadp 1 0 0) 42#32 104#32))).reg 1 = 42#32 ∧
    (after (exec (.loadp 1 0 0) (atWriteback (.loadp 1 0 0) 42#32 104#32))).reg 0 = 104#32 := by decide
/-- M13 -/
theorem test_storep_commits : (after (exec (.storep 1 2 0) (atWriteback (.storep 1 2 0) 0#32 54#32))).reg 2 = 54#32 := by
  decide
/-- H1: a HALT that commits is counted and ends the run. -/
theorem test_halt_commits : (after (exec .halt (atWriteback .halt 0#32 0#32))).halted = true ∧
    (after (exec .halt (atWriteback .halt 0#32 0#32))).insnCompleted = 1 := by decide

/-- What the host asks: the word placed by `withFetchWord` is in `DL` after one step, fetched from `CODE_BASE`. -/
theorem test_withFetchWord : (after (step (State.reset.withFetchWord 64 0x0701000000000005))).dl =
    some (Latch.fresh 4000#32 (.instr (.movc 1 5))) := by decide

end Sys2Proof.Tests
end

