-- ==== Sys2Proof/Tests/Witnesses.lean ====
section
/-! SUPPORT. For each obligation with hypotheses, one theorem `witness_<its name>`: concrete states and operands that meet all
the hypotheses together, and each clause's at a boundary of its range. -/

namespace Sys2Proof.Tests

open Sys2Proof Sys2Proof.Machine

/-- What is asked of the occupant of a latch holds when it holds of the one that is there. -/
theorem of_occupant {o : Option Latch} {P : Latch → Prop} (x : Latch) (ho : o = some x) (hp : P x) : ∀ l, o = some l → P l :=
  fun _ h => Option.some.inj (ho.symm.trans h) ▸ hp

/-- Nothing is asked of an empty latch. -/
theorem of_empty {o : Option Latch} {P : Latch → Prop} (ho : o = none) : ∀ l, o = some l → P l :=
  fun _ h => nomatch ho.symm.trans h

/-! ## Encoding, reset and the host -/

theorem witness_ADecodedWordIsTheEncodingOfItsInstruction :
    decode 0x180E0000FFFFFFFF#64 = .ok (.jalr 14 0 (-1)) := by decide

/-- An engine built for a program. -/
def built (policy : Policy) (program : List Instr) : State := State.resetWith (Params.standard policy) program

theorem witness_ResetLeavesTheTableOfValues : built .ss [.nop, .halt] = State.resetWith (Params.standard .ss) [.nop, .halt] :=
  rfl

/-- What the statement asks of parameters and program. -/
def loadable (P : Params) (program : List Instr) : Prop :=
  1 ≤ P.btbEntries ∧ (∀ m : Trained, P.takenMin m = 1 ∨ P.takenMin m = 2) ∧
    1 ≤ P.xlen ∧ P.xlen ≤ 32 ∧ 1 ≤ P.nreg ∧ P.nreg ≤ 16 ∧ 1 ≤ P.insnStride ∧ 1 ≤ P.dmemWords ∧
    P.ctrNeutral ≤ P.ctrMax ∧ P.ctrMax ≤ 3 ∧
    -(2 : Int) ^ (P.xlen - 1) ≤ P.codeBase.toInt ∧ P.codeBase.toInt < 2 ^ (P.xlen - 1) ∧
    program ≠ [] ∧ (∀ rd imm, Instr.loadp rd rd imm ∉ program) ∧
    ∀ i ∈ program, (∀ r ∈ i.registers, r.val < P.nreg) ∧
      ∀ v, i.immediate = some v → -(2 : Int) ^ (P.xlen - 1) ≤ v.toInt ∧ v.toInt < 2 ^ (P.xlen - 1)

/-- Every parameter at its least. -/
def smallest : Params :=
  { Params.standard .fb with
    xlen := 1
    nreg := 1
    insnStride := 1
    codeBase := 0#32
    dmemWords := 1
    btbEntries := 1
    ctrMax := 0
    ctrNeutral := 0 }

/-- Every parameter that has a limit above at that limit. -/
def largest : Params := { Params.standard .ss with ctrMax := 3, ctrNeutral := 3, minBZ := 2, codeBase := 0x7FFFFFFF#32 }

/-- The smallest and the largest parameters, with the last register and constant of each, are loadable. -/
theorem witness_LoadingBuildsAnEngineExactlyForAWellFormedProgram :
    loadable smallest [.movc 0 (-1)] ∧ loadable largest [.loadp 15 0 0x80000000#32] := by
  refine ⟨⟨by decide, fun m => ?_, by decide, by decide, by decide, by decide, by decide, by decide, by decide, by decide,
      by decide, by decide, by decide, fun rd imm h => ?_, fun i hi => ?_⟩,
    by decide, fun m => ?_, by decide, by decide, by decide, by decide, by decide, by decide, by decide, by decide,
      by decide, by decide, by decide, fun rd imm h => ?_, fun i hi => ?_⟩
  · cases m <;> decide
  · cases List.mem_singleton.mp h
  · cases List.mem_singleton.mp hi
    exact ⟨by decide, fun v hv => Option.some.inj hv ▸ by decide⟩
  · cases m <;> decide
  · cases List.mem_singleton.mp h
  · cases List.mem_singleton.mp hi
    exact ⟨by decide, fun v hv => Option.some.inj hv ▸ by decide⟩

/-- Each limit passed is not loadable. -/
theorem witness_loading_refused :
    ¬loadable (.standard .ss) [] ∧ ¬loadable (.standard .ss) [.loadp 1 1 0] ∧
      ¬loadable smallest [.add 0 0 1] ∧ ¬loadable smallest [.bz 1] ∧
      (∀ program, ¬loadable { smallest with btbEntries := 0 } program ∧ ¬loadable { largest with minBP := 3 } program ∧
        ¬loadable { smallest with xlen := 0 } program ∧ ¬loadable { largest with xlen := 33 } program ∧
        ¬loadable { smallest with nreg := 0 } program ∧ ¬loadable { largest with nreg := 17 } program ∧
        ¬loadable { smallest with insnStride := 0 } program ∧ ¬loadable { smallest with dmemWords := 0 } program ∧
        ¬loadable { smallest with ctrNeutral := 1 } program ∧ ¬loadable { largest with ctrMax := 4 } program ∧
        ¬loadable { smallest with codeBase := (-2) } program ∧ ¬loadable { smallest with codeBase := 1 } program) :=
  ⟨fun ⟨_, _, _, _, _, _, _, _, _, _, _, _, h, _⟩ => h rfl,
    fun ⟨_, _, _, _, _, _, _, _, _, _, _, _, _, h, _⟩ => h 1 0 (.head _),
    fun ⟨_, _, _, _, _, _, _, _, _, _, _, _, _, _, h⟩ => absurd ((h _ (.head _)).1 1 (by decide)) (by decide),
    fun ⟨_, _, _, _, _, _, _, _, _, _, _, _, _, _, h⟩ => absurd ((h _ (.head _)).2 1 rfl) (by decide),
    fun _ => ⟨fun ⟨h, _⟩ => absurd h (by decide), fun ⟨_, h, _⟩ => absurd (h .bp) (by decide),
      fun ⟨_, _, h, _⟩ => absurd h (by decide), fun ⟨_, _, _, h, _⟩ => absurd h (by decide),
      fun ⟨_, _, _, _, h, _⟩ => absurd h (by decide), fun ⟨_, _, _, _, _, h, _⟩ => absurd h (by decide),
      fun ⟨_, _, _, _, _, _, h, _⟩ => absurd h (by decide), fun ⟨_, _, _, _, _, _, _, h, _⟩ => absurd h (by decide),
      fun ⟨_, _, _, _, _, _, _, _, h, _⟩ => absurd h (by decide), fun ⟨_, _, _, _, _, _, _, _, _, h, _⟩ => absurd h (by decide),
      fun ⟨_, _, _, _, _, _, _, _, _, _, h, _⟩ => absurd h (by decide),
      fun ⟨_, _, _, _, _, _, _, _, _, _, _, h, _⟩ => absurd h (by decide)⟩⟩

/-- The highest address an instruction can have. -/
theorem witness_LoadedWordsAreFetchedAtTheirAddresses :
    let P := { Params.standard .ss with codeBase := 0x7FFFFFF8#32 }
    let ws := [0x1900000000000000#64, 0x0C00000000000000#64]
    initEngineWords P ws = .next (State.resetWith P [.nop, .halt]) ∧ ws[1]? = some 0x0C00000000000000#64 ∧
      decode 0x0C00000000000000#64 = .ok .halt ∧ P.codeBase.toInt + (P.insnStride * 1 : Nat) < 2 ^ (P.xlen - 1) :=
  ⟨rfl, by decide, by decide, by decide⟩

/-- The last word and register, one past each, and a core of 8 bits whose range `128` passes. -/
theorem witness_PreloadWritesOneCellBeforeTheFirstTickOnly :
    let s := built .ss [.nop]
    let small := { s with cfg := { s.cfg with xlen := 8, nreg := 8 } }
    Memory.wf s.dmem = true ∧ s.clock = 0 ∧ 4095 < s.cfg.dmemWords ∧ s.cfg.dmemWords ≤ 4096 ∧
      (15 : Reg).val < s.cfg.nreg ∧ s.cfg.holds 0x80000000#32 = true ∧ (7 : Reg).val < small.cfg.nreg ∧
      small.cfg.nreg ≤ (8 : Reg).val ∧ small.cfg.holds 127 = true ∧ small.cfg.holds 128 = false ∧
      small.cfg.holds (-128) = true ∧ Memory.wf (after (step s)).dmem = true ∧ (after (step s)).clock ≠ 0 := by decide

/-! ## The tick -/

theorem witness_ALiveTickIsCountedOnceAndAFinishedEngineStays :
    (State.reset.halted = false ∧ State.reset.fault = none) ∧
      { State.reset with halted := true }.halted = true ∧
      { State.reset with fault := some (.fetchFault 4000#32) }.fault ≠ none := by decide

theorem witness_NoTickWritesTheProgramOrTheParameters : step (built .fb [.nop]) = .next (tickState (built .fb [.nop])) :=
  step_eq _

theorem witness_ATickRetiresTheInstructionInWriteback :
    ((built .ss [.nop]).terminal = false ∧ FieldsInv (built .ss [.nop]) ∧ (built .ss [.nop]).wl = none) ∧
      (atWriteback (.add 1 2 3) 5#32 0#32).terminal = false ∧ FieldsInv (atWriteback (.add 1 2 3) 5#32 0#32) ∧
      (atWriteback (.add 1 2 3) 5#32 0#32).wl.isSome = true := by
  refine ⟨⟨rfl, ⟨of_empty rfl, of_empty rfl, of_empty rfl⟩, rfl⟩, rfl,
    ⟨of_empty rfl, of_empty rfl, of_occupant _ rfl ?_⟩, rfl⟩
  decide

theorem witness_ATickRunsTheInstructionAtThePc :
    let s := built .ss [.halt]
    s.terminal = false ∧ s.dl = none ∧ s.el = none ∧ s.ml = none ∧ s.wl = none ∧ s.redirectPending = false ∧
      s.flHeld = false ∧ s.fetchEn = true ∧ s.ifetch s.pc = .instr .halt := by decide

/-- A latch with an instruction that reads and writes no register. -/
def passing (pc : Word) : Latch := Latch.fresh pc (.instr .nop)

/-- NOP in every latch past Fetch. -/
def fullOfNops : State :=
  { built .ss [.nop, .nop, .nop, .nop, .nop] with
    pc := 4016#32
    dl := some (passing 4012#32)
    el := some (passing 4008#32)
    ml := some (passing 4004#32)
    wl := some (passing 4000#32) }

theorem witness_ATickRunsTheStagesInReverseOrder :
    ∃ s1 s2 s3 s4 : State, fullOfNops.terminal = false ∧ fullOfNops.wl = some (passing 4000#32) ∧
      exec .nop { fullOfNops with committed := none, turn := .writeback } = .next s1 ∧ s1.terminal = false ∧
      s1.ml = some (passing 4004#32) ∧ exec .nop { s1 with turn := .memory } = .next s2 ∧ s2.terminal = false ∧
      s2.el = some (passing 4008#32) ∧ exec .nop { s2 with turn := .execute } = .next s3 ∧ s3.terminal = false ∧
      s3.dl = some (passing 4012#32) ∧ exec .nop { s3 with turn := .decode } = .next s4 ∧ s4.terminal = false :=
  ⟨_, _, _, _, rfl, rfl, exec_eq _ _, rfl, rfl, exec_eq _ _, rfl, rfl, exec_eq _ _, rfl, rfl, exec_eq _ _, rfl⟩

/-! ## Fetch -/

/-- The first and the last record; one stride below and above the program, and off the stride. -/
theorem witness_InstructionFetchFollowsTheAddressMap :
    let s := built .ss [.nop, .halt]
    1 ≤ s.cfg.insnStride ∧ (s.imem[0]? = some .nop ∧ (4000#32).toInt = s.cfg.codeBase.toInt + (s.cfg.insnStride : Int) * ((0 : Nat) : Int)) ∧
      (s.imem[1]? = some .halt ∧ (4004#32).toInt = s.cfg.codeBase.toInt + (s.cfg.insnStride : Int) * ((1 : Nat) : Int)) ∧
      (∀ k : Nat, k < s.imem.length → (3996#32).toInt ≠ s.cfg.codeBase.toInt + (s.cfg.insnStride : Int) * (k : Int)) ∧
      (∀ k : Nat, k < s.imem.length → (4008#32).toInt ≠ s.cfg.codeBase.toInt + (s.cfg.insnStride : Int) * (k : Int)) ∧
      ∀ k : Nat, k < s.imem.length → (4002#32).toInt ≠ s.cfg.codeBase.toInt + (s.cfg.insnStride : Int) * (k : Int) := by decide

/-- A held NOP with Decode occupied or empty. -/
def holding (dl : Option Latch) : State :=
  { built .ss [.nop] with fl := some (passing 4000#32), flHeld := true, dl := dl }

theorem witness_FetchConsumesARedirectRetriesOrWaits :
    { State.reset with redirectPending := true }.redirectPending = true ∧
      ((holding none).redirectPending = false ∧ (holding none).flHeld = true ∧
        (holding none).fl = some (passing 4000#32) ∧ (holding none).dl = none) ∧
      ((holding (some (passing 3996#32))).redirectPending = false ∧ (holding (some (passing 3996#32))).flHeld = true ∧
        (holding (some (passing 3996#32))).fl = some (passing 4000#32) ∧ (holding (some (passing 3996#32))).dl ≠ none) ∧
      { State.reset with fetchEn := false }.redirectPending = false ∧ { State.reset with fetchEn := false }.flHeld = false ∧
      { State.reset with fetchEn := false }.fetchEn = false := by decide

theorem witness_FetchLoadsAndForwardsOrHolds :
    trainedAs .halt = none ∧ trainedAs (.bn 8) = none ∧ State.reset.turn = .fetch ∧ State.reset.flHeld = false ∧
      fullOfNops.turn = .fetch ∧ fullOfNops.flHeld = false ∧ fullOfNops.dl ≠ none := by decide

/-- A table with one entry for the branch at 4000. -/
def withEntry (policy : Policy) (ctr : BitVec 2) (resolved : Bool) : State :=
  { built policy [.bz 8] with btb := [⟨true, 4000#32, 4008#32, ctr, resolved⟩] }

/-- A counter at `TAKEN_MIN`; one below it; an unresolved entry; no entry; `FB`. -/
theorem witness_FetchFollowsThePredictorUnderScoreboardStall :
    trainedAs (.bz 8) = some .bz ∧ (∀ p c r, (withEntry p c r).turn = .fetch ∧ (withEntry p c r).flHeld = false) ∧
      (let s := withEntry .ss 1#2 true
       s.cfg.policy = .ss ∧ s.btbFind s.pc = some 0 ∧ s.btb[0]? = some ⟨true, 4000#32, 4008#32, 1#2, true⟩ ∧
        s.cfg.takenMin .bz ≤ (1#2).toNat) ∧
      (let s := withEntry .ss 0#2 true
       s.btbFind s.pc = some 0 ∧ s.btb[0]? = some ⟨true, 4000#32, 4008#32, 0#2, true⟩ ∧
        (0#2).toNat < s.cfg.takenMin .bz) ∧
      (let s := withEntry .ss 1#2 false
       s.btbFind s.pc = some 0 ∧ s.btb[0]? = some ⟨true, 4000#32, 4008#32, 1#2, false⟩) ∧
      (withEntry .fb 1#2 true).cfg.policy = .fb ∧ (built .ss [.bz 8]).btbFind 4000#32 = none :=
  ⟨rfl, fun _ _ _ => ⟨rfl, rfl⟩, by decide, by decide, by decide, by decide, by decide⟩

/-! ## Decode -/

/-- An instruction in `DL` while register 1 is busy, with or without a pending value. -/
def behindR1 (policy : Policy) (pending : Bool) (i : Instr) : State :=
  { built policy [] with
    turn := .decode
    dl := some (Latch.fresh 4000#32 (.instr i))
    busy := (Vector.replicate 16 false).set 1 true
    pendF := (Vector.replicate 16 false).set 1 pending }

/-- Under `SS` a busy source and a busy destination; under `FB` a busy destination although its value is pending, and a busy
source without a pending value. -/
theorem witness_DecodeRefusesWhileAHazardLasts :
    (∀ p b i, (behindR1 p b i).turn = .decode ∧ (behindR1 p b i).dl ≠ none) ∧
      ((1 : Reg) ∈ sources (.cml 1 0) ∧ (behindR1 .ss false (.cml 1 0)).isBusy 1 = true ∧
        (behindR1 .ss false (.cml 1 0)).cfg.policy = .ss) ∧
      ((1 : Reg) ∈ writes (.movc 1 0) ∧ (behindR1 .ss false (.movc 1 0)).isBusy 1 = true) ∧
      ((1 : Reg) ∈ writes (.movc 1 0) ∧ (behindR1 .fb true (.movc 1 0)).isBusy 1 = true ∧
        (behindR1 .fb true (.movc 1 0)).cfg.policy = .fb) ∧
      ((1 : Reg) ∈ sources (.cml 1 0) ∧ (behindR1 .fb false (.cml 1 0)).isBusy 1 = true ∧
        (behindR1 .fb false (.cml 1 0)).isPending 1 = false) :=
  ⟨fun _ _ _ => ⟨rfl, nofun⟩, by decide, by decide, by decide, by decide⟩

/-- Under `FB` a busy source with a pending value; under `SS` an instruction that touches no busy register. -/
theorem witness_DecodeAdmitsAnInstructionWithoutHazard :
    (∀ p b i, (behindR1 p b i).turn = .decode ∧ (behindR1 p b i).dl = some (Latch.fresh 4000#32 (.instr i))) ∧
      (trainedAs (.add 2 1 3) = none ∧ (∀ r, r ∈ writes (.add 2 1 3) → (behindR1 .fb true (.add 2 1 3)).isBusy r = false) ∧
        ∀ r, r ∈ sources (.add 2 1 3) → (behindR1 .fb true (.add 2 1 3)).isBusy r = false ∨
          ((behindR1 .fb true (.add 2 1 3)).cfg.policy = .fb ∧ (behindR1 .fb true (.add 2 1 3)).isPending r = true)) ∧
      (∀ r, r ∈ writes (.add 2 0 3) → (behindR1 .ss false (.add 2 0 3)).isBusy r = false) ∧
      ∀ r, r ∈ sources (.add 2 0 3) → (behindR1 .ss false (.add 2 0 3)).isBusy r = false :=
  ⟨fun _ _ _ => ⟨rfl, rfl⟩, by decide, by decide, by decide⟩

/-- The branch at 4000 in `DL`: with an entry, without one, and under `FB`. -/
theorem witness_DecodeAllocatesAnEntryForAPredictedBranch :
    let l := Latch.fresh 4000#32 (.instr (.bz 8))
    trainedAs (.bz 8) = some .bz ∧ (behindR1 .ss false (.bz 8)).turn = .decode ∧ (behindR1 .ss false (.bz 8)).dl = some l ∧
      (behindR1 .ss false (.bz 8)).cfg.policy = .ss ∧ (behindR1 .ss false (.bz 8)).btbFind l.pc = none ∧
      (behindR1 .fb false (.bz 8)).cfg.policy = .fb ∧
      { behindR1 .ss false (.bz 8) with btb := (withEntry .ss 1#2 true).btb }.btbFind l.pc ≠ none := by decide

/-! ## Execute -/

/-- The latch of `atExecute`. -/
def executing (i : Instr) (v1 v2 : Word) : Latch := { Latch.fresh 4008#32 (.instr i) with v1 := some v1, v2 := some v2 }

/-- What the statements about Execute ask: the instruction runs there with both operands captured. -/
theorem executing_ready (i : Instr) (v1 v2 : Word) (f : Flags) :
    (atExecute i v1 v2 f).turn = .execute ∧ (atExecute i v1 v2 f).el = some (executing i v1 v2) ∧
      (executing i v1 v2).v1 = some v1 ∧ (executing i v1 v2).v2 = some v2 := ⟨rfl, rfl, rfl, rfl⟩

theorem witness_RegisterArithmeticComputesAtExecute :
    let s := atExecute (.add 2 0 1) 0x7FFFFFFF#32 1#32 noFlags
    let l := executing (.add 2 0 1) 0x7FFFFFFF#32 1#32
    s.turn = .execute ∧ s.el = some l ∧ l.v1 = some 0x7FFFFFFF#32 ∧ l.v2 = some 1#32 := executing_ready ..

/-- The operands of a division that faults, `XLEN` being 32. -/
abbrev faulting (a b : Word) : Prop :=
  b = 0#32 ∨ (a.toInt = -(2 ^ ((Params.standard .fb).xlen - 1)) ∧ b = 0xFFFFFFFF#32)

/-- The operands of a division that does not. -/
abbrev dividing (a b : Word) : Prop :=
  b ≠ 0#32 ∧ ¬(a.toInt = -(2 ^ ((Params.standard .fb).xlen - 1)) ∧ b = 0xFFFFFFFF#32)

/-- The two faulting divisions, and their neighbours that do not fault. -/
theorem witness_DivisionTruncatesOrFaultsAtExecute :
    (∀ a b, let s := atExecute (.div 3 1 2) a b noFlags
      let l := executing (.div 3 1 2) a b
      s.turn = .execute ∧ s.el = some l ∧ l.v1 = some a ∧ l.v2 = some b) ∧
      faulting 7#32 0#32 ∧ faulting 0x80000000#32 0xFFFFFFFF#32 ∧ dividing 0x80000000#32 1#32 ∧
      dividing 0x80000001#32 0xFFFFFFFF#32 ∧ dividing 0#32 1#32 ∧ (Params.standard .fb).holds 0x80000000#32 = true :=
  ⟨fun _ _ => executing_ready .., by decide⟩

theorem witness_LiteralFormsComputeAtExecute :
    let s := atExecute (.subl 2 0 1) 0x80000000#32 0#32 noFlags
    let l := executing (.subl 2 0 1) 0x80000000#32 0#32
    s.turn = .execute ∧ s.el = some l ∧ l.v1 = some 0x80000000#32 := ⟨rfl, rfl, rfl⟩

theorem witness_ComparisonsSetOneFlagAtExecute :
    let s := atExecute (.cmp 0 1) 0x80000000#32 1#32 noFlags
    let l := executing (.cmp 0 1) 0x80000000#32 1#32
    s.turn = .execute ∧ s.el = some l ∧ l.v1 = some 0x80000000#32 ∧ l.v2 = some 1#32 := executing_ready ..

theorem witness_LoadsAndStoresComputeAddressesAtExecute :
    let s := atExecute (.storep 2 1 1) 9#32 0x7FFFFFFF#32 noFlags
    let l := executing (.storep 2 1 1) 9#32 0x7FFFFFFF#32
    s.turn = .execute ∧ s.el = some l ∧ l.v1 = some 9#32 ∧ l.v2 = some 0x7FFFFFFF#32 := executing_ready ..

theorem witness_JumpsRedirectAtExecute :
    let s := atExecute (.jalr 14 0 4020) 0#32 0#32 noFlags
    let l := executing (.jalr 14 0 4020) 0#32 0#32
    s.turn = .execute ∧ s.el = some l ∧ l.v1 = some 0#32 := ⟨rfl, rfl, rfl⟩

/-- `atExecute` is under `FB`; BN is static under `SS` too. Both outcomes of the condition. -/
theorem witness_StaticBranchesRedirectWhenTaken :
    (atExecute (.bz 8) 0#32 0#32 noFlags).turn = .execute ∧
      (atExecute (.bz 8) 0#32 0#32 noFlags).el = some (executing (.bz 8) 0#32 0#32) ∧
      (atExecute (.bz 8) 0#32 0#32 noFlags).cfg.policy = .fb ∧ (atExecute (.bz 8) 0#32 0#32 noFlags).flags.z = false ∧
      (atExecute (.bz 8) 0#32 0#32 ⟨true, false, false⟩).flags.z = true ∧
      { atExecute (.bn 8) 0#32 0#32 noFlags with cfg := .standard .ss }.cfg.policy = .ss := by decide

/-- A BZ at 4008 in `EL` under `SS`, with its entry in the table. -/
def trainedAtExecute (z : Bool) (ctr : BitVec 2) (resolved : Bool) : State :=
  { atExecute (.bz 8) 0#32 0#32 ⟨z, false, false⟩ with
    cfg := .standard .ss
    btb := [⟨true, 4008#32, 4016#32, ctr, resolved⟩] }

/-- Taken with the counter at its highest state; not taken with it at `TAKEN_MIN`, one below it, and unresolved. -/
theorem witness_TrainedBranchesResolveUnderScoreboardStall :
    (∀ c ∈ [(true, 2#2, true), (false, 1#2, true), (false, 0#2, true), (false, 1#2, false)],
      let s := trainedAtExecute c.1 c.2.1 c.2.2
      s.turn = .execute ∧ s.el = some (executing (.bz 8) 0#32 0#32) ∧ s.cfg.policy = .ss ∧ s.btbFind 4008#32 = some 0 ∧
        s.btb[0]? = some ⟨true, 4008#32, 4016#32, c.2.1, c.2.2⟩ ∧ c.2.1.toNat ≤ s.cfg.ctrMax ∧ s.flags.z = c.1) ∧
      (Params.standard .ss).ctrNeutral ≤ (Params.standard .ss).ctrMax ∧ (Params.standard .ss).ctrMax ≤ 3 ∧
      (trainedAtExecute false 1#2 true).cfg.takenMin .bz ≤ (1#2).toNat ∧
      (0#2).toNat < (trainedAtExecute false 0#2 true).cfg.takenMin .bz := by decide

theorem witness_OtherInstructionsPassUnchanged :
    ((atExecute .halt 0#32 0#32 noFlags).turn = .execute ∧
      (atExecute .halt 0#32 0#32 noFlags).el = some (executing .halt 0#32 0#32)) ∧
      accessesMemory (.add 1 2 3) = false ∧ (atMemory (.add 1 2 3) 0#32 0#32).turn = .memory ∧
      (atMemory (.add 1 2 3) 0#32 0#32).ml.isSome = true := by decide

/-! ## Memory and Writeback -/

/-- The latch of `atMemory`. -/
def accessing (i : Instr) (addr v1 : Word) : Latch :=
  { Latch.fresh 4000#32 (.instr i) with addr := some addr, v1 := some v1 }

/-- An address in the 4096 words of the states here. -/
abbrev within (a : Word) : Prop := 0 ≤ a.toInt ∧ a.toInt < ((Params.standard .ss).dmemWords : Int)

/-- An address outside them. -/
abbrev beyond (a : Word) : Prop := a.toInt < 0 ∨ ((Params.standard .ss).dmemWords : Int) ≤ a.toInt

/-- The four edges of data memory: the first and the last word, and one beyond each. -/
theorem witness_LoadsReadDataMemoryOrFault :
    (∀ a v, (atMemory (.load 2 1 0) a v).turn = .memory ∧ (atMemory (.load 2 1 0) a v).ml = some (accessing (.load 2 1 0) a v) ∧
      (accessing (.load 2 1 0) a v).addr = some a) ∧ (Instr.load 2 1 0).opClass = .load ∧
      within 0#32 ∧ within 4095#32 ∧ beyond 0xFFFFFFFF#32 ∧ beyond 4096#32 :=
  ⟨fun _ _ => ⟨rfl, rfl, rfl⟩, by decide⟩

theorem witness_StoresWriteOneWordOrFault :
    (∀ a v, (atMemory (.store 2 1 0) a v).turn = .memory ∧
      (atMemory (.store 2 1 0) a v).ml = some (accessing (.store 2 1 0) a v) ∧
      (accessing (.store 2 1 0) a v).addr = some a ∧ (accessing (.store 2 1 0) a v).v1 = some v ∧
      Memory.wf (atMemory (.store 2 1 0) a v).dmem = true) ∧ (Instr.store 2 1 0).opClass = .store ∧
      within 0#32 ∧ within 4095#32 ∧ beyond 0xFFFFFFFF#32 ∧ beyond 4096#32 :=
  ⟨fun _ _ => ⟨rfl, rfl, rfl, rfl, rfl⟩, by decide⟩

/-- The latch of `atWriteback`. -/
def committing (i : Instr) (res res2 : Word) : Latch :=
  { Latch.fresh 4004#32 (.instr i) with res := some res, res2 := some res2 }

theorem committing_ready (i : Instr) (v w : Word) :
    (atWriteback i v w).turn = .writeback ∧ (atWriteback i v w).wl = some (committing i v w) ∧
      (committing i v w).res = some v ∧ (committing i v w).res2 = some w := ⟨rfl, rfl, rfl, rfl⟩

theorem witness_ResultsCommitAtWriteback :
    let s := atWriteback (.jalr 15 0 0) 4012#32 0#32
    let l := committing (.jalr 15 0 0) 4012#32 0#32
    s.turn = .writeback ∧ s.wl = some l ∧ l.res = some 4012#32 := ⟨rfl, rfl, rfl⟩

theorem witness_PostIncrementFormsCommitTheBase :
    let s := atWriteback (.loadp 1 0 0) 42#32 104#32
    let l := committing (.loadp 1 0 0) 42#32 104#32
    s.turn = .writeback ∧ s.wl = some l ∧ l.res2 = some 104#32 ∧ l.res = some 42#32 := ⟨rfl, rfl, rfl, rfl⟩

theorem witness_OtherInstructionsOnlyRetireAndHaltEndsTheRun :
    writes .halt = [] ∧ writes (.store 1 2 0) = [] ∧ (atWriteback .halt 0#32 0#32).turn = .writeback ∧
      (atWriteback .halt 0#32 0#32).wl = some (committing .halt 0#32 0#32) := by decide

/-! ## An instruction alone in the pipeline -/

/-- `i`, fetched from 4000, alone in `DL` of an engine with the program `[i, HALT]`, one tick after reset; register 1 and every
other register given. -/
def alone (policy : Policy) (i : Instr) (x1 x : Word) (f : Flags) : State :=
  { built policy [i, .halt] with
    pc := 4004#32
    x := (Vector.replicate 16 x).set 1 x1
    flags := f
    fl := some (Latch.fresh 4000#32 (.instr i))
    dl := some (Latch.fresh 4000#32 (.instr i))
    clock := 1 }

theorem alone_inDecode (policy : Policy) (i : Instr) (x1 x : Word) (f : Flags) :
    AloneInDecode (alone policy i x1 x f) 4000#32 i where
  running := rfl
  inDecode := rfl
  executeEmpty := rfl
  memoryEmpty := rfl
  writebackEmpty := rfl
  nothingBusy r := by simp [alone, built, State.isBusy, State.resetWith]
  nothingPending r := by simp [alone, built, State.isPending, State.resetWith]
  fetchIdle := ⟨rfl, rfl⟩
  nothingBehind := .inr (by simp [State.ifetch, alone, built, State.resetWith, Params.standard])

/-- The same with Fetch disabled, as a HALT leaves it. -/
theorem alone_disabled (policy : Policy) (i : Instr) (x1 x : Word) (f : Flags) :
    AloneInDecode { alone policy i x1 x f with fetchEn := false } 4000#32 i :=
  let h := alone_inDecode policy i x1 x f
  ⟨h.running, h.inDecode, h.executeEmpty, h.memoryEmpty, h.writebackEmpty, h.nothingBusy, h.nothingPending, h.fetchIdle, .inl rfl⟩

/-- A run reaches it: one tick of the program `[ADD R2,R0,R1; HALT]`. -/
theorem alone_reached : after (step (built .ss [.add 2 0 1, .halt])) = alone .ss (.add 2 0 1) 0#32 0#32 noFlags := rfl

/-- `INT_MIN / 1`, next to the two divisions that fault. -/
theorem witness_RegisterArithmeticHasItsArchitecturalEffect :
    let s := alone .ss (.div 3 1 2) 0x80000000#32 1#32 noFlags
    AloneInDecode s 4000#32 (.div 3 1 2) ∧
      s.reg 2 ≠ 0#32 ∧ ¬((s.reg 1).toInt = -(2 ^ (s.cfg.xlen - 1)) ∧ s.reg 2 = 0xFFFFFFFF#32) :=
  ⟨alone_inDecode .., by decide, by decide⟩

theorem witness_LiteralMoveAndCompareHaveTheirArchitecturalEffect :
    ∀ i ∈ [Instr.addl 2 1 3, .subl 2 1 3, .movc 2 3, .cmp 1 2, .cml 1 3],
      AloneInDecode (alone .fb i 0x80000000#32 1#32 noFlags) 4000#32 i := fun _ _ => alone_inDecode ..

/-- The first and the last word of data memory. -/
theorem witness_LoadsHaveTheirArchitecturalEffect :
    (∀ i x1, AloneInDecode (alone .ss i x1 0#32 noFlags) 4000#32 i ∧ (alone .ss i x1 0#32 noFlags).reg 1 = x1) ∧
      within ((Params.standard .ss).fit (3#32 + (-3))) ∧ within ((Params.standard .ss).fit (4098#32 + (-3))) ∧ (2 : Reg) ≠ 1 :=
  ⟨fun _ _ => ⟨alone_inDecode .., rfl⟩, by decide⟩

theorem witness_StoresHaveTheirArchitecturalEffect :
    (∀ i x1, AloneInDecode (alone .fb i x1 7#32 noFlags) 4000#32 i ∧ (alone .fb i x1 7#32 noFlags).reg 1 = x1 ∧
      Memory.wf (alone .fb i x1 7#32 noFlags).dmem = true) ∧ within ((Params.standard .ss).fit (3#32 + (-3))) ∧ within ((Params.standard .ss).fit (4098#32 + (-3))) :=
  ⟨fun _ _ => ⟨alone_inDecode .., rfl, rfl⟩, by decide⟩

theorem witness_JumpsContinueAtTheirTargetAfterOneBubble :
    ∀ i ∈ [Instr.jump 1 (-4), .jalr 1 1 (-4)], AloneInDecode (alone .ss i 4008#32 0#32 noFlags) 4000#32 i :=
  fun _ _ => alone_inDecode ..

/-- BZ at 4000 under `SS`: taken; not taken with an entry that predicted it, and with none. -/
theorem witness_BranchesContinueWhereTheirConditionSays :
    let s := alone .ss (.bz 8) 0#32 0#32 noFlags
    let p := { s with btb := (withEntry .ss 1#2 true).btb }
    AloneInDecode s 4000#32 (.bz 8) ∧ AloneInDecode p 4000#32 (.bz 8) ∧
      AloneInDecode (alone .ss (.bz 8) 0#32 0#32 ⟨true, false, false⟩) 4000#32 (.bz 8) ∧ s.flags.z = false ∧
      p.flags.z = false ∧ s.btbFind 4000#32 = none ∧ p.cfg.policy = .ss ∧ trainedAs (.bz 8) = some .bz ∧
      p.btbFind 4000#32 = some 0 ∧ p.btb[0]? = some ⟨true, 4000#32, 4008#32, 1#2, true⟩ ∧ p.cfg.takenMin .bz ≤ (1#2).toNat := by
  refine ⟨alone_inDecode .., ?_, alone_inDecode .., by decide⟩
  have h := alone_inDecode .ss (.bz 8) 0#32 0#32 noFlags
  exact ⟨h.running, h.inDecode, h.executeEmpty, h.memoryEmpty, h.writebackEmpty, h.nothingBusy, h.nothingPending, h.fetchIdle,
    h.nothingBehind⟩

theorem witness_NopDoesNothingAndHaltEndsTheRun :
    AloneInDecode (alone .ss .nop 0#32 0#32 noFlags) 4000#32 .nop ∧
      AloneInDecode { alone .fb .halt 0#32 0#32 noFlags with fetchEn := false } 4000#32 .halt :=
  ⟨alone_inDecode .., alone_disabled ..⟩

/-! ## Faults -/

theorem witness_TheInvalidMarkerFaultsAtDecode :
    { State.reset with dl := some (Latch.fresh 3996#32 .invalid) }.dl = some (Latch.fresh 3996#32 .invalid) ∧
      (Latch.fresh 3996#32 .invalid).op = .invalid := by decide

/-- An empty latch leaves the state as it is. -/
theorem performs_nothing {stage : Stage} {s : State} : Performs stage none s s := .inl ⟨rfl, rfl⟩

/-- An occupied latch performs its instruction. -/
theorem performs_instr {stage : Stage} {o : Option Latch} {l : Latch} {i : Instr} {s : State} (h : o = some l)
    (ho : l.op = .instr i) : Performs stage o s (actOn i { s with turn := stage }) := .inr ⟨l, i, h, ho, exec_eq i _⟩

/-- An ADD in `WL` with its result. -/
def committingAdd : Latch := { Latch.fresh 3996#32 (.instr (.add 5 6 7)) with res := some 9#32 }

/-- The state that a tick's Writeback leaves when that ADD was in `WL`. -/
def afterAdd (s : State) : State := actOn (.add 5 6 7) { s with committed := none, turn := .writeback }

/-- A load one word past each end, behind an ADD that commits and behind an empty `WL`. -/
theorem witness_AFaultEndsTheTickWhereItStands :
    (∀ a, let s := { atMemory (.load 2 1 0) a 0#32 with wl := some committingAdd }
      s.terminal = false ∧ Performs .writeback s.wl { s with committed := none } (afterAdd s) ∧
        (afterAdd s).terminal = false ∧ (afterAdd s).ml = some (accessing (.load 2 1 0) a 0#32) ∧
        accessesMemory (.load 2 1 0) = true ∧ (accessing (.load 2 1 0) a 0#32).addr = some a) ∧
      (∀ a, Performs .writeback (atMemory (.store 2 1 0) a 0#32).wl (atMemory (.store 2 1 0) a 0#32)
        (atMemory (.store 2 1 0) a 0#32)) ∧ beyond 0xFFFFFFFF#32 ∧ beyond 4096#32 :=
  ⟨fun _ => ⟨rfl, performs_instr rfl rfl, rfl, rfl, rfl, rfl⟩, fun _ => performs_nothing, by decide⟩

/-- Each faulting division, behind a store in `ML` to the last word of data memory and an ADD in `WL`; and with both empty. -/
theorem witness_AFaultEndsTheTickWhereItStands_division :
    (∀ a b, let s := { atExecute (.div 3 1 2) a b noFlags with
        ml := some (accessing (.store 2 1 0) 4095#32 5#32)
        wl := some committingAdd }
      let u := actOn (.store 2 1 0) { (afterAdd s) with turn := .memory }
      s.terminal = false ∧ Performs .writeback s.wl { s with committed := none } (afterAdd s) ∧
        (afterAdd s).terminal = false ∧ Performs .memory (afterAdd s).ml (afterAdd s) u ∧ u.terminal = false ∧
        u.el = some (executing (.div 3 1 2) a b) ∧ u.readMem 4095 = 5#32) ∧
      (∀ a b, let s := atExecute (.div 3 1 2) a b noFlags
        Performs .writeback s.wl s s ∧ Performs .memory s.ml s s ∧ s.el = some (executing (.div 3 1 2) a b)) ∧
      faulting 7#32 0#32 ∧ faulting 0x80000000#32 0xFFFFFFFF#32 :=
  ⟨fun _ _ => ⟨rfl, performs_instr rfl rfl, rfl, performs_instr rfl rfl, rfl, rfl, rfl⟩,
    fun _ _ => ⟨performs_nothing, performs_nothing, rfl⟩, by decide⟩

/-- INVALID in `DL` behind a NOP in each later latch. -/
theorem witness_AFaultEndsTheTickWhereItStands_fetch :
    ∃ u1 u2 u3 : State, let s := { fullOfNops with dl := some (Latch.fresh 4012#32 .invalid) }
      s.terminal = false ∧ Performs .writeback s.wl { s with committed := none } u1 ∧ u1.terminal = false ∧
      Performs .memory u1.ml u1 u2 ∧ u2.terminal = false ∧ Performs .execute u2.el u2 u3 ∧ u3.terminal = false ∧
      u3.dl = some (Latch.fresh 4012#32 .invalid) ∧ (Latch.fresh 4012#32 .invalid).op = .invalid :=
  ⟨_, _, _, rfl, performs_instr rfl rfl, rfl, performs_instr rfl rfl, rfl, performs_instr rfl rfl, rfl, rfl, rfl⟩

/-! ## What only one event can change -/

theorem witness_OnlyWritebackWritesRegisters :
    let s := atWriteback (.add 1 2 3) 5#32 0#32
    step s = .next (tickState s) ∧ (tickState s).reg 1 ≠ s.reg 1 := ⟨step_eq _, by decide⟩

theorem witness_OnlyStoresInMemoryWriteDataMemory :
    let s := atMemory (.store 2 1 0) 4095#32 9#32
    step s = .next (tickState s) ∧ (tickState s).readMem 4095 ≠ s.readMem 4095 := ⟨step_eq _, by decide⟩

theorem witness_OnlyFlagSettersChangeTheFlags :
    let s := atExecute (.cmp 0 1) 1#32 1#32 noFlags
    step s = .next (tickState s) ∧ (tickState s).flags ≠ s.flags := ⟨step_eq _, by decide⟩

theorem witness_EachPolicyLeavesTheOthersTablesAlone :
    (step (built .ss [.bz 8]) = .next (tickState (built .ss [.bz 8])) ∧ (built .ss [.bz 8]).cfg.policy = .ss ∧
      (built .ss [.bz 8]).isPending 15 = false) ∧
      step (built .fb [.bz 8]) = .next (tickState (built .fb [.bz 8])) ∧ (built .fb [.bz 8]).cfg.policy = .fb :=
  ⟨⟨step_eq _, by decide, by decide⟩, step_eq _, by decide⟩

theorem witness_InstructionsAdvanceInOrder :
    fullOfNops.terminal = false ∧ step fullOfNops = .next (tickState fullOfNops) ∧
      (tickState fullOfNops).terminal = false := ⟨rfl, step_eq _, by decide⟩

/-- A JUMP in `EL` with an instruction behind it, and a NOP in `ML` and an ADD in `WL` ahead of it. -/
theorem witness_ARedirectCostsOneBubbleAndDiscardsDecode :
    let s := { atExecute (.jump 1 8) 4000#32 0#32 noFlags with
      dl := some (passing 4012#32)
      ml := some (passing 4004#32)
      wl := some committingAdd
      turn := .fetch }
    let u2 := actOn .nop { (afterAdd s) with turn := .memory }
    let u := actOn (.jump 1 8) { u2 with turn := .execute }
    s.terminal = false ∧ s.redirectPending = false ∧ Performs .writeback s.wl { s with committed := none } (afterAdd s) ∧
      (afterAdd s).terminal = false ∧ Performs .memory (afterAdd s).ml (afterAdd s) u2 ∧ u2.terminal = false ∧
      u2.el = some (executing (.jump 1 8) 4000#32 0#32) ∧ exec (.jump 1 8) { u2 with turn := .execute } = .next u ∧
      u.redirectPending = true ∧ u.fault = none :=
  ⟨rfl, rfl, performs_instr rfl rfl, rfl, performs_instr rfl rfl, rfl, rfl, exec_eq _ _, rfl, rfl⟩

/-! ## Invariants -/

/-- Under `FB`: `ADD R1,R2,R3` executed in `ML`, `LOAD R4,R5,#0` in `EL`, `CMP R1,R4` held in `DL`, a NOP held in `FL`. -/
def inFlight : State :=
  { built .fb [.add 1 2 3, .load 4 5 0, .cmp 1 4, .nop] with
    pc := 4016#32
    dmem := [(7, 1#32)]
    fl := some (Latch.fresh 4012#32 (.instr .nop))
    dl := some (Latch.fresh 4008#32 (.instr (.cmp 1 4)))
    el := some { Latch.fresh 4004#32 (.instr (.load 4 5 0)) with v1 := some 7#32 }
    ml := some { Latch.fresh 4000#32 (.instr (.add 1 2 3)) with v1 := some 2#32, v2 := some 3#32, res := some 5#32 }
    busy := ((Vector.replicate 16 false).set 1 true).set 4 true
    pendF := (Vector.replicate 16 false).set 1 true
    pendV := (Vector.replicate 16 0#32).set 1 5#32 }

theorem inFlight_goes_on : step inFlight = .next (tickState inFlight) := step_eq _

theorem witness_ResetMeetsEveryInvariant : (Params.standard .fb).wellFormed = true ∧
    built .fb [.halt] = State.resetWith (.standard .fb) [.halt] := ⟨by decide, rfl⟩

theorem witness_EveryTickKeepsDataMemoryInForm :
    inFlight.memoryInv ∧ step inFlight = .next (tickState inFlight) := ⟨⟨by decide, by decide⟩, step_eq _⟩

/-- `inFlight` one tick later, when CMP has been refused and NOP is held behind it. -/
def stalled : State :=
  { inFlight with
    pc := 4016#32
    dlStall := true
    flHeld := true
    el := none }

theorem witness_EveryTickKeepsTheControlBitsConsistent :
    ControlInv stalled ∧ step stalled = .next (tickState stalled) :=
  ⟨⟨rfl, rfl, fun _ => ⟨rfl, rfl⟩, fun _ => ⟨rfl, rfl, rfl, rfl⟩⟩, step_eq _⟩

theorem witness_NoTickReadsAFieldWithoutValue :
    FieldsInv inFlight ∧ ControlInv inFlight ∧ step inFlight = .next (tickState inFlight) ∧
      inFlight.fault ≠ some .invariantFault :=
  ⟨⟨of_occupant _ rfl (by decide), of_occupant _ rfl (by decide), of_empty rfl⟩, ⟨rfl, rfl, nofun, nofun⟩, step_eq _, nofun⟩

/-- A HALT in `ML` with nothing behind it. -/
theorem witness_NothingEverFollowsAHalt :
    let s := { atMemory .halt 0#32 0#32 with fetchEn := false }
    HaltInv s ∧ holdsHalt s.ml = true ∧ step s = .next (tickState s) :=
  ⟨⟨nofun, nofun, fun _ => ⟨rfl, rfl, rfl, rfl⟩, nofun⟩, rfl, step_eq _⟩

theorem inFlight_hazards : HazardInv inFlight where
  busyExactly := by decide
  disjointExecuteMemory := by decide
  disjointExecuteWriteback := by decide
  disjointMemoryWriteback := by decide
  pendingExactly := by decide
  pendingMemory r l _ hl h := by
    cases hl
    cases List.mem_singleton.mp (show r ∈ [1] from h)
    decide
  pendingWriteback _ _ _ h := nomatch h

theorem witness_EveryTickKeepsTheHazardTablesExact :
    HazardInv inFlight ∧ step inFlight = .next (tickState inFlight) := ⟨inFlight_hazards, step_eq _⟩

/-- Two entries, one of them resolved with its counter at the highest state. -/
def predicting : State :=
  { built .ss [.bz 8, .bp (-4), .halt] with
    btb := [⟨true, 4000#32, 4008#32, 2#2, true⟩, ⟨true, 4004#32, 0#32, 1#2, false⟩, BtbEntry.zero, BtbEntry.zero]
    btbHead := 2 }

theorem witness_EveryTickKeepsThePredictorSound :
    PredictorInv predicting ∧ step predicting = .next (tickState predicting) := by
  refine ⟨⟨by decide, by decide, by decide, ?_, by decide⟩, step_eq _⟩
  intro e he
  simp only [predicting, List.mem_cons, List.not_mem_nil, or_false] at he
  rcases he with rfl | rfl | rfl | rfl <;> exact ⟨by decide, by decide, by decide⟩

theorem witness_EveryTickKeepsLatchesAndPredictorTrueToTheProgram :
    ProgramInv inFlight ∧ ProgramInv predicting ∧ step inFlight = .next (tickState inFlight) := by
  refine ⟨⟨nofun, of_occupant _ rfl (by decide), of_occupant _ rfl (by decide), of_occupant _ rfl (by decide), of_empty rfl, ?_⟩,
    ⟨nofun, of_empty rfl, of_empty rfl, of_empty rfl, of_empty rfl, ?_⟩, step_eq _⟩
  · intro e he hv
    obtain rfl := List.eq_of_mem_replicate (show e ∈ List.replicate 4 BtbEntry.zero from he)
    cases hv
  · intro e he hv
    simp only [predicting, List.mem_cons, List.not_mem_nil, or_false] at he
    rcases he with rfl | rfl | rfl | rfl
    · exact ⟨.bz 8, by decide, rfl, by decide⟩
    · exact ⟨.bp (-4), by decide, rfl, by decide⟩
    · cases hv
    · cases hv

/-- `CMP R1,R4` behind `LOAD R4,R5,#0` in `EL`, under `SS`. -/
theorem witness_ABusyRegisterHoldsAnInstructionInDecode :
    let s := { inFlight with cfg := .standard .ss }
    s.cfg.policy = .ss ∧ s.terminal = false ∧ s.dl = some (Latch.fresh 4008#32 (.instr (.cmp 1 4))) ∧
      (4 : Reg) ∈ sources (.cmp 1 4) ∧ s.isBusy 4 = true ∧ 4 ∉ writesOf s.wl ∧ step s = .next (tickState s) :=
  ⟨by decide, by decide, by decide, by decide, by decide, by decide, step_eq _⟩

/-- A CMP that reads the pending value of R1 and the committed R6. -/
theorem witness_DecodeCapturesTheValueProgramOrderGives :
    let s := { inFlight with
      turn := .decode
      el := none
      busy := (Vector.replicate 16 false).set 1 true
      dl := some (Latch.fresh 4008#32 (.instr (.cmp 1 6))) }
    HazardInv s ∧ s.turn = .decode ∧ s.el = none ∧ s.dl = some (Latch.fresh 4008#32 (.instr (.cmp 1 6))) ∧
      s.stalls (.cmp 1 6) = false ∧ exec (.cmp 1 6) s = .next (actOn (.cmp 1 6) s) := by
  refine ⟨⟨by decide, by decide, by decide, by decide, by decide, ?_, fun _ _ _ h => nomatch h⟩, by decide, by decide,
    by decide, by decide, exec_eq _ _⟩
  exact fun r l hp hl h => inFlight_hazards.pendingMemory r l hp hl h

end Sys2Proof.Tests
end

section
/-! PROOFS. Execute of the register-register computations (43_execute_redirect.md R181, R188, R189; 46_insn_alu.md R251 to R257). -/

namespace Sys2Proof.Machine

/-- A computation whose two operands were captured finishes with its result (R181). -/
theorem computeRR_eq_finishResult {s : State} {l : Latch} {a b : Word} (rd : Reg) (f : Params → Word → Word → Word)
    (hl : s.el = some l) (ha : l.v1 = some a) (hb : l.v2 = some b) :
    computeRR rd f s = s.finishResult l rd (f s.cfg a b) := by
  rw [computeRR, State.inExecute_some hl, ha, hb, State.reading_some, State.reading_some]

/-- An instruction whose action at Execute is the computation `f`, with both operands captured, leaves the state of
`finishResult_eq` for the result `r` of `f`. -/
theorem exec_of_computeRR {i : Instr} {rd : Reg} {f : Params → Word → Word → Word} {s : State} {l : Latch} {a b r : Word}
    (hi : executeAction i = computeRR rd f) (hr : f s.cfg a b = r) (ht : s.turn = .execute) (hl : s.el = some l)
    (ha : l.v1 = some a) (hb : l.v2 = some b) :
    exec i s = .next { s with
      flags := flagsOfResult r
      pendF := s.pendFWith rd
      pendV := s.pendVWith rd r
      ml := some { l with res := some r }
      el := none } := by
  rw [exec_execute i ht, hi, computeRR_eq_finishResult rd f hl ha hb, hr, finishResult_eq]

/-- Settles O22: wrapping is `wrap_toInt_bmod`, and each of the six forms is its computation at Execute, whose result is the
stated bit-vector operation. -/
theorem registerArithmeticComputesAtExecute : Obligations.RegisterArithmeticComputesAtExecute := by
  refine ⟨fun P n hx => wrap_toInt_bmod hx n, fun mk f hmem rd rs1 rs2 s l a b ht hl ha hb => ?_⟩
  simp only [List.mem_cons, List.not_mem_nil, or_false, Prod.mk.injEq] at hmem
  obtain ⟨rfl, rfl⟩ | ⟨rfl, rfl⟩ | ⟨rfl, rfl⟩ | ⟨rfl, rfl⟩ | ⟨rfl, rfl⟩ | ⟨rfl, rfl⟩ := hmem
  · exact exec_of_computeRR rfl (addWords_eq s.cfg a b) ht hl ha hb
  · exact exec_of_computeRR rfl (subWords_eq s.cfg a b) ht hl ha hb
  · exact exec_of_computeRR rfl (mulWords_eq s.cfg a b) ht hl ha hb
  · exact exec_of_computeRR (f := andWords) rfl rfl ht hl ha hb
  · exact exec_of_computeRR (f := orWords) rfl rfl ht hl ha hb
  · exact exec_of_computeRR (f := xorWords) rfl rfl ht hl ha hb

end Sys2Proof.Machine
end

section
/-! PROOFS. What one tick leaves as it was: the program and the parameters, the registers that no committing instruction writes, the
words that no store names, the flags, and under each policy the tables of the other. -/

namespace Sys2Proof.Machine

/-! ## Reads of what did not change -/

theorem State.reg_congr {s t : State} (h : t.x = s.x) (r : Reg) : t.reg r = s.reg r := by simp only [State.reg, h]

theorem State.readMem_congr {s t : State} (h : t.dmem = s.dmem) (a : Nat) : t.readMem a = s.readMem a := by
  simp only [State.readMem, h]

theorem State.isBusy_congr {s t : State} (h : t.busy = s.busy) (r : Reg) : t.isBusy r = s.isBusy r := by
  simp only [State.isBusy, h]

theorem State.isPending_congr {s t : State} (h : t.pendF = s.pendF) (r : Reg) : t.isPending r = s.isPending r := by
  simp only [State.isPending, h]

theorem State.pendingValue_congr {s t : State} (h : t.pendV = s.pendV) (r : Reg) :
    t.pendingValue r = s.pendingValue r := by
  simp only [State.pendingValue, h]

/-! ## The one stage that writes -/

/-- Writeback changes only the registers that the occupant of `WL` writes (44_memory_writeback.md R216). -/
theorem writebackState_reg (s : State) (r : Reg) (hr : r ∉ writesOf s.wl) : (writebackState s).reg r = s.reg r := by
  refine writebackState_elim (P := fun t => t.reg r = s.reg r) s (fun _ => rfl) (fun _ _ _ => rfl) fun l i t hl ho o => ?_
  cases o with
  | missing _ _ answer => subst answer; rfl
  | committed answer =>
    rw [hl, writesOf_instr ho] at hr
    exact answer.unwritten r hr

/-- An address in range names an index of data memory (20_memory.md R62). -/
theorem memIndex_lt {s : State} {a : Word} (h : s.inMemory a = true) : 0 ≤ a.toInt ∧ memIndex a < s.cfg.dmemWords := by
  simp only [State.inMemory, Bool.and_eq_true, decide_eq_true_eq] at h
  unfold memIndex
  omega

/-- Memory leaves data memory as it was, or a store writes the word that its address names (20_memory.md R62, R64). -/
theorem memoryState_dmem (s : State) : (memoryState s).dmem = s.dmem ∨
    ∃ l i a v, s.ml = some l ∧ l.op = .instr i ∧ i.opClass = .store ∧ l.addr = some a ∧ s.inMemory a = true ∧
      (memoryState s).dmem = writeCells s.dmem (memIndex a) v := by
  refine memoryState_elim (P := fun t => t.dmem = s.dmem ∨ ∃ l i a v, s.ml = some l ∧ l.op = .instr i ∧
    i.opClass = .store ∧ l.addr = some a ∧ s.inMemory a = true ∧ t.dmem = writeCells s.dmem (memIndex a) v) s
    (fun _ => .inl rfl) (fun _ _ _ => .inl rfl) fun l i t hl ho o => ?_
  cases o with
  | missing _ _ answer => subst answer; exact .inl rfl
  | outOfRange _ _ _ _ answer => subst answer; exact .inl rfl
  | accessed _ answer =>
    rcases answer.memory with same | ⟨a, v, hs, ha, -, hr, hd⟩
    · exact .inl same
    · exact .inr ⟨l, i, a, v, hl, ho, hs, ha, hr, hd⟩

/-- The flags went from `f` to `g` unchanged, or the occupant `o` of a latch is of a flag-setting class and exactly one of `g` is
true (10_state.md R26, R27). -/
def FlagsSetBy (o : Option Latch) (f g : Flags) : Prop :=
  g = f ∨ ∃ l i, o = some l ∧ l.op = .instr i ∧ setsFlags i = true ∧ g.exactlyOne = true

/-- Only the occupant of `EL` sets flags at Execute (R181, R182). -/
theorem executeState_flags (s : State) : FlagsSetBy s.el s.flags (executeState s).flags := by
  refine executeState_elim (P := fun t => FlagsSetBy s.el s.flags t.flags) s (fun _ => .inl rfl) (fun _ _ _ => .inl rfl)
    fun l i t hl ho o => ?_
  cases o with
  | uncaptured _ answer => subst answer; exact .inl rfl
  | divides answer => subst answer; exact .inl rfl
  | executed _ answer => exact answer.flags.imp id fun ⟨hf, he⟩ => ⟨l, i, hl, ho, hf, he⟩

/-! ## The whole tick -/

/-- Settles O10: every stage keeps both. -/
theorem noTickWritesTheProgramOrTheParameters : Obligations.NoTickWritesTheProgramOrTheParameters := by
  intro s t h
  refine step_keeps (P := fun u => u.imem = s.imem ∧ u.cfg = s.cfg) (Q := fun u => u.imem = s.imem ∧ u.cfg = s.cfg) h
    (fun _ => ⟨rfl, rfl⟩) (fun _ => ⟨rfl, rfl⟩) ?writeback ?memory ?execute ?decode ?fetch fun _ hu => hu
  case writeback => exact fun u ⟨hi, hc⟩ => ⟨(writebackState_keeps u).imem.trans hi, (writebackState_keeps u).cfg.trans hc⟩
  case memory => exact fun u ⟨hi, hc⟩ => ⟨(memoryState_keeps u).imem.trans hi, (memoryState_keeps u).cfg.trans hc⟩
  case execute => exact fun u ⟨hi, hc⟩ => ⟨(executeState_keeps u).imem.trans hi, (executeState_keeps u).cfg.trans hc⟩
  case decode => exact fun u ⟨hi, hc⟩ => ⟨(decodeState_keeps u).imem.trans hi, (decodeState_keeps u).cfg.trans hc⟩
  case fetch => exact fun u ⟨hi, hc⟩ => ⟨(fetchState_keeps u).imem.trans hi, (fetchState_keeps u).cfg.trans hc⟩

/-- Settles O45: Writeback comes first in the tick and is the only stage that writes a register. -/
theorem onlyWritebackWritesRegisters : Obligations.OnlyWritebackWritesRegisters := by
  intro s t r h hne
  by_contra hr
  refine hne (step_stages (Q := fun u => u.reg r = s.reg r) (P0 := fun u => u.x = s.x ∧ u.wl = s.wl)
    (P1 := fun u => u.reg r = s.reg r) (P2 := fun u => u.reg r = s.reg r) (P3 := fun u => u.reg r = s.reg r)
    (P4 := fun u => u.reg r = s.reg r) (P5 := fun u => u.reg r = s.reg r) h (fun _ => rfl) (fun _ => ⟨rfl, rfl⟩)
    ?writeback ?memory ?execute ?decode ?fetch (fun _ hu _ => hu) (fun _ hu _ => hu) (fun _ hu _ => hu)
    (fun _ hu _ => hu) fun _ hu => hu)
  case writeback =>
    intro u ⟨hx, hw⟩
    rw [writebackState_reg u r (by rwa [hw]), State.reg_congr hx]
  case memory => exact fun u hu _ => (State.reg_congr (memoryState_keeps u).x r).trans hu
  case execute => exact fun u hu _ => (State.reg_congr (executeState_keeps u).x r).trans hu
  case decode => exact fun u hu _ => (State.reg_congr (decodeState_keeps u).x r).trans hu
  case fetch => exact fun u hu _ => (State.reg_congr (fetchState_keeps u).x r).trans hu

/-- Settles O46: only Memory writes data memory, and Writeback before it keeps `ML`. -/
theorem onlyStoresInMemoryWriteDataMemory : Obligations.OnlyStoresInMemoryWriteDataMemory := by
  intro s t a h hne
  by_contra hs
  refine hne (step_stages (Q := fun u => u.readMem a = s.readMem a) (P0 := fun u => u.dmem = s.dmem ∧ u.ml = s.ml)
    (P1 := fun u => u.dmem = s.dmem ∧ u.ml = s.ml) (P2 := fun u => u.readMem a = s.readMem a)
    (P3 := fun u => u.readMem a = s.readMem a) (P4 := fun u => u.readMem a = s.readMem a)
    (P5 := fun u => u.readMem a = s.readMem a) h (fun _ => rfl) (fun _ => ⟨rfl, rfl⟩)
    ?writeback ?memory ?execute ?decode ?fetch (fun _ hu _ => State.readMem_congr hu.1 a) (fun _ hu _ => hu)
    (fun _ hu _ => hu) (fun _ hu _ => hu) fun _ hu => hu)
  case writeback =>
    exact fun u ⟨hd, hm⟩ => ⟨(writebackState_keeps u).dmem.trans hd, (writebackState_keeps u).ml.trans hm⟩
  case memory =>
    intro u ⟨hd, hm⟩ _
    rcases memoryState_dmem u with same | ⟨l, i, ad, v, hl, ho, hi, ha, hr, written⟩
    · exact State.readMem_congr (same.trans hd) a
    · have other : a ≠ memIndex ad := fun e => hs ⟨l, i, ad, hm ▸ hl, ho, hi, ha, (memIndex_lt hr).1, e.symm⟩
      rw [State.readMem, written, readCells_writeCells_other v other, hd, State.readMem]
  case execute => exact fun u hu _ => (State.readMem_congr (executeState_keeps u).dmem a).trans hu
  case decode => exact fun u hu _ => (State.readMem_congr (decodeState_keeps u).dmem a).trans hu
  case fetch => exact fun u hu _ => (State.readMem_congr (fetchState_keeps u).dmem a).trans hu

/-- Settles O47: only Execute writes the flags, and the stages before it keep `EL`. -/
theorem onlyFlagSettersChangeTheFlags : Obligations.OnlyFlagSettersChangeTheFlags := by
  intro s t h
  refine step_stages (Q := fun u => FlagsSetBy s.el s.flags u.flags) (P0 := fun u => u.flags = s.flags ∧ u.el = s.el)
    (P1 := fun u => u.flags = s.flags ∧ u.el = s.el) (P2 := fun u => u.flags = s.flags ∧ u.el = s.el)
    (P3 := fun u => FlagsSetBy s.el s.flags u.flags) (P4 := fun u => FlagsSetBy s.el s.flags u.flags)
    (P5 := fun u => FlagsSetBy s.el s.flags u.flags) h (fun _ => .inl rfl) (fun _ => ⟨rfl, rfl⟩)
    ?writeback ?memory ?execute ?decode ?fetch (fun _ hu _ => .inl hu.1) (fun _ hu _ => .inl hu.1)
    (fun _ hu _ => hu) (fun _ hu _ => hu) fun _ hu => hu
  case writeback =>
    exact fun u ⟨hf, he⟩ => ⟨(writebackState_keeps u).flags.trans hf, (writebackState_keeps u).el.trans he⟩
  case memory =>
    exact fun u ⟨hf, he⟩ _ => ⟨(memoryState_keeps u).flags.trans hf, (memoryState_keeps u).el.trans he⟩
  case execute =>
    intro u ⟨hf, he⟩ _
    rw [← hf, ← he]
    exact executeState_flags u
  case decode => exact fun u hu _ => (decodeState_keeps u).flags ▸ hu
  case fetch => exact fun u hu _ => (fetchState_keeps u).flags ▸ hu

/-! ## The tables of the policy not in force -/

/-- From `s` to `t` the predictor was not written under `FB`, and under `SS` no pending value was written and no pending
flag set (10_state.md R38, R39). -/
structure ForeignTablesKept (s t : State) : Prop where
  cfg : t.cfg = s.cfg
  predictor : s.cfg.policy = .fb → t.btb = s.btb ∧ t.btbHead = s.btbHead
  pending : s.cfg.policy = .ss → t.pendV = s.pendV ∧ ∀ r, s.isPending r = false → t.isPending r = false

theorem ForeignTablesKept.trans {s t u : State} (h : ForeignTablesKept s t) (k : ForeignTablesKept t u) :
    ForeignTablesKept s u where
  cfg := k.cfg.trans h.cfg
  predictor hp := by
    have hp' : t.cfg.policy = .fb := by rw [h.cfg, hp]
    exact ⟨(k.predictor hp').1.trans (h.predictor hp).1, (k.predictor hp').2.trans (h.predictor hp).2⟩
  pending hp := by
    have hp' : t.cfg.policy = .ss := by rw [h.cfg, hp]
    exact ⟨(k.pending hp').1.trans (h.pending hp).1, fun r hr => (k.pending hp').2 r ((h.pending hp).2 r hr)⟩

/-- A stage that writes neither table. -/
theorem ForeignTablesKept.of_same {s t : State} (cfg : t.cfg = s.cfg) (btb : t.btb = s.btb)
    (btbHead : t.btbHead = s.btbHead) (pendV : t.pendV = s.pendV) (pendF : t.pendF = s.pendF) : ForeignTablesKept s t :=
  ⟨cfg, fun _ => ⟨btb, btbHead⟩, fun _ => ⟨pendV, fun r hr => (State.isPending_congr pendF r).trans hr⟩⟩

/-- Writeback only clears pending flags (R217). -/
theorem writebackState_foreignTables (s : State) : ForeignTablesKept s (writebackState s) := by
  have k := writebackState_keeps s
  refine ⟨k.cfg, fun _ => ⟨k.btb, k.btbHead⟩, fun _ => ⟨k.pendV, fun r hr => ?_⟩⟩
  refine writebackState_elim (P := fun t => t.isPending r = false) s (fun _ => hr) (fun _ _ _ => hr) fun l i t _ _ o => ?_
  cases o with
  | missing _ _ answer => subst answer; exact hr
  | committed answer =>
    rw [answer.unpended r]
    exact Bool.and_eq_false_imp.mpr fun hp => absurd (hr.symm.trans hp) (by decide)

/-- Training is for `SS` (R190, R193). -/
theorem Trains.untouched_fb {i : Instr} {p : Word} {s t : State} (h : Trains i p s t) (hp : s.cfg.policy = .fb) :
    t.btb = s.btb ∧ t.btbHead = s.btbHead := by
  cases h with
  | untouched same => exact same
  | taken _ policy | allocated policy | notTaken _ policy => rw [hp] at policy; cases policy

/-- Allocation is for `SS` (R153). -/
theorem Allocates.untouched_fb {i : Instr} {p : Word} {s t : State} (h : Allocates i p s t) (hp : s.cfg.policy = .fb) :
    t.btb = s.btb ∧ t.btbHead = s.btbHead := by
  cases h with
  | untouched same => exact same
  | allocated policy => rw [hp] at policy; cases policy

/-- Under `SS` nothing is published (R188). -/
theorem State.pendFWith_ss {s : State} (hp : s.cfg.policy = .ss) (r : Reg) : s.pendFWith r = s.pendF := by
  simp [State.pendFWith, hp]

theorem State.pendVWith_ss {s : State} (hp : s.cfg.policy = .ss) (r : Reg) (v : Word) : s.pendVWith r v = s.pendV := by
  simp [State.pendVWith, hp]

theorem executeState_foreignTables (s : State) : ForeignTablesKept s (executeState s) := by
  refine executeState_elim s (fun _ => .of_same rfl rfl rfl rfl rfl) (fun _ _ _ => .of_same rfl rfl rfl rfl rfl)
    fun l i t _ _ o => ?_
  cases o with
  | uncaptured _ answer => subst answer; exact .of_same rfl rfl rfl rfl rfl
  | divides answer => subst answer; exact .of_same rfl rfl rfl rfl rfl
  | executed _ answer =>
    refine ⟨answer.keeps.cfg, answer.predictor.untouched_fb, fun hp => ?_⟩
    have same : t.pendF = s.pendF ∧ t.pendV = s.pendV := by
      rcases answer.pending with ⟨-, hf, hv⟩ | ⟨r, v, -, -, hf, hv⟩
      · exact ⟨hf, hv⟩
      · exact ⟨hf.trans (State.pendFWith_ss hp r), hv.trans (State.pendVWith_ss hp r v)⟩
    exact ⟨same.2, fun r hr => (State.isPending_congr same.1 r).trans hr⟩

theorem decodeState_foreignTables (s : State) : ForeignTablesKept s (decodeState s) := by
  have k := decodeState_keeps s
  refine ⟨k.cfg, fun hp => ?_, fun _ => ⟨k.pendV, fun r hr => (State.isPending_congr k.pendF r).trans hr⟩⟩
  refine decodeState_elim (P := fun t => t.btb = s.btb ∧ t.btbHead = s.btbHead) s (fun _ => ⟨rfl, rfl⟩)
    (fun _ _ _ => ⟨rfl, rfl⟩) fun l i t _ _ o => ?_
  cases o with
  | refused _ answer => subst answer; exact ⟨rfl, rfl⟩
  | admitted answer => exact answer.predictor.untouched_fb hp

/-- Settles O48: every stage leaves the table of the other policy alone. -/
theorem eachPolicyLeavesTheOthersTablesAlone : Obligations.EachPolicyLeavesTheOthersTablesAlone := by
  intro s t h
  have kept : ForeignTablesKept s t := by
    refine step_keeps (P := ForeignTablesKept s) h (fun _ => .of_same rfl rfl rfl rfl rfl)
      (fun _ => .of_same rfl rfl rfl rfl rfl) ?writeback ?memory ?execute ?decode ?fetch
      fun _ hu => hu.trans (.of_same rfl rfl rfl rfl rfl)
    case writeback => exact fun u hu => hu.trans (writebackState_foreignTables u)
    case memory =>
      intro u hu
      have k := memoryState_keeps u
      exact hu.trans (.of_same k.cfg k.btb k.btbHead k.pendV k.pendF)
    case execute => exact fun u hu => hu.trans (executeState_foreignTables u)
    case decode => exact fun u hu => hu.trans (decodeState_foreignTables u)
    case fetch =>
      intro u hu
      have k := fetchState_keeps u
      exact hu.trans (.of_same k.cfg k.btb k.btbHead k.pendV k.pendF)
  exact ⟨kept.predictor, kept.pending⟩

end Sys2Proof.Machine
end

section
/-! PROOFS. Data memory and reset (10_state.md R31, R43). -/

namespace Sys2Proof.Machine

theorem State.memoryInv_congr {s t : State} (cfg : t.cfg = s.cfg) (dmem : t.dmem = s.dmem) (h : s.memoryInv) :
    t.memoryInv := by
  unfold State.memoryInv
  rwa [cfg, dmem]

/-- A store writes a word inside data memory, in the same form (20_memory.md R62, R64). -/
theorem memoryState_memoryInv (s : State) (h : s.memoryInv) : (memoryState s).memoryInv := by
  have hc := (memoryState_keeps s).cfg
  rcases memoryState_dmem s with same | ⟨l, i, a, v, -, -, -, -, hr, written⟩
  · exact State.memoryInv_congr hc same h
  · obtain ⟨form, inside⟩ := h
    unfold State.memoryInv
    rw [written, hc]
    refine ⟨writeCells_cellsFrom v form (Nat.zero_le _), fun c hmem => ?_⟩
    rcases mem_writeCells hmem with old | new
    · exact inside c old
    · rw [new]; exact (memIndex_lt hr).2

/-- Settles O52: only Memory writes data memory. -/
theorem everyTickKeepsDataMemoryInForm : Obligations.EveryTickKeepsDataMemoryInForm := by
  intro s t hs h
  refine step_keeps (P := State.memoryInv) h (fun _ => hs) (fun _ => hs) ?writeback memoryState_memoryInv ?execute ?decode
    ?fetch fun _ hu => hu
  case writeback => exact fun u hu => State.memoryInv_congr (writebackState_keeps u).cfg (writebackState_keeps u).dmem hu
  case execute => exact fun u hu => State.memoryInv_congr (executeState_keeps u).cfg (executeState_keeps u).dmem hu
  case decode => exact fun u hu => State.memoryInv_congr (decodeState_keeps u).cfg (decodeState_keeps u).dmem hu
  case fetch => exact fun u hu => State.memoryInv_congr (fetchState_keeps u).cfg (fetchState_keeps u).dmem hu

end Sys2Proof.Machine
end

section
/-! PROOFS. The predictor table keeps its shape (45_branch_predictor.md R231 to R240). -/

namespace Sys2Proof.Machine

theorem PredictorInv.congr {s t : State} (h : PredictorInv s) (cfg : t.cfg = s.cfg) (btb : t.btb = s.btb)
    (btbHead : t.btbHead = s.btbHead) : PredictorInv t where
  capacity := by rw [cfg, btb]; exact h.capacity
  counterStates := by rw [cfg]; exact h.counterStates
  headInTable := by rw [cfg, btbHead]; exact h.headInTable
  entriesSound := by rw [cfg, btb]; exact h.entriesSound
  tagsDistinct := by rw [btb]; exact h.tagsDistinct

/-- The entry that a lookup finds is in the table, valid and tagged with the address (R231). -/
theorem btbFind_some {s : State} {p : Word} {k : Nat} (h : s.btbFind p = some k) :
    k < s.btb.length ∧ (s.btbEntry k).valid = true ∧ (s.btbEntry k).tag = p := by
  obtain ⟨hk, hit, -⟩ := List.findIdx?_eq_some_iff_getElem.mp h
  simp only [BtbEntry.hits, Bool.and_eq_true, beq_iff_eq] at hit
  simpa [State.btbEntry, hk] using hit

/-- A lookup without answer: no valid entry has the tag (R231). -/
theorem btbFind_none {s : State} {p : Word} (h : s.btbFind p = none) {e : BtbEntry} (he : e ∈ s.btb)
    (hv : e.valid = true) : e.tag ≠ p := by
  have miss := List.findIdx?_eq_none_iff.mp h e he
  simpa [BtbEntry.hits, hv] using miss

/-- An entry replaced by one whose tag, if valid, no other valid entry has keeps the tags distinct (R41(d)). -/
theorem tagsDistinct_set {m : List BtbEntry} {k : Nat} {e : BtbEntry}
    (h : m.Pairwise fun e f => e.valid = true → f.valid = true → e.tag ≠ f.tag)
    (he : ∀ j (hj : j < m.length), j ≠ k → m[j].valid = true → e.valid = true → m[j].tag ≠ e.tag) :
    (m.set k e).Pairwise fun e f => e.valid = true → f.valid = true → e.tag ≠ f.tag := by
  rw [List.pairwise_iff_getElem] at h ⊢
  intro i j hi hj hij
  rw [List.length_set] at hi hj
  simp only [List.getElem_set]
  by_cases hki : k = i
  · have hkj : k ≠ j := by omega
    simp only [hki, if_true, if_neg (hki ▸ hkj)]
    exact fun a b => (he j hj (Ne.symm hkj) b a).symm
  · by_cases hkj : k = j
    · simp only [hkj, if_true, if_neg (hkj ▸ hki)]
      exact fun a b => he i hi (Ne.symm hki) a b
    · simp only [if_neg hki, if_neg hkj]
      exact h i j hi hj hij

/-- Two bits hold every counter state up to `CTR_MAX` (10_state.md R39). -/
theorem toNat_counter {n m : Nat} (h : n ≤ m) (hm : m ≤ 3) : (BitVec.ofNat 2 n).toNat = n := by
  rw [BitVec.toNat_ofNat, Nat.mod_eq_of_lt (by omega)]

/-- A new entry is neutral (R232). -/
theorem allocated_sound {P : Params} (p : Word) (h : P.ctrNeutral ≤ P.ctrMax ∧ P.ctrMax ≤ 3) :
    (BtbEntry.allocated P p).sound P := by
  have neutral : (BtbEntry.allocated P p).ctr.toNat = P.ctrNeutral := toNat_counter h.1 h.2
  exact ⟨neutral.trans_le h.1, fun hr => (nomatch hr), fun _ _ => neutral⟩

/-- Training by a taken outcome: the counter goes up to `CTR_MAX` at most, or starts from neutral (R236). -/
theorem trainedTaken_sound {P : Params} {e : BtbEntry} (tgt : Word) (h : P.ctrNeutral ≤ P.ctrMax ∧ P.ctrMax ≤ 3)
    (hv : e.valid = true) : (e.trainedTaken P tgt).sound P := by
  unfold BtbEntry.trainedTaken
  split
  · rename_i hr
    simp only [Bool.and_eq_true] at hr
    have up : (stepUp P e.ctr).toNat = min P.ctrMax (e.ctr.toNat + 1) := toNat_counter (min_le_left _ _) h.2
    exact ⟨up.trans_le (min_le_left _ _), fun _ => hv, fun _ hu => absurd (hr.1.symm.trans hu) (by decide)⟩
  · exact ⟨(toNat_counter h.1 h.2).trans_le h.1, fun _ => hv, fun _ hu => nomatch hu⟩

@[simp] theorem BtbEntry.trainedTaken_valid (P : Params) (e : BtbEntry) (tgt : Word) :
    (e.trainedTaken P tgt).valid = e.valid := by
  unfold BtbEntry.trainedTaken; split <;> rfl

@[simp] theorem BtbEntry.trainedTaken_tag (P : Params) (e : BtbEntry) (tgt : Word) :
    (e.trainedTaken P tgt).tag = e.tag := by
  unfold BtbEntry.trainedTaken; split <;> rfl

/-- Training by a not-taken outcome: the counter goes down (R237). -/
theorem trainedNotTaken_sound {P : Params} {e : BtbEntry} (h : e.sound P) (hr : e.resolved = true) :
    e.trainedNotTaken.sound P := by
  obtain ⟨inRange, resolved, -⟩ := h
  have down : (stepDown e.ctr).toNat = e.ctr.toNat - 1 := by
    have := e.ctr.isLt
    exact toNat_counter (m := 3) (by omega) le_rfl
  refine ⟨?_, resolved, fun _ hu => absurd (hr.symm.trans hu) (by decide)⟩
  show (stepDown e.ctr).toNat ≤ P.ctrMax
  omega

/-- The table after a sound entry has been put in whose tag, if valid, no other valid entry has. -/
theorem PredictorInv.setBtb {s : State} (h : PredictorInv s) {k : Nat} {e : BtbEntry} (sound : e.sound s.cfg)
    (distinct : ∀ j (hj : j < s.btb.length), j ≠ k → s.btb[j].valid = true → e.valid = true → s.btb[j].tag ≠ e.tag) :
    PredictorInv (s.setBtb k e) where
  capacity := ⟨h.capacity.1, (List.length_set ..).trans h.capacity.2⟩
  counterStates := h.counterStates
  headInTable := h.headInTable
  entriesSound := fun f hf => (List.mem_or_eq_of_mem_set hf).elim (h.entriesSound f) fun hfe => hfe ▸ sound
  tagsDistinct := tagsDistinct_set h.tagsDistinct distinct

/-- A head moved on modulo `BTB_ENTRIES` is in the table (R232, R240(a)). -/
theorem PredictorInv.btbAlloc {s : State} (h : PredictorInv s) {p : Word} (absent : s.btbFind p = none) :
    PredictorInv (s.btbAlloc p) := by
  obtain ⟨capacity, counterStates, headInTable, entriesSound, tagsDistinct⟩ :=
    h.setBtb (k := s.btbHead) (allocated_sound p h.counterStates)
      fun _ hj _ hv _ => btbFind_none absent (List.getElem_mem hj) hv
  exact ⟨capacity, counterStates, Nat.mod_lt _ h.capacity.1, entriesSound, tagsDistinct⟩

/-- Replacing a valid entry by a sound one with the same tag. -/
theorem PredictorInv.retrain {s : State} (h : PredictorInv s) {k : Nat} {e : BtbEntry} (hk : k < s.btb.length)
    (hv : (s.btbEntry k).valid = true) (ht : e.tag = (s.btbEntry k).tag) (sound : e.sound s.cfg) :
    PredictorInv (s.setBtb k e) := by
  refine h.setBtb sound fun j hj hjk hjv _ => ?_
  have entry : s.btbEntry k = s.btb[k] := by simp [State.btbEntry, hk]
  rw [ht, entry]
  rw [entry] at hv
  have distinct := List.pairwise_iff_getElem.mp h.tagsDistinct
  rcases Nat.lt_or_gt_of_ne hjk with hlt | hgt
  · exact distinct j k hj hk hlt hjv hv
  · exact (distinct k j hk hj hgt hv hjv).symm

theorem PredictorInv.trainTaken {s : State} (h : PredictorInv s) {k : Nat} (hk : k < s.btb.length)
    (hv : (s.btbEntry k).valid = true) (tgt : Word) : PredictorInv (s.trainTaken k tgt) :=
  h.retrain hk hv (by simp) (trainedTaken_sound tgt h.counterStates hv)

theorem PredictorInv.trainNotTaken {s : State} (h : PredictorInv s) {k : Nat} (hk : k < s.btb.length)
    (hv : (s.btbEntry k).valid = true) (hr : (s.btbEntry k).resolved = true) : PredictorInv (s.trainNotTaken k) := by
  have sound : (s.btbEntry k).sound s.cfg := h.entriesSound _ (by simp [State.btbEntry, hk])
  exact h.retrain hk hv rfl (trainedNotTaken_sound sound hr)

/-- What Execute makes of the predictor keeps its shape (R193). -/
theorem PredictorInv.trains {i : Instr} {p : Word} {s t : State} (h : PredictorInv s) (cfg : t.cfg = s.cfg)
    (ht : Trains i p s t) : PredictorInv t := by
  cases ht with
  | untouched same => exact h.congr cfg same.1 same.2
  | taken k _ _ found table head =>
    obtain ⟨hk, hv, -⟩ := btbFind_some found
    exact (h.trainTaken hk hv _).congr cfg table head
  | allocated _ _ absent table head =>
    have hk : s.btbHead < (s.btbAlloc p).btb.length := by
      simpa [h.capacity.2] using h.headInTable
    have hv : ((s.btbAlloc p).btbEntry s.btbHead).valid = true := by
      simp only [State.btbAlloc_btb, List.length_set] at hk
      simp [State.btbEntry, hk, BtbEntry.allocated]
    exact ((h.btbAlloc absent).trainTaken hk hv _).congr cfg table head
  | notTaken k _ _ found resolved table head =>
    obtain ⟨hk, hv, -⟩ := btbFind_some found
    exact (h.trainNotTaken hk hv resolved).congr cfg table head

/-- What Decode makes of the predictor keeps its shape (R153). -/
theorem PredictorInv.allocates {i : Instr} {p : Word} {s t : State} (h : PredictorInv s) (cfg : t.cfg = s.cfg)
    (ht : Allocates i p s t) : PredictorInv t := by
  cases ht with
  | untouched same => exact h.congr cfg same.1 same.2
  | allocated _ _ absent table head => exact (h.btbAlloc absent).congr cfg table head

theorem executeState_predictorInv (s : State) (h : PredictorInv s) : PredictorInv (executeState s) := by
  refine executeState_elim s (fun _ => h) (fun _ _ _ => h.congr rfl rfl rfl) fun l i t _ _ o => ?_
  cases o with
  | uncaptured _ answer => subst answer; exact h.congr rfl rfl rfl
  | divides answer => subst answer; exact h.congr rfl rfl rfl
  | executed _ answer => exact (h.congr (t := s.at .execute) rfl rfl rfl).trains answer.keeps.cfg answer.predictor

theorem decodeState_predictorInv (s : State) (h : PredictorInv s) : PredictorInv (decodeState s) := by
  refine decodeState_elim s (fun _ => h) (fun _ _ _ => h.congr rfl rfl rfl) fun l i t _ _ o => ?_
  cases o with
  | refused _ answer => subst answer; exact h.congr rfl rfl rfl
  | admitted answer => exact (h.congr (t := s.at .decode) rfl rfl rfl).allocates answer.keeps.cfg answer.predictor

/-- Settles O57: only Execute and Decode write the predictor. -/
theorem everyTickKeepsThePredictorSound : Obligations.EveryTickKeepsThePredictorSound := by
  intro s t hs h
  refine step_keeps h (fun _ => hs.congr rfl rfl rfl) (fun _ => hs.congr rfl rfl rfl) ?writeback ?memory
    executeState_predictorInv decodeState_predictorInv ?fetch fun _ hu => hu.congr rfl rfl rfl
  case writeback =>
    intro u hu
    have k := writebackState_keeps u
    exact hu.congr k.cfg k.btb k.btbHead
  case memory =>
    intro u hu
    have k := memoryState_keeps u
    exact hu.congr k.cfg k.btb k.btbHead
  case fetch =>
    intro u hu
    have k := fetchState_keeps u
    exact hu.congr k.cfg k.btb k.btbHead

end Sys2Proof.Machine
end

section
/-! PROOFS. A stage of a running tick empties its latch (40_scheduler.md R113), and the hazard tables stay an exact description of the
instructions past Decode (10_state.md R42(a), R42(b)). -/

namespace Sys2Proof.Machine

/-! ## A stage that does not end the tick leaves its latch empty -/

@[simp] theorem State.terminal_raise (s : State) (f : Fault) : (s.raise f).terminal = true := by simp [State.terminal]

theorem writebackState_wl {s : State} (h : (writebackState s).terminal = false) : (writebackState s).wl = none := by
  revert h
  refine writebackState_elim (P := fun t => t.terminal = false → t.wl = none) s (fun he _ => he) (fun _ _ _ => by simp)
    fun l i t _ _ o => ?_
  cases o with
  | missing _ _ answer => subst answer; simp
  | committed answer => exact fun _ => answer.wl

theorem memoryState_ml {s : State} (h : (memoryState s).terminal = false) : (memoryState s).ml = none := by
  revert h
  refine memoryState_elim (P := fun t => t.terminal = false → t.ml = none) s (fun he _ => he) (fun _ _ _ => by simp)
    fun l i t _ _ o => ?_
  cases o with
  | missing _ _ answer => subst answer; simp
  | outOfRange _ _ _ _ answer => subst answer; simp
  | accessed _ answer => exact fun _ => answer.ml

theorem executeState_el {s : State} (h : (executeState s).terminal = false) : (executeState s).el = none := by
  revert h
  refine executeState_elim (P := fun t => t.terminal = false → t.el = none) s (fun he _ => he) (fun _ _ _ => by simp)
    fun l i t _ _ o => ?_
  cases o with
  | uncaptured _ answer => subst answer; simp
  | divides answer => subst answer; simp
  | executed _ answer => exact fun _ => answer.el

/-! ## What a latch's occupant owns -/

theorem writesOf_congr {l l' : Latch} (h : l'.op = l.op) : writesOf (some l') = writesOf (some l) := by
  simp only [writesOf, h]

theorem publishesOf_congr {l l' : Latch} (h : l'.op = l.op) : publishesOf (some l') = publishesOf (some l) := by
  simp only [publishesOf, h]

theorem commitValue_congr {l l' : Latch} (op : l'.op = l.op) (res : l'.res = l.res) (res2 : l'.res2 = l.res2) (r : Reg) :
    l'.commitValue r = l.commitValue r := by
  simp only [Latch.commitValue, op, res, res2]

/-- Memory leaves the value that Execute published: a load brings a new result, but what it published is its base (R188, R211). -/
theorem commitValue_accessed {i : Instr} {l l' : Latch} {s t : State} (a : Accessed i l l' s t) (ho : l.op = .instr i)
    {r : Reg} (hr : r ∈ writesAtExecute i) : l'.commitValue r = l.commitValue r := by
  obtain ⟨-, hop, -, hres2⟩ := a.record
  by_cases hload : i.opClass = .load
  · cases i with
    | load => cases hr
    | loadp rd rs1 imm =>
      cases List.mem_singleton.mp hr
      simp [Latch.commitValue, hop, ho, hres2]
    | _ => cases hload
  · exact commitValue_congr hop (a.result.2 hload) hres2 r

/-! ## Each stage keeps the tables exact -/

theorem HazardInv.congr {s t : State} (h : HazardInv s) (cfg : t.cfg = s.cfg) (el : t.el = s.el) (ml : t.ml = s.ml)
    (wl : t.wl = s.wl) (busy : t.busy = s.busy) (pendF : t.pendF = s.pendF) (pendV : t.pendV = s.pendV) :
    HazardInv t where
  busyExactly r := by rw [State.isBusy_congr busy, el, ml, wl]; exact h.busyExactly r
  disjointExecuteMemory := by rw [el, ml]; exact h.disjointExecuteMemory
  disjointExecuteWriteback := by rw [el, wl]; exact h.disjointExecuteWriteback
  disjointMemoryWriteback := by rw [ml, wl]; exact h.disjointMemoryWriteback
  pendingExactly r := by rw [State.isPending_congr pendF, cfg, ml, wl]; exact h.pendingExactly r
  pendingMemory r := by rw [State.isPending_congr pendF, State.pendingValue_congr pendV, ml]; exact h.pendingMemory r
  pendingWriteback r := by rw [State.isPending_congr pendF, State.pendingValue_congr pendV, wl]; exact h.pendingWriteback r

/-- A commit releases the registers that the instruction owned (R217). -/
theorem HazardInv.committed {i : Instr} {l : Latch} {s t : State} (h : HazardInv s) (hl : s.wl = some l)
    (ho : l.op = .instr i) (c : Committed i l s t) : HazardInv t := by
  have owned : writesOf s.wl = writes i := by rw [hl, writesOf_instr ho]
  have inTable (r : Reg) : t.isPending r = true ↔ s.isPending r = true ∧ r ∉ writes i := by rw [c.unpended r]; simp
  have value (r : Reg) : t.pendingValue r = s.pendingValue r := State.pendingValue_congr c.keeps.pendV r
  constructor
  case busyExactly =>
    intro r
    have busy := h.busyExactly r
    have apartE := h.disjointExecuteWriteback r
    have apartM := h.disjointMemoryWriteback r
    rw [owned] at busy apartE apartM
    rw [c.released r, c.keeps.el, c.keeps.ml, c.wl, Bool.and_eq_true, busy]
    simp only [writesOf, List.not_mem_nil, or_false, Bool.not_eq_true', decide_eq_false_iff_not]
    tauto
  case disjointExecuteMemory => rw [c.keeps.el, c.keeps.ml]; exact h.disjointExecuteMemory
  case disjointExecuteWriteback => rw [c.wl]; simp [writesOf]
  case disjointMemoryWriteback => rw [c.wl]; simp [writesOf]
  case pendingExactly =>
    intro r
    have apartM := h.disjointMemoryWriteback r
    have mine : r ∈ publishesOf s.ml → r ∈ writesOf s.ml := publishes_writes
    have its : r ∈ publishesOf s.wl → r ∈ writesOf s.wl := publishes_writes
    rw [owned] at apartM its
    rw [inTable, h.pendingExactly, c.keeps.cfg, c.keeps.ml, c.wl]
    simp only [publishesOf, List.not_mem_nil, or_false]
    tauto
  case pendingMemory =>
    intro r l' hp hm hr
    rw [value]
    exact h.pendingMemory r l' ((inTable r).mp hp).1 (c.keeps.ml.symm.trans hm) hr
  case pendingWriteback => intro r l' _ hw; rw [c.wl] at hw; cases hw

/-- Memory moves an instruction to the empty `WL` with the registers it owns and the values it published (R214). -/
theorem HazardInv.accessed {i : Instr} {l l' : Latch} {s t : State} (h : HazardInv s) (hl : s.ml = some l)
    (ho : l.op = .instr i) (hw : s.wl = none) (a : Accessed i l l' s t) : HazardInv t := by
  have owned : writesOf t.wl = writesOf s.ml := by rw [a.wl, hl]; exact writesOf_congr a.record.2.1
  have published : publishesOf t.wl = publishesOf s.ml := by rw [a.wl, hl]; exact publishesOf_congr a.record.2.1
  constructor
  case busyExactly =>
    intro r
    rw [State.isBusy_congr a.keeps.busy, h.busyExactly r, owned, a.keeps.el, a.ml, hw]
    simp [writesOf]
  case disjointExecuteMemory => rw [a.ml]; simp [writesOf]
  case disjointExecuteWriteback => rw [a.keeps.el, owned]; exact h.disjointExecuteMemory
  case disjointMemoryWriteback => rw [a.ml]; simp [writesOf]
  case pendingExactly =>
    intro r
    rw [State.isPending_congr a.keeps.pendF, h.pendingExactly r, published, a.keeps.cfg, a.ml, hw]
    simp [publishesOf]
  case pendingMemory => intro r k _ hm; rw [a.ml] at hm; cases hm
  case pendingWriteback =>
    intro r k hp hk hr
    rw [State.isPending_congr a.keeps.pendF] at hp
    rw [← hk, published, hl] at hr
    cases hk.symm.trans a.wl
    rw [State.pendingValue_congr a.keeps.pendV,
      commitValue_accessed a ho (by rwa [publishesOf_instr ho] at hr)]
    exact h.pendingMemory r l hp hl hr

/-- What Execute leaves in the pending table is the old table with what the instruction publishes (R188). -/
theorem executed_pending {i : Instr} {l l' : Latch} {s t : State} (e : Executed i l l' s t) (ho : l.op = .instr i) (r : Reg) :
    (t.isPending r = true ↔ (s.cfg.policy = .fb ∧ r ∈ writesAtExecute i) ∨ s.isPending r = true) ∧
      (r ∉ writesAtExecute i → t.pendingValue r = s.pendingValue r) ∧
      (s.cfg.policy = .fb → r ∈ writesAtExecute i → l'.commitValue r = some (t.pendingValue r)) := by
  rcases e.pending with ⟨none, hF, hV⟩ | ⟨q, v, one, hc, hF, hV⟩
  · rw [State.isPending_congr hF, State.pendingValue_congr hV, none]
    simp
  · rw [State.isPending_congr (hF.trans (State.publish_pendFWith s q v).symm),
      State.pendingValue_congr (hV.trans (State.publish_pendVWith s q v).symm), one]
    refine ⟨by simp, fun hr => ?_, fun hp hr => ?_⟩
    · simp only [List.mem_singleton] at hr
      simp [hr]
    · cases List.mem_singleton.mp hr
      simp [hp, hc ho]

/-- Execute moves an instruction to the empty `ML` with the registers it owns, and publishes (R188, R189). -/
theorem HazardInv.executed {i : Instr} {l l' : Latch} {s t : State} (h : HazardInv s) (hl : s.el = some l)
    (ho : l.op = .instr i) (hm : s.ml = none) (e : Executed i l l' s t) : HazardInv t := by
  obtain ⟨-, hop, -, -⟩ := e.record
  have owned : writesOf t.ml = writesOf s.el := by rw [e.ml, hl]; exact writesOf_congr hop
  have published : publishesOf t.ml = writesAtExecute i := by rw [e.ml, publishesOf_instr (hop.trans ho)]
  have owns {r : Reg} (hr : r ∈ writesAtExecute i) : r ∈ writesOf s.el := by
    have mine : r ∈ publishesOf s.el := by rwa [hl, publishesOf_instr ho]
    exact publishes_writes mine
  constructor
  case busyExactly =>
    intro r
    rw [State.isBusy_congr e.keeps.busy, h.busyExactly r, owned, e.keeps.wl, e.el, hm]
    simp [writesOf]
  case disjointExecuteMemory => rw [e.el]; simp [writesOf]
  case disjointExecuteWriteback => rw [e.el]; simp [writesOf]
  case disjointMemoryWriteback => rw [owned, e.keeps.wl]; exact h.disjointExecuteWriteback
  case pendingExactly =>
    intro r
    rw [(executed_pending e ho r).1, h.pendingExactly r, published, e.keeps.cfg, e.keeps.wl, hm]
    simp only [publishesOf, List.not_mem_nil, false_or]
    tauto
  case pendingMemory =>
    intro r k hp hk hr
    obtain ⟨pending, -, value⟩ := executed_pending e ho r
    rw [← hk, published] at hr
    cases hk.symm.trans e.ml
    have policy : s.cfg.policy = .fb := (pending.mp hp).elim And.left fun old => ((h.pendingExactly r).mp old).1
    exact value policy hr
  case pendingWriteback =>
    intro r k hp hk hr
    obtain ⟨pending, kept, -⟩ := executed_pending e ho r
    rw [e.keeps.wl] at hk
    have apart : r ∉ writesAtExecute i := fun hx =>
      h.disjointExecuteWriteback r (owns hx) (by rw [hk]; exact publishes_writes hr)
    rw [kept apart]
    exact h.pendingWriteback r k ((pending.mp hp).resolve_left fun new => apart new.2) hk hr

/-- An instruction that Decode admits owns only registers that were free (R161 to R163). -/
theorem HazardInv.admitted {i : Instr} {l : Latch} {s t : State} (h : HazardInv s) (he : s.el = none)
    (ho : l.op = .instr i) (a : Admitted i l s t) : HazardInv t := by
  have owned : writesOf t.el = writes i := by rw [a.el]; exact writesOf_instr ho
  have free {r : Reg} (hr : r ∈ writes i) : r ∉ writesOf s.ml ∧ r ∉ writesOf s.wl := by
    have idle : s.isBusy r = false := by
      by_contra busy
      have stalls := (State.stalls_iff s i).mpr (.inl ⟨r, hr, by simpa using busy⟩)
      rw [a.noHazard] at stalls
      cases stalls
    have owners := h.busyExactly r
    rw [idle] at owners
    simpa [he, writesOf] using owners
  constructor
  case busyExactly =>
    intro r
    rw [a.busy r, Bool.or_eq_true, h.busyExactly r, owned, a.keeps.ml, a.keeps.wl, he]
    simp [writesOf]
  case disjointExecuteMemory => intro r; rw [owned, a.keeps.ml]; exact fun hr => (free hr).1
  case disjointExecuteWriteback => intro r; rw [owned, a.keeps.wl]; exact fun hr => (free hr).2
  case disjointMemoryWriteback => rw [a.keeps.ml, a.keeps.wl]; exact h.disjointMemoryWriteback
  case pendingExactly =>
    intro r
    rw [State.isPending_congr a.keeps.pendF, a.keeps.cfg, a.keeps.ml, a.keeps.wl]
    exact h.pendingExactly r
  case pendingMemory =>
    intro r
    rw [State.isPending_congr a.keeps.pendF, State.pendingValue_congr a.keeps.pendV, a.keeps.ml]
    exact h.pendingMemory r
  case pendingWriteback =>
    intro r
    rw [State.isPending_congr a.keeps.pendF, State.pendingValue_congr a.keeps.pendV, a.keeps.wl]
    exact h.pendingWriteback r

/-! ## The stage procedures and the tick -/

/-! The invariant does not speak of the fault, the turn of a stage and the clock. -/

theorem HazardInv.raise {s : State} (h : HazardInv s) (f : Fault) : HazardInv (s.raise f) :=
  h.congr rfl rfl rfl rfl rfl rfl rfl

theorem HazardInv.at {s : State} (h : HazardInv s) (stage : Stage) : HazardInv (s.at stage) :=
  h.congr rfl rfl rfl rfl rfl rfl rfl

theorem HazardInv.endTick {s : State} (h : HazardInv s) : HazardInv s.endTick := h.congr rfl rfl rfl rfl rfl rfl rfl

theorem writebackState_hazardInv (s : State) (h : HazardInv s) : HazardInv (writebackState s) := by
  refine writebackState_elim s (fun _ => h) (fun _ _ _ => (h.at _).raise _) fun l i t hl ho o => ?_
  cases o with
  | missing _ _ answer => subst answer; exact (h.at _).raise _
  | committed answer => exact (h.at .writeback).committed hl ho answer

theorem memoryState_hazardInv (s : State) (h : HazardInv s) (hw : s.wl = none) : HazardInv (memoryState s) := by
  refine memoryState_elim s (fun _ => h) (fun _ _ _ => (h.at _).raise _) fun l i t hl ho o => ?_
  cases o with
  | missing _ _ answer => subst answer; exact (h.at _).raise _
  | outOfRange _ _ _ _ answer => subst answer; exact (h.at _).raise _
  | accessed _ answer => exact (h.at .memory).accessed hl ho hw answer

theorem executeState_hazardInv (s : State) (h : HazardInv s) (hm : s.ml = none) : HazardInv (executeState s) := by
  refine executeState_elim s (fun _ => h) (fun _ _ _ => (h.at _).raise _) fun l i t hl ho o => ?_
  cases o with
  | uncaptured _ answer => subst answer; exact (h.at _).raise _
  | divides answer => subst answer; exact (h.at _).raise _
  | executed _ answer => exact (h.at .execute).executed hl ho hm answer

theorem decodeState_hazardInv (s : State) (h : HazardInv s) (he : s.el = none) : HazardInv (decodeState s) := by
  refine decodeState_elim s (fun _ => h) (fun _ _ _ => h.raise _) fun l i t _ ho o => ?_
  cases o with
  | refused _ answer => subst answer; exact h.congr rfl rfl rfl rfl rfl rfl rfl
  | admitted answer => exact (h.at .decode).admitted he ho answer

theorem fetchState_hazardInv (s : State) (h : HazardInv s) : HazardInv (fetchState s) := by
  have k := fetchState_keeps s
  exact h.congr k.cfg k.el k.ml k.wl k.busy k.pendF k.pendV

/-- Settles O56: each stage of a running tick moves its occupant into a latch that the stage before it in the tick emptied. -/
theorem everyTickKeepsTheHazardTablesExact : Obligations.EveryTickKeepsTheHazardTablesExact := by
  intro s t hs h
  exact step_stages (P0 := HazardInv) (P1 := fun u => HazardInv u ∧ (u.terminal = false → u.wl = none))
    (P2 := fun u => HazardInv u ∧ (u.terminal = false → u.ml = none))
    (P3 := fun u => HazardInv u ∧ (u.terminal = false → u.el = none)) (P4 := HazardInv) (P5 := HazardInv) h
    (fun _ => hs.congr rfl rfl rfl rfl rfl rfl rfl) (fun _ => hs.congr rfl rfl rfl rfl rfl rfl rfl)
    (writeback := fun u hu => ⟨writebackState_hazardInv u hu, writebackState_wl⟩)
    (memory := fun u hu live => ⟨memoryState_hazardInv u hu.1 (hu.2 live), memoryState_ml⟩)
    (execute := fun u hu live => ⟨executeState_hazardInv u hu.1 (hu.2 live), executeState_el⟩)
    (decode := fun u hu live => decodeState_hazardInv u hu.1 (hu.2 live))
    (fetch := fun u hu _ => fetchState_hazardInv u hu)
    (stop1 := fun _ hu _ => hu.1.endTick)
    (stop2 := fun _ hu _ => hu.1.endTick)
    (stop3 := fun _ hu _ => hu.1.endTick)
    (stop4 := fun _ hu _ => hu.endTick)
    (finish := fun _ hu => hu.endTick)

end Sys2Proof.Machine
end

section
/-! PROOFS. The Fetch and Decode control bits (10_state.md R36, R42(d), R42(e)). -/

namespace Sys2Proof.Machine

/-- Only a halt or a fault makes an engine terminal (40_scheduler.md R112). -/
theorem State.terminal_congr {s t : State} (halted : t.halted = s.halted) (fault : t.fault = s.fault) :
    t.terminal = s.terminal := by
  simp only [State.terminal, halted, fault]

/-- The control bits in the middle of a tick are those of a tick boundary, whatever the turn. -/
def State.controlsOk (s : State) : Prop := ControlInv s.endTick

theorem State.controlsOk.congr {s t : State} (h : s.controlsOk) (redirectPending : t.redirectPending = s.redirectPending)
    (dlStall : t.dlStall = s.dlStall) (dl : t.dl = s.dl) (el : t.el = s.el ∨ t.el = none) (flHeld : t.flHeld = s.flHeld)
    (fetchEn : t.fetchEn = s.fetchEn) (fl : t.fl = s.fl) : t.controlsOk where
  noRedirectPending := redirectPending.trans h.noRedirectPending
  betweenTicks := rfl
  stallKeepsDecode := by
    intro stalled
    obtain ⟨occupied, empty⟩ := h.stallKeepsDecode (dlStall.symm.trans stalled)
    exact ⟨(congrArg Option.isSome dl).trans occupied, el.elim (·.trans empty) id⟩
  heldBehindStall := by
    intro held
    obtain ⟨enabled, occupied, stalled, latch⟩ := h.heldBehindStall (flHeld.symm.trans held)
    exact ⟨fetchEn.trans enabled, (congrArg Option.isSome dl).trans occupied, dlStall.trans stalled,
      (congrArg Option.isSome fl).trans latch⟩

theorem writebackState_controlsOk (s : State) (h : s.controlsOk) : (writebackState s).controlsOk := by
  have k := writebackState_keeps s
  exact h.congr k.redirectPending k.dlStall k.dl (.inl k.el) k.flHeld k.fetchEn k.fl

theorem memoryState_controlsOk (s : State) (h : s.controlsOk) : (memoryState s).controlsOk := by
  have k := memoryState_keeps s
  exact h.congr k.redirectPending k.dlStall k.dl (.inl k.el) k.flHeld k.fetchEn k.fl

/-- Execute leaves the bits in order, or redirects and the tick goes on (R189, R195). -/
theorem executeState_controls (s : State) (h : s.controlsOk) (live : s.terminal = false) :
    (executeState s).controlsOk ∨ (FrontRedirected (executeState s) ∧ (executeState s).terminal = false) := by
  refine executeState_elim (P := fun t => t.controlsOk ∨ (FrontRedirected t ∧ t.terminal = false)) s (fun _ => .inl h)
    (fun _ _ _ => .inl (h.congr rfl rfl rfl (.inl rfl) rfl rfl rfl)) fun l i t _ _ o => ?_
  cases o with
  | uncaptured _ answer => subst answer; exact .inl (h.congr rfl rfl rfl (.inl rfl) rfl rfl rfl)
  | divides answer => subst answer; exact .inl (h.congr rfl rfl rfl (.inl rfl) rfl rfl rfl)
  | executed _ answer =>
    rcases answer.front with f | ⟨redirected, -, -⟩
    · exact .inl (h.congr f.redirectPending f.dlStall f.dl (.inr answer.el) f.flHeld f.fetchEn answer.keeps.fl)
    · exact .inr ⟨redirected, (State.terminal_congr answer.keeps.halted answer.fault).trans live⟩

/-- After Decode of a tick that goes on: `DL` is occupied exactly by a refused instruction (R165), a held instruction can be
retried, and a pending redirect has dropped it (R195). -/
structure AfterDecode (s : State) : Prop where
  running : s.terminal = false
  el : s.dlStall = true → s.el = none
  stall : s.dlStall = s.dl.isSome
  held : s.flHeld = true → s.fetchEn = true ∧ s.fl.isSome = true
  redirect : s.redirectPending = true → s.flHeld = false

/-- Decode after an Execute that did not redirect. -/
theorem decodeState_controls (s : State) (h : s.controlsOk) (live : s.terminal = false) (he : s.el = none) :
    ((decodeState s).controlsOk ∧ (decodeState s).terminal = true) ∨ AfterDecode (decodeState s) := by
  have noRedirect : s.redirectPending = false := h.noRedirectPending
  have held : s.flHeld = true → s.fetchEn = true ∧ s.fl.isSome = true := fun held =>
    ⟨(h.heldBehindStall held).1, (h.heldBehindStall held).2.2.2⟩
  have noPending : s.redirectPending = true → s.flHeld = false := fun p => nomatch noRedirect.symm.trans p
  refine decodeState_elim (P := fun t => (t.controlsOk ∧ t.terminal = true) ∨ AfterDecode t) s (fun hd => ?empty)
    (fun _ _ _ => .inl ⟨h.congr rfl rfl rfl (.inl rfl) rfl rfl rfl, by simp⟩) fun l i t hd _ o => ?occupied
  case empty =>
    have noStall : s.dlStall = false := by
      by_contra stalled
      have occupied := (h.stallKeepsDecode (by simpa using stalled)).1
      simp [hd] at occupied
    exact .inr ⟨live, fun _ => he, by rw [noStall, hd]; rfl, held, noPending⟩
  case occupied =>
    cases o with
    | refused _ answer =>
      subst answer
      exact .inr ⟨live, fun _ => he, by simp [hd], held, noPending⟩
    | admitted answer =>
      have k := answer.keeps
      refine .inr ⟨(State.terminal_congr k.halted answer.fault).trans live, ?_, ?_, ?_, ?_⟩
      · rw [answer.dlStall]; exact nofun
      · rw [answer.dlStall, answer.dl]; rfl
      · rw [k.flHeld, k.fetchEn, k.fl]; exact held
      · rw [k.redirectPending, k.flHeld]; exact noPending

/-- After a redirect Decode has nothing to do (R195). -/
theorem decodeState_redirected (s : State) (h : FrontRedirected s) (live : s.terminal = false) :
    AfterDecode (decodeState s) := by
  rw [decodeState_none h.dl]
  refine ⟨live, ?_, by rw [h.dlStall, h.dl]; rfl, ?_, fun _ => h.flHeld⟩
  · rw [h.dlStall]; exact nofun
  · rw [h.flHeld]; exact nofun

/-- Fetch consumes the redirect, or fills `DL` or holds behind a refused instruction (R131, R132, R135). -/
theorem fetchState_controlsOk (s : State) (h : AfterDecode s) : (fetchState s).controlsOk := by
  have stallKeeps : s.dlStall = true → s.dl.isSome = true ∧ s.el = none := fun stalled =>
    ⟨h.stall.symm.trans stalled, h.el stalled⟩
  have o := fetchState_outcome s
  generalize fetchState s = t at o
  cases o with
  | bubble pending answer =>
    subst answer
    exact ⟨rfl, rfl, stallKeeps, fun held => nomatch (h.redirect pending).symm.trans held⟩
  | disabled pending held _ answer =>
    subst answer
    exact ⟨pending, rfl, stallKeeps, fun c => nomatch held.symm.trans c⟩
  | waits pending held latch occupied answer =>
    subst answer
    exact ⟨pending, rfl, stallKeeps, fun _ => ⟨(h.held held).1, occupied, h.stall.trans occupied, latch⟩⟩
  | missing _ held latch answer =>
    have some := (h.held held).2
    rw [latch] at some
    cases some
  | retried _ pending _ _ _ answer =>
    subst answer
    exact ⟨pending, rfl, nofun, nofun⟩
  | loads _ pending _ _ _ answer =>
    subst answer
    exact ⟨pending, rfl, nofun, nofun⟩
  | holds _ pending _ enabled occupied answer =>
    subst answer
    exact ⟨pending, rfl, stallKeeps, fun _ => ⟨enabled, occupied, h.stall.trans occupied, rfl⟩⟩

/-- Settles O53: the bits are in order up to Execute; from there a redirect or Decode upsets them, and Fetch restores them. -/
theorem everyTickKeepsTheControlBitsConsistent : Obligations.EveryTickKeepsTheControlBitsConsistent := by
  intro s t hs h
  obtain ⟨noRedirect, between, stall, held⟩ := hs
  exact step_stages (Q := ControlInv) (P0 := State.controlsOk) (P1 := State.controlsOk) (P2 := State.controlsOk)
    (P3 := fun u => (u.controlsOk ∨ (FrontRedirected u ∧ u.terminal = false)) ∧ (u.terminal = false → u.el = none))
    (P4 := fun u => (u.controlsOk ∧ u.terminal = true) ∨ AfterDecode u) (P5 := State.controlsOk) h
    (fun _ => ⟨noRedirect, between, stall, held⟩) (fun _ => ⟨noRedirect, rfl, stall, held⟩)
    (writeback := writebackState_controlsOk) (memory := fun u hu _ => memoryState_controlsOk u hu)
    (execute := fun u hu live => ⟨executeState_controls u hu live, executeState_el⟩)
    (decode := fun u hu live => hu.1.elim (fun ok => decodeState_controls u ok live (hu.2 live))
      fun redirected => .inr (decodeState_redirected u redirected.1 live))
    (fetch := fun u hu live => fetchState_controlsOk u (hu.resolve_left fun ended => nomatch live.symm.trans ended.2))
    (stop1 := fun _ hu _ => hu) (stop2 := fun _ hu _ => hu)
    (stop3 := fun _ hu ended => hu.1.resolve_right fun redirected => nomatch ended.symm.trans redirected.2)
    (stop4 := fun _ hu ended => (hu.resolve_right fun goesOn => nomatch ended.symm.trans goesOn.running).1)
    (finish := fun _ hu => hu)

end Sys2Proof.Machine
end

section
/-! PROOFS. Every field that a stage reads has a value (10_state.md R34, 60_exceptions.md R334). -/

namespace Sys2Proof.Machine

/-! ## What a ready latch holds -/

theorem operandsCaptured_iff (l : Latch) (i : Instr) : l.operandsCaptured i = true ↔
    ((operand1 i).isSome = true → l.v1.isSome = true) ∧ ((operand2 i).isSome = true → l.v2.isSome = true) := by
  simp [Latch.operandsCaptured, Decidable.imp_iff_not_or]

theorem executed_iff (l : Latch) (i : Instr) : l.executed i = true ↔
    (producesResult i = true → l.res.isSome = true) ∧ (postIncrements i = true → l.res2.isSome = true) ∧
      (accessesMemory i = true → l.addr.isSome = true) := by
  simp [Latch.executed, Decidable.imp_iff_not_or, and_assoc]

theorem readyForExecute_instr {l : Latch} {i : Instr} (ho : l.op = .instr i) :
    l.readyForExecute = true ↔ l.operandsCaptured i = true := by
  simp [Latch.readyForExecute, ho]

theorem readyForMemory_instr {l : Latch} {i : Instr} (ho : l.op = .instr i) :
    l.readyForMemory = true ↔ l.operandsCaptured i = true ∧ l.executed i = true := by
  simp [Latch.readyForMemory, ho]

theorem readyForWriteback_instr {l : Latch} {i : Instr} (ho : l.op = .instr i) :
    l.readyForWriteback = true ↔ l.executed i = true ∧ (i.opClass = .load → l.res.isSome = true) := by
  simp [Latch.readyForWriteback, ho, Decidable.imp_iff_not_or]

/-- INVALID is not ready for any stage past Decode (30_encoding.md R89). -/
theorem not_ready_of_invalid {l : Latch} (ho : l.op = .invalid) :
    l.readyForExecute = false ∧ l.readyForMemory = false ∧ l.readyForWriteback = false := by
  simp [Latch.readyForExecute, Latch.readyForMemory, Latch.readyForWriteback, ho]

/-- What an instruction other than a store commits is its result, or the word it loaded (30_encoding.md R87). -/
theorem producesResult_or_load {i : Instr} (hw : writes i ≠ []) (hs : i.opClass ≠ .store) :
    producesResult i = true ∨ i.opClass = .load := by
  cases i with
  | load | loadp => exact .inr rfl
  | store | storep => exact absurd rfl hs
  | cmp | cml | bz | bnz | bp | bnp | bn | bnn | jump | nop | halt => exact absurd rfl hw
  | _ => exact .inl rfl

/-- The value that a store writes is its first operand (42_decode_hazard.md R151). -/
theorem operand1_of_store {i : Instr} (h : i.opClass = .store) : (operand1 i).isSome = true := by
  cases i with
  | store | storep => rfl
  | _ => cases h

/-! ## Each stage finds its fields and leaves those of the next one -/

/-- In the middle of a tick: the fields are there, no stage has missed one, and a held latch is there. -/
structure ReadsOk (s : State) : Prop where
  fields : FieldsInv s
  noFault : s.fault ≠ some .invariantFault
  held : s.flHeld = true → s.fl.isSome = true

theorem FieldsInv.congr {s t : State} (h : FieldsInv s) (el : t.el = s.el) (ml : t.ml = s.ml) (wl : t.wl = s.wl) :
    FieldsInv t := by
  obtain ⟨execute, memory, writeback⟩ := h
  exact ⟨by rwa [el], by rwa [ml], by rwa [wl]⟩

/-- A fault of the spec's own changes no latch (60_exceptions.md R336). -/
theorem ReadsOk.raise {s : State} (h : ReadsOk s) {f : Fault} (hf : f ≠ .invariantFault) : ReadsOk (s.raise f) :=
  ⟨h.fields.congr rfl rfl rfl, fun e => hf (Option.some.inj e), h.held⟩

theorem ReadsOk.at {s : State} (h : ReadsOk s) (stage : Stage) : ReadsOk (s.at stage) :=
  ⟨h.fields.congr rfl rfl rfl, h.noFault, h.held⟩

theorem writebackState_readsOk (s : State) (h : ReadsOk s) : ReadsOk (writebackState s) := by
  refine writebackState_elim s (fun _ => h) (fun l hl ho => ?_) fun l i t hl ho o => ?_
  · exact nomatch (not_ready_of_invalid ho).2.2.symm.trans (h.fields.writebackReady l hl)
  · obtain ⟨executed, loaded⟩ := (readyForWriteback_instr ho).mp (h.fields.writebackReady l hl)
    obtain ⟨result, base, -⟩ := (executed_iff l i).mp executed
    cases o with
    | missing field written _ =>
      rcases field with ⟨hs, hr⟩ | ⟨hp, hb⟩
      · have here := (producesResult_or_load written hs).elim result loaded
        simp [hr] at here
      · have here := base hp
        simp [hb] at here
    | committed c =>
      have k := c.keeps
      refine ⟨⟨?_, ?_, ?_⟩, by rw [c.fault]; exact h.noFault, by rw [k.flHeld, k.fl]; exact h.held⟩
      · rw [k.el]; exact h.fields.executeReady
      · rw [k.ml]; exact h.fields.memoryReady
      · simp [c.wl]

/-- An accessed latch is ready for Writeback (R211, R214). -/
theorem Accessed.ready {i : Instr} {l l' : Latch} {s t : State} (a : Accessed i l l' s t) (ho : l.op = .instr i)
    (executed : l.executed i = true) : l'.readyForWriteback = true := by
  obtain ⟨-, hop, haddr, hres2⟩ := a.record
  obtain ⟨result, base, address⟩ := (executed_iff l i).mp executed
  refine (readyForWriteback_instr (hop.trans ho)).mpr
    ⟨(executed_iff l' i).mpr ⟨fun hp => ?_, by rwa [hres2], by rwa [haddr]⟩, a.result.1⟩
  by_cases hload : i.opClass = .load
  · exact a.result.1 hload
  · rw [a.result.2 hload]; exact result hp

theorem memoryState_readsOk (s : State) (h : ReadsOk s) : ReadsOk (memoryState s) := by
  refine memoryState_elim s (fun _ => h) (fun l hl ho => ?_) fun l i t hl ho o => ?_
  · exact nomatch (not_ready_of_invalid ho).2.1.symm.trans (h.fields.memoryReady l hl)
  · obtain ⟨captured, executed⟩ := (readyForMemory_instr ho).mp (h.fields.memoryReady l hl)
    cases o with
    | missing access field _ =>
      rcases field with ha | ⟨hs, hv⟩
      · have here := ((executed_iff l i).mp executed).2.2 access
        simp [ha] at here
      · have here := ((operandsCaptured_iff l i).mp captured).1 (operand1_of_store hs)
        simp [hv] at here
    | outOfRange _ _ _ _ answer => subst answer; exact (h.at _).raise nofun
    | accessed l' a =>
      have k := a.keeps
      refine ⟨⟨?_, ?_, ?_⟩, by rw [a.fault]; exact h.noFault, by rw [k.flHeld, k.fl]; exact h.held⟩
      · rw [k.el]; exact h.fields.executeReady
      · simp [a.ml]
      · rw [a.wl]; exact fun _ hk => Option.some.inj hk ▸ a.ready ho executed

/-- An executed latch is ready for Memory (R189). -/
theorem Executed.ready {i : Instr} {l l' : Latch} {s t : State} (e : Executed i l l' s t) (ho : l.op = .instr i)
    (captured : l.operandsCaptured i = true) : l'.readyForMemory = true := by
  obtain ⟨-, hop, hv1, hv2⟩ := e.record
  refine (readyForMemory_instr (hop.trans ho)).mpr ⟨?_, e.written⟩
  rw [operandsCaptured_iff, hv1, hv2]
  exact (operandsCaptured_iff l i).mp captured

theorem executeState_readsOk (s : State) (h : ReadsOk s) : ReadsOk (executeState s) := by
  refine executeState_elim s (fun _ => h) (fun l hl ho => ?_) fun l i t hl ho o => ?_
  · exact nomatch (not_ready_of_invalid ho).1.symm.trans (h.fields.executeReady l hl)
  · have captured := (readyForExecute_instr ho).mp (h.fields.executeReady l hl)
    cases o with
    | uncaptured missing _ => exact nomatch captured.symm.trans missing
    | divides answer => subst answer; exact (h.at _).raise nofun
    | executed l' e =>
      refine ⟨⟨?_, ?_, ?_⟩, by rw [e.fault]; exact h.noFault, ?_⟩
      · simp [e.el]
      · rw [e.ml]; exact fun _ hk => Option.some.inj hk ▸ e.ready ho captured
      · rw [e.keeps.wl]; exact h.fields.writebackReady
      · rw [e.keeps.fl]
        rcases e.front with kept | ⟨redirected, -, -⟩
        · rw [kept.flHeld]; exact h.held
        · rw [redirected.flHeld]; exact nofun

/-- An admitted latch is ready for Execute: Decode captured its operands (R164). -/
theorem Admitted.ready {i : Instr} {l l' : Latch} {s t : State} (a : Admitted i l s t) (ho : l.op = .instr i)
    (hl : t.el = some l') : l'.readyForExecute = true := by
  cases a.el.symm.trans hl
  refine (readyForExecute_instr ?_).mpr ((operandsCaptured_iff _ i).mpr ⟨?_, ?_⟩)
  · exact ho
  · simp
  · simp

theorem decodeState_readsOk (s : State) (h : ReadsOk s) : ReadsOk (decodeState s) := by
  refine decodeState_elim s (fun _ => h) (fun _ _ _ => h.raise nofun) fun l i t hl ho o => ?_
  cases o with
  | refused _ answer => subst answer; exact ⟨h.fields.congr rfl rfl rfl, h.noFault, h.held⟩
  | admitted a =>
    have k := a.keeps
    refine ⟨⟨?_, ?_, ?_⟩, by rw [a.fault]; exact h.noFault, by rw [k.flHeld, k.fl]; exact h.held⟩
    · exact fun _ => a.ready ho
    · rw [k.ml]; exact h.fields.memoryReady
    · rw [k.wl]; exact h.fields.writebackReady

theorem fetchState_readsOk (s : State) (h : ReadsOk s) : ReadsOk (fetchState s) := by
  have k := fetchState_keeps s
  have fields : FieldsInv (fetchState s) := h.fields.congr k.el k.ml k.wl
  have o := fetchState_outcome s
  generalize fetchState s = t at o fields
  cases o with
  | bubble _ answer => subst answer; exact ⟨fields, h.noFault, h.held⟩
  | disabled _ _ _ answer => subst answer; exact h
  | waits _ _ _ _ answer => subst answer; exact ⟨fields, h.noFault, h.held⟩
  | missing _ held latch _ =>
    have here := h.held held
    simp [latch] at here
  | retried _ _ _ _ _ answer => subst answer; exact ⟨fields, h.noFault, nofun⟩
  | loads _ _ _ _ _ answer => subst answer; exact ⟨fields, h.noFault, nofun⟩
  | holds _ _ _ _ _ answer => subst answer; exact ⟨fields, h.noFault, fun _ => rfl⟩

/-- Settles O54: every stage keeps `ReadsOk`. -/
theorem noTickReadsAFieldWithoutValue : Obligations.NoTickReadsAFieldWithoutValue := by
  intro s t fields controls h noFault
  have held : s.flHeld = true → s.fl.isSome = true := fun held => (controls.heldBehindStall held).2.2.2
  have ok : ReadsOk t := step_keeps (P := ReadsOk) h (fun _ => ⟨fields.congr rfl rfl rfl, noFault, held⟩)
    (fun _ => ⟨fields.congr rfl rfl rfl, noFault, held⟩) writebackState_readsOk memoryState_readsOk executeState_readsOk
    decodeState_readsOk fetchState_readsOk fun _ hu => ⟨hu.fields.congr rfl rfl rfl, hu.noFault, hu.held⟩
  exact ⟨ok.fields, ok.noFault⟩

end Sys2Proof.Machine
end

section
/-! PROOFS. The state that `initialize` leaves (10_state.md R43). -/

namespace Sys2Proof.Machine

/-! ## What the reset state reads as -/

@[simp] theorem reg_resetWith (P : Params) (program : List Instr) (r : Reg) : (State.resetWith P program).reg r = 0#32 := by
  simp [State.reg, State.resetWith]

@[simp] theorem isBusy_resetWith (P : Params) (program : List Instr) (r : Reg) :
    (State.resetWith P program).isBusy r = false := by
  simp [State.isBusy, State.resetWith]

@[simp] theorem isPending_resetWith (P : Params) (program : List Instr) (r : Reg) :
    (State.resetWith P program).isPending r = false := by
  simp [State.isPending, State.resetWith]

@[simp] theorem pendingValue_resetWith (P : Params) (program : List Instr) (r : Reg) :
    (State.resetWith P program).pendingValue r = 0#32 := by
  simp [State.pendingValue, State.resetWith]

/-- Every entry of the predictor is empty after reset. -/
theorem mem_btb_resetWith {P : Params} {program : List Instr} {e : BtbEntry} (h : e ∈ (State.resetWith P program).btb) :
    e = BtbEntry.zero := List.eq_of_mem_replicate h

/-- Settles O5: each element by the lemma that reads it, or by its value in the record. -/
theorem resetLeavesTheTableOfValues : Obligations.ResetLeavesTheTableOfValues := by
  rintro P program s rfl
  refine ⟨rfl, reg_resetWith P program, rfl, fun _ => rfl, rfl, rfl, rfl, rfl, rfl, rfl, rfl, rfl, rfl, rfl,
    isBusy_resetWith P program, isPending_resetWith P program, pendingValue_resetWith P program, List.length_replicate,
    fun e he => ?_, rfl, rfl, rfl, rfl, rfl⟩
  rw [mem_btb_resetWith he]
  exact ⟨rfl, rfl, rfl, rfl, rfl⟩

/-! ## The invariants after reset -/

theorem resetWith_memoryInv (P : Params) (program : List Instr) : (State.resetWith P program).memoryInv := by
  simp [State.memoryInv, State.resetWith, Memory.wf, cellsFrom]

theorem resetWith_controlInv (P : Params) (program : List Instr) : ControlInv (State.resetWith P program) := by
  constructor <;> simp [State.resetWith]

theorem resetWith_fieldsInv (P : Params) (program : List Instr) : FieldsInv (State.resetWith P program) := by
  constructor <;> simp [State.resetWith]

theorem resetWith_haltInv (P : Params) (program : List Instr) : HaltInv (State.resetWith P program) := by
  constructor <;> simp [State.resetWith, holdsHalt]

theorem resetWith_hazardInv (P : Params) (program : List Instr) : HazardInv (State.resetWith P program) where
  busyExactly r := by rw [isBusy_resetWith]; simp [State.resetWith, writesOf]
  disjointExecuteMemory := by simp [State.resetWith, writesOf]
  disjointExecuteWriteback := by simp [State.resetWith, writesOf]
  disjointMemoryWriteback := by simp [State.resetWith, writesOf]
  pendingExactly r := by rw [isPending_resetWith]; simp [State.resetWith, publishesOf]
  pendingMemory := by simp
  pendingWriteback := by simp

theorem resetWith_predictorInv {P : Params} (program : List Instr) (entries : 1 ≤ P.btbEntries)
    (counter : P.ctrNeutral ≤ P.ctrMax ∧ P.ctrMax ≤ 3) : PredictorInv (State.resetWith P program) where
  capacity := ⟨entries, List.length_replicate⟩
  counterStates := counter
  headInTable := entries
  entriesSound e he := by
    rw [mem_btb_resetWith he]
    exact ⟨Nat.zero_le _, nofun, nofun⟩
  tagsDistinct := List.pairwise_replicate.mpr (.inr nofun)

theorem resetWith_programInv (P : Params) (program : List Instr) : ProgramInv (State.resetWith P program) where
  inFetch := by simp [State.resetWith]
  inDecode := by simp [State.resetWith]
  inExecute := by simp [State.resetWith]
  inMemory := by simp [State.resetWith]
  inWriteback := by simp [State.resetWith]
  inPredictor e he hv := by
    rw [mem_btb_resetWith he] at hv
    cases hv

/-- Settles O51: the latches are empty, no register is owned, and of the parameters only the predictor's matter. -/
theorem resetMeetsEveryInvariant : Obligations.ResetMeetsEveryInvariant := by
  rintro P program s wellFormed rfl
  obtain ⟨entries, -, -, -, -, -, -, -, neutral, states, -⟩ := (wellFormed_iff P).mp wellFormed
  exact ⟨resetWith_memoryInv P program, resetWith_controlInv P program, resetWith_fieldsInv P program,
    resetWith_haltInv P program, resetWith_hazardInv P program, resetWith_predictorInv program entries ⟨neutral, states⟩,
    resetWith_programInv P program⟩

end Sys2Proof.Machine
end

section
/-! PROOFS. The two memories and the host's access to them: Memory writes one word (20_memory.md R62, R64), Fetch follows the
address map (R66), and the host loads a program and preloads one cell (R74, 40_scheduler.md R120). -/

namespace Sys2Proof.Machine

/-! ## Stores at Memory (44_memory_writeback.md R212 to R214) -/

/-- The range check as inequalities (20_memory.md R62). -/
theorem inMemory_iff (s : State) (a : Word) :
    s.inMemory a = true ↔ 0 ≤ a.toInt ∧ a.toInt < (s.cfg.dmemWords : Int) := by
  simp [State.inMemory]

theorem inMemory_eq_false_iff (s : State) (a : Word) :
    s.inMemory a = false ↔ a.toInt < 0 ∨ (s.cfg.dmemWords : Int) ≤ a.toInt := by
  rw [← Bool.not_eq_true, inMemory_iff]
  omega

theorem memoryAction_of_store {i : Instr} (h : i.opClass = .store) : memoryAction i = storeWord := by
  cases i with
  | store | storep => rfl
  | _ => cases h

theorem storeWord_inRange {s : State} {l : Latch} {a v : Word} (hl : s.ml = some l) (ha : l.addr = some a)
    (hv : l.v1 = some v) (hr : s.inMemory a = true) :
    storeWord s = (s.writeMem (memIndex a) v).sendToWriteback l := by
  rw [storeWord, State.inMemoryStage_some hl, ha, hv, State.reading_some, if_pos hr, State.reading_some]

theorem storeWord_outOfRange {s : State} {l : Latch} {a : Word} (hl : s.ml = some l) (ha : l.addr = some a)
    (hr : s.inMemory a = false) : storeWord s = s.raise (.memoryFault l.pc a) := by
  rw [storeWord, State.inMemoryStage_some hl, ha, State.reading_some, hr, if_neg Bool.false_ne_true]

/-- Settles O32: a store at Memory is `storeWord`, and in range that is one `writeMem`, read back by its two rules. -/
theorem storesWriteOneWordOrFault : Obligations.StoresWriteOneWordOrFault := by
  intro i s l a v hi ht hl ha hv hwf
  rw [exec_memory i ht, memoryAction_of_store hi]
  constructor
  · intro low high
    rw [storeWord_inRange hl ha hv ((inMemory_iff s a).mpr ⟨low, high⟩)]
    exact ⟨_, rfl, readMem_writeMem_same s _ v hwf, fun b hb => readMem_writeMem_other s _ b v hb, rfl⟩
  · intro out
    rw [storeWord_outOfRange hl ha ((inMemory_eq_false_iff s a).mpr out)]
    rfl

/-! ## Instruction fetch (20_memory.md R66) -/

/-- The address of the index `k` holds what the instruction store has there. -/
theorem ifetch_of_index {s : State} {a : Word} {k : Nat} (hs : 1 ≤ s.cfg.insnStride)
    (ha : a.toInt = s.cfg.codeBase.toInt + (s.cfg.insnStride : Int) * (k : Int)) :
    s.ifetch a = (s.imem[k]?).elim .invalid .instr := by
  have hoff : a.toInt - s.cfg.codeBase.toInt = (s.cfg.insnStride : Int) * (k : Int) := by omega
  have hpos : (s.cfg.insnStride : Int) ≠ 0 := by omega
  have hnonneg : ¬(s.cfg.insnStride : Int) * (k : Int) < 0 := not_lt.mpr (by positivity)
  simp only [State.ifetch, hoff, if_neg hnonneg, Int.mul_emod_right, ne_eq, not_true_eq_false, if_false,
    Int.mul_ediv_cancel_left _ hpos, Int.toNat_natCast]
  cases s.imem[k]? <;> rfl

/-- An address below `CODE_BASE` or off the stride holds INVALID. -/
theorem ifetch_of_no_index {s : State} {a : Word}
    (ha : ∀ k : Nat, a.toInt ≠ s.cfg.codeBase.toInt + (s.cfg.insnStride : Int) * (k : Int)) : s.ifetch a = .invalid := by
  unfold State.ifetch
  by_cases below : a.toInt - s.cfg.codeBase.toInt < 0
  · exact if_pos below
  by_cases off : (a.toInt - s.cfg.codeBase.toInt) % (s.cfg.insnStride : Int) ≠ 0
  · simp only [if_neg below, if_pos off]
  have onMap : (s.cfg.insnStride : Int) * ((a.toInt - s.cfg.codeBase.toInt) / s.cfg.insnStride).toNat =
      a.toInt - s.cfg.codeBase.toInt := by
    rw [Int.toNat_of_nonneg (Int.ediv_nonneg (not_lt.mp below) (Int.natCast_nonneg _)),
      Int.mul_ediv_cancel' (Int.dvd_of_emod_eq_zero (not_not.mp off))]
  exact absurd (by rw [onMap]; omega) (ha ((a.toInt - s.cfg.codeBase.toInt) / s.cfg.insnStride).toNat)

/-- Settles O14: an address of an index holds what the store has there, which is nothing past the end of the program. -/
theorem instructionFetchFollowsTheAddressMap : Obligations.InstructionFetchFollowsTheAddressMap := by
  intro s a hs
  refine ⟨fun k i hk ha => by rw [ifetch_of_index hs ha, hk, Option.elim_some], fun none_inside => ?_⟩
  by_cases mapped : ∃ k : Nat, a.toInt = s.cfg.codeBase.toInt + (s.cfg.insnStride : Int) * (k : Int)
  · obtain ⟨k, ha⟩ := mapped
    have past : s.imem.length ≤ k := not_lt.mp fun inside => none_inside k inside ha
    rw [ifetch_of_index hs ha, List.getElem?_eq_none past, Option.elim_none]
  · exact ifetch_of_no_index fun k ha => mapped ⟨k, ha⟩

/-! ## The load of a program (30_encoding.md R83, R96) -/

/-- A program of packed words decodes word by word. -/
theorem decodeProgram_getElem? {ws : List PackedWord} {program : List Instr} {k : Nat} {w : PackedWord} {i : Instr}
    (hp : decodeProgram ws = .ok program) (hw : ws[k]? = some w) (hd : decode w = .ok i) : program[k]? = some i := by
  induction ws generalizing program k with
  | nil => simp at hw
  | cons w' rest ih =>
    simp only [decodeProgram] at hp
    split at hp
    case h_1 i' is hi' his =>
      cases hp
      cases k with
      | zero =>
        cases hw
        rw [hd] at hi'
        cases hi'
        rfl
      | succ k => exact List.getElem?_cons_succ.trans (ih his hw)
    all_goals cases hp

/-- The host's load answers an engine only after every check, and then the reset state (R96, R117, R335). -/
theorem initEngine_eq_next_iff (P : Params) (program : List Instr) (s : State) :
    initEngine P program = .next s ↔ P.wellFormed = true ∧ program ≠ [] ∧ program.all (Instr.inRange P) = true ∧
      program.all Instr.wellFormed = true ∧ s = State.resetWith P program := by
  unfold initEngine
  split_ifs with params empty range form
  · simp_all
  · simp_all
  · simp_all
  · simp_all
  · rw [Bool.not_eq_true, Bool.not_eq_false'] at params range form
    rw [List.isEmpty_iff] at empty
    simp [params, empty, range, form, eq_comm (a := s), -List.all_eq_true]

/-- The load of packed words answers the reset state of what they decode to. -/
theorem initEngineWords_next {P : Params} {ws : List PackedWord} {s : State} (h : initEngineWords P ws = .next s) :
    ∃ program, decodeProgram ws = .ok program ∧ P.wellFormed = true ∧ s = State.resetWith P program := by
  unfold initEngineWords at h
  split at h
  case h_1 program decoded =>
    obtain ⟨params, -, -, -, rfl⟩ := (initEngine_eq_next_iff P program s).mp h
    exact ⟨program, decoded, params, rfl⟩
  case h_2 => cases h

/-- Inside the `XLEN`-bit range an address does not wrap. -/
theorem toInt_codeBase_add {P : Params} {n : Nat} (hP : P.wellFormed = true)
    (hn : P.codeBase.toInt + (n : Int) < 2 ^ (P.xlen - 1)) :
    (P.codeBase + BitVec.ofNat 32 n).toInt = P.codeBase.toInt + (n : Int) := by
  obtain ⟨-, -, -, hx, -⟩ := (wellFormed_iff P).mp hP
  have hmax : (2 : Int) ^ (P.xlen - 1) ≤ 2 ^ 31 := pow_le_pow_right₀ (by norm_num) (by omega)
  have hlow := P.codeBase.le_toInt
  rw [BitVec.toInt_add, BitVec.toInt_ofNat', Int.add_bmod_bmod]
  exact Int.bmod_eq_of_le (by omega) (by omega)

/-- Settles O7: the `k`-th word decodes to the `k`-th record, and its address does not wrap. -/
theorem loadedWordsAreFetchedAtTheirAddresses : Obligations.LoadedWordsAreFetchedAtTheirAddresses := by
  intro P ws s k w i hload hw hd hmax
  obtain ⟨program, decoded, params, rfl⟩ := initEngineWords_next hload
  obtain ⟨-, -, -, -, -, -, stride, -⟩ := (wellFormed_iff P).mp params
  have record : (State.resetWith P program).imem[k]? = some i := decodeProgram_getElem? decoded hw hd
  have address := toInt_codeBase_add params hmax
  rw [Nat.cast_mul] at address
  exact (instructionFetchFollowsTheAddressMap (State.resetWith P program) _ stride).1 k i record address

/-! ## Preloads (20_memory.md R74, 40_scheduler.md R120) -/

theorem preloadMem_of_allowed {s : State} {a : Nat} {v : Word} (hc : s.clock = 0) (ha : a < s.cfg.dmemWords)
    (hv : s.cfg.holds v = true) : preloadMem a v s = .next (s.writeMem a v) := by
  simp [preloadMem, State.preloadable, hc, ha, hv]

theorem preloadReg_of_allowed {s : State} {r : Reg} {v : Word} (hc : s.clock = 0) (hr : r.val < s.cfg.nreg)
    (hv : s.cfg.holds v = true) : preloadReg r v s = .next (s.setReg r v) := by
  simp [preloadReg, State.preloadable, hc, hr, hv]

theorem preloadMem_of_not_allowed {s : State} {a : Nat} {v : Word}
    (h : ¬(s.clock = 0 ∧ a < s.cfg.dmemWords ∧ s.cfg.holds v = true)) :
    preloadMem a v s = .refused .preloadRefused :=
  if_neg (by simpa [State.preloadable, and_assoc] using h)

theorem preloadReg_of_not_allowed {s : State} {r : Reg} {v : Word}
    (h : ¬(s.clock = 0 ∧ r.val < s.cfg.nreg ∧ s.cfg.holds v = true)) :
    preloadReg r v s = .refused .preloadRefused :=
  if_neg (by simpa [State.preloadable, and_assoc] using h)

/-- Settles O8: an allowed preload is one `writeMem` or `setReg`, read back by their rules, and each of the three conditions
refuses by itself. -/
theorem preloadWritesOneCellBeforeTheFirstTickOnly : Obligations.PreloadWritesOneCellBeforeTheFirstTickOnly := by
  intro s a r v inRange hwf hrange
  rw [← Params.holds_iff] at hrange
  refine ⟨fun clock value inside => ?_, fun clock value inside => ?_, fun refused => ⟨?_, ?_⟩, fun outside => ?_,
    fun outside => ?_⟩
  · exact ⟨_, preloadMem_of_allowed clock inside (hrange.mp value), readMem_writeMem_same s a v hwf,
      fun b hb => readMem_writeMem_other s a b v hb, rfl⟩
  · refine ⟨_, preloadReg_of_allowed clock inside (hrange.mp value), ?_, fun q hq => ?_, rfl⟩
    · rw [State.reg_setReg, if_pos rfl]
    · rw [State.reg_setReg, if_neg hq]
  · exact preloadMem_of_not_allowed fun ⟨clock, _, value⟩ => refused.elim (absurd clock) (absurd (hrange.mpr value))
  · exact preloadReg_of_not_allowed fun ⟨clock, _, value⟩ => refused.elim (absurd clock) (absurd (hrange.mpr value))
  · exact preloadMem_of_not_allowed fun ⟨_, inside, _⟩ => absurd inside (not_lt.mpr outside)
  · exact preloadReg_of_not_allowed fun ⟨_, inside, _⟩ => absurd inside (not_lt.mpr outside)

end Sys2Proof.Machine
end

section
/-! PROOFS. The packed word (30_encoding.md R83, R84, R88, R93): the decoder and the encoder invert each other, and the words that
decode are those that a row of the opcode table matches. -/

namespace Sys2Proof

/-! ## Decoding an encoded instruction -/

/-- The opcode selects the instruction's own format, which reads back its operands and finds the unused fields zero. -/
theorem toInstr_fields (i : Instr) : i.fields.toInstr = .ok i := by
  cases i with
  | add | sub | mul | div | and | or | xor => simp [Instr.fields, Fields.toInstr, Fields.asRRR, requireZero]
  | load | addl | subl | loadp | jalr => simp [Instr.fields, Fields.toInstr, Fields.asRRI, requireZero]
  | movc => simp [Instr.fields, Fields.toInstr, Fields.asRI, requireZero]
  | store | storep => simp [Instr.fields, Fields.toInstr, Fields.asSTI, requireZero]
  | cmp => simp [Instr.fields, Fields.toInstr, Fields.asCRR, requireZero]
  | cml | jump => simp [Instr.fields, Fields.toInstr, Fields.asSI, requireZero]
  | bz | bnz | bp | bnp | bn | bnn => simp [Instr.fields, Fields.toInstr, Fields.asBI, requireZero]
  | halt | nop => simp [Instr.fields, Fields.toInstr, Fields.asN, requireZero]

/-- Settles O1: the fields of the packed word are those of the instruction. -/
theorem decodingAnEncodedInstructionGivesItBack : Obligations.DecodingAnEncodedInstructionGivesItBack := by
  intro i
  rw [decode, encode, fieldsOf_pack, toInstr_fields]

/-! ## The fields of a word that decodes

One lemma per format (R82); `mk` is the constructor of the row with opcode `op`. -/

section
variable {f : Fields} {op : BitVec 8} {i : Instr}

theorem fields_eq {rd rs1 rs2 : BitVec 8} {imm : Word} (hop : f.opcode = op) (hrd : f.rd = rd) (hrs1 : f.rs1 = rs1)
    (hrs2 : f.rs2 = rs2) (himm : f.imm = imm) : (⟨op, rd, rs1, rs2, imm⟩ : Fields) = f := by
  rw [← hop, ← hrd, ← hrs1, ← hrs2, ← himm]

theorem opcode_eq_ofNat {n : Nat} (h : f.opcode.toNat = n) : f.opcode = BitVec.ofNat 8 n := by
  rw [← h, BitVec.ofNat_toNat, BitVec.setWidth_eq]

theorem fields_of_asRRR {mk : Reg → Reg → Reg → Instr} (hop : f.opcode = op)
    (hmk : ∀ rd rs1 rs2, (mk rd rs1 rs2).fields = ⟨op, regField rd, regField rs1, regField rs2, 0#32⟩)
    (h : f.asRRR mk = .ok i) : i.fields = f := by
  obtain ⟨rd, hrd, h⟩ := takeReg_ok h
  obtain ⟨rs1, hrs1, h⟩ := takeReg_ok h
  obtain ⟨rs2, hrs2, h⟩ := takeReg_ok h
  obtain ⟨himm, h⟩ := requireZero_ok h
  cases h
  exact (hmk rd rs1 rs2).trans (fields_eq hop hrd hrs1 hrs2 (eq_of_beq himm))

theorem fields_of_asRRI {mk : Reg → Reg → Word → Instr} (hop : f.opcode = op)
    (hmk : ∀ rd rs1 imm, (mk rd rs1 imm).fields = ⟨op, regField rd, regField rs1, 0#8, imm⟩)
    (h : f.asRRI mk = .ok i) : i.fields = f := by
  obtain ⟨rd, hrd, h⟩ := takeReg_ok h
  obtain ⟨rs1, hrs1, h⟩ := takeReg_ok h
  obtain ⟨hrs2, h⟩ := requireZero_ok h
  cases h
  exact (hmk rd rs1 f.imm).trans (fields_eq hop hrd hrs1 (eq_of_beq hrs2) rfl)

theorem fields_of_asRI {mk : Reg → Word → Instr} (hop : f.opcode = op)
    (hmk : ∀ rd imm, (mk rd imm).fields = ⟨op, regField rd, 0#8, 0#8, imm⟩) (h : f.asRI mk = .ok i) : i.fields = f := by
  obtain ⟨rd, hrd, h⟩ := takeReg_ok h
  obtain ⟨unused, h⟩ := requireZero_ok h
  cases h
  simp only [Bool.and_eq_true, beq_iff_eq] at unused
  obtain ⟨hrs1, hrs2⟩ := unused
  exact (hmk rd f.imm).trans (fields_eq hop hrd hrs1 hrs2 rfl)

theorem fields_of_asSTI {mk : Reg → Reg → Word → Instr} (hop : f.opcode = op)
    (hmk : ∀ rs1 rs2 imm, (mk rs1 rs2 imm).fields = ⟨op, 0#8, regField rs1, regField rs2, imm⟩)
    (h : f.asSTI mk = .ok i) : i.fields = f := by
  obtain ⟨rs1, hrs1, h⟩ := takeReg_ok h
  obtain ⟨rs2, hrs2, h⟩ := takeReg_ok h
  obtain ⟨hrd, h⟩ := requireZero_ok h
  cases h
  exact (hmk rs1 rs2 f.imm).trans (fields_eq hop (eq_of_beq hrd) hrs1 hrs2 rfl)

theorem fields_of_asCRR {mk : Reg → Reg → Instr} (hop : f.opcode = op)
    (hmk : ∀ rs1 rs2, (mk rs1 rs2).fields = ⟨op, 0#8, regField rs1, regField rs2, 0#32⟩)
    (h : f.asCRR mk = .ok i) : i.fields = f := by
  obtain ⟨rs1, hrs1, h⟩ := takeReg_ok h
  obtain ⟨rs2, hrs2, h⟩ := takeReg_ok h
  obtain ⟨unused, h⟩ := requireZero_ok h
  cases h
  simp only [Bool.and_eq_true, beq_iff_eq] at unused
  obtain ⟨hrd, himm⟩ := unused
  exact (hmk rs1 rs2).trans (fields_eq hop hrd hrs1 hrs2 himm)

theorem fields_of_asSI {mk : Reg → Word → Instr} (hop : f.opcode = op)
    (hmk : ∀ rs1 imm, (mk rs1 imm).fields = ⟨op, 0#8, regField rs1, 0#8, imm⟩) (h : f.asSI mk = .ok i) : i.fields = f := by
  obtain ⟨rs1, hrs1, h⟩ := takeReg_ok h
  obtain ⟨unused, h⟩ := requireZero_ok h
  cases h
  simp only [Bool.and_eq_true, beq_iff_eq] at unused
  obtain ⟨hrd, hrs2⟩ := unused
  exact (hmk rs1 f.imm).trans (fields_eq hop hrd hrs1 hrs2 rfl)

theorem fields_of_asBI {mk : Word → Instr} (hop : f.opcode = op) (hmk : ∀ imm, (mk imm).fields = ⟨op, 0#8, 0#8, 0#8, imm⟩)
    (h : f.asBI mk = .ok i) : i.fields = f := by
  obtain ⟨unused, h⟩ := requireZero_ok h
  cases h
  simp only [Bool.and_eq_true, beq_iff_eq] at unused
  obtain ⟨⟨hrd, hrs1⟩, hrs2⟩ := unused
  exact (hmk f.imm).trans (fields_eq hop hrd hrs1 hrs2 rfl)

theorem fields_of_asN {named : Instr} (hop : f.opcode = op) (hnamed : named.fields = ⟨op, 0#8, 0#8, 0#8, 0#32⟩)
    (h : f.asN named = .ok i) : i.fields = f := by
  obtain ⟨unused, h⟩ := requireZero_ok h
  cases h
  simp only [Bool.and_eq_true, beq_iff_eq] at unused
  obtain ⟨⟨⟨hrd, hrs1⟩, hrs2⟩, himm⟩ := unused
  exact hnamed.trans (fields_eq hop hrd hrs1 hrs2 himm)

end

/-- The decoder's opcode map (R84), read backwards: whichever row answered, the fields are those of its instruction.
The cases are the rows in opcode order, `h_27` the opcodes above `0x19`. -/
theorem fields_of_toInstr {f : Fields} {i : Instr} (h : f.toInstr = .ok i) : i.fields = f := by
  unfold Fields.toInstr at h
  split at h
  case h_1 n | h_2 n | h_3 n | h_4 n | h_5 n | h_6 n | h_7 n =>
    exact fields_of_asRRR (opcode_eq_ofNat n) (fun _ _ _ => rfl) h
  case h_8 n => exact fields_of_asRI (opcode_eq_ofNat n) (fun _ _ => rfl) h
  case h_9 n | h_14 n | h_15 n | h_16 n | h_25 n => exact fields_of_asRRI (opcode_eq_ofNat n) (fun _ _ _ => rfl) h
  case h_10 n | h_17 n => exact fields_of_asSTI (opcode_eq_ofNat n) (fun _ _ _ => rfl) h
  case h_11 n | h_12 n | h_20 n | h_21 n | h_22 n | h_23 n => exact fields_of_asBI (opcode_eq_ofNat n) (fun _ => rfl) h
  case h_13 n | h_26 n => exact fields_of_asN (opcode_eq_ofNat n) rfl h
  case h_18 n => exact fields_of_asCRR (opcode_eq_ofNat n) (fun _ _ => rfl) h
  case h_19 n | h_24 n => exact fields_of_asSI (opcode_eq_ofNat n) (fun _ _ => rfl) h
  case h_27 => cases h

/-- Settles O2: a word is its fields packed, and those are the fields of what it decodes to. -/
theorem aDecodedWordIsTheEncodingOfItsInstruction : Obligations.ADecodedWordIsTheEncodingOfItsInstruction := by
  intro w i h
  rw [encode, fields_of_toInstr h, pack_fieldsOf]

/-- Decoding and encoding are the same relation between words and instructions. -/
theorem decode_eq_ok_iff {w : PackedWord} {i : Instr} : decode w = .ok i ↔ encode i = w :=
  ⟨aDecodedWordIsTheEncodingOfItsInstruction w i, fun h => h ▸ decodingAnEncodedInstructionGivesItBack i⟩

/-! ## Words written out (R83, R84, R88) -/

/-- Settles O4: eight words are what the encoder writes, and three reach the three refusals. -/
theorem wordsWrittenFromTheTableDecode : Obligations.WordsWrittenFromTheTableDecode :=
  ⟨decode_eq_ok_iff.mpr rfl, decode_eq_ok_iff.mpr rfl, decode_eq_ok_iff.mpr rfl, decode_eq_ok_iff.mpr rfl,
    decode_eq_ok_iff.mpr rfl, decode_eq_ok_iff.mpr rfl, decode_eq_ok_iff.mpr rfl, decode_eq_ok_iff.mpr rfl, rfl, rfl, rfl⟩

/-! ## The rows of the opcode table (R88) -/

/-- A row matches the packed word of each of its instructions. -/
theorem encode_and_rowMask : ∀ i : Instr, encode i &&& i.format.rowMask = i.rowMatch
  | .add .. => Laws.EncodeMatchesRow.add ..
  | .sub .. => Laws.EncodeMatchesRow.sub ..
  | .mul .. => Laws.EncodeMatchesRow.mul ..
  | .div .. => Laws.EncodeMatchesRow.div ..
  | .and .. => Laws.EncodeMatchesRow.and ..
  | .or .. => Laws.EncodeMatchesRow.or ..
  | .xor .. => Laws.EncodeMatchesRow.xor ..
  | .movc .. => Laws.EncodeMatchesRow.movc ..
  | .load .. => Laws.EncodeMatchesRow.load ..
  | .store .. => Laws.EncodeMatchesRow.store ..
  | .bz .. => Laws.EncodeMatchesRow.bz ..
  | .bnz .. => Laws.EncodeMatchesRow.bnz ..
  | .halt => Laws.EncodeMatchesRow.halt
  | .addl .. => Laws.EncodeMatchesRow.addl ..
  | .subl .. => Laws.EncodeMatchesRow.subl ..
  | .loadp .. => Laws.EncodeMatchesRow.loadp ..
  | .storep .. => Laws.EncodeMatchesRow.storep ..
  | .cmp .. => Laws.EncodeMatchesRow.cmp ..
  | .cml .. => Laws.EncodeMatchesRow.cml ..
  | .bp .. => Laws.EncodeMatchesRow.bp ..
  | .bnp .. => Laws.EncodeMatchesRow.bnp ..
  | .bn .. => Laws.EncodeMatchesRow.bn ..
  | .bnn .. => Laws.EncodeMatchesRow.bnn ..
  | .jump .. => Laws.EncodeMatchesRow.jump ..
  | .jalr .. => Laws.EncodeMatchesRow.jalr ..
  | .nop => Laws.EncodeMatchesRow.nop

/-- The format and the opcode of each row (R84), in opcode order. -/
def opcodeTable : List (Format × BitVec 8) :=
  [(.rrr, 0x00#8), (.rrr, 0x01#8), (.rrr, 0x02#8), (.rrr, 0x03#8), (.rrr, 0x04#8), (.rrr, 0x05#8), (.rrr, 0x06#8),
    (.ri, 0x07#8), (.rri, 0x08#8), (.sti, 0x09#8), (.bi, 0x0A#8), (.bi, 0x0B#8), (.n, 0x0C#8), (.rri, 0x0D#8),
    (.rri, 0x0E#8), (.rri, 0x0F#8), (.sti, 0x10#8), (.crr, 0x11#8), (.si, 0x12#8), (.bi, 0x13#8), (.bi, 0x14#8),
    (.bi, 0x15#8), (.bi, 0x16#8), (.si, 0x17#8), (.rri, 0x18#8), (.n, 0x19#8)]

theorem opcodeRows_eq_map : opcodeRows = opcodeTable.map opcodeRows.rowOf := rfl

theorem format_opcode_mem_opcodeTable (i : Instr) : (i.format, i.fields.opcode) ∈ opcodeTable := by
  cases i <;> simp [opcodeTable, Instr.fields, Instr.format]

/-- The fields that a format's instruction with opcode `op` has: the operands that the format uses (R82), zero elsewhere (R93). -/
def Format.layout (fmt : Format) (op : BitVec 8) (rd rs1 rs2 : Reg) (imm : Word) : Fields :=
  match fmt with
  | .rrr => ⟨op, regField rd, regField rs1, regField rs2, 0#32⟩
  | .rri => ⟨op, regField rd, regField rs1, 0#8, imm⟩
  | .ri => ⟨op, regField rd, 0#8, 0#8, imm⟩
  | .sti => ⟨op, 0#8, regField rs1, regField rs2, imm⟩
  | .crr => ⟨op, 0#8, regField rs1, regField rs2, 0#32⟩
  | .si => ⟨op, 0#8, regField rs1, 0#8, imm⟩
  | .bi => ⟨op, 0#8, 0#8, 0#8, imm⟩
  | .n => ⟨op, 0#8, 0#8, 0#8, 0#32⟩

/-- Each row of the table has an instruction for every choice of the operands that its format uses. -/
theorem exists_instr_of_layout : ∀ row ∈ opcodeTable, ∃ mk : Reg → Reg → Reg → Word → Instr,
    ∀ rd rs1 rs2 imm, (mk rd rs1 rs2 imm).fields = row.1.layout row.2 rd rs1 rs2 imm := by
  simp only [opcodeTable, List.forall_mem_cons]
  exact ⟨⟨fun rd rs1 rs2 _ => .add rd rs1 rs2, fun _ _ _ _ => rfl⟩,
    ⟨fun rd rs1 rs2 _ => .sub rd rs1 rs2, fun _ _ _ _ => rfl⟩, ⟨fun rd rs1 rs2 _ => .mul rd rs1 rs2, fun _ _ _ _ => rfl⟩,
    ⟨fun rd rs1 rs2 _ => .div rd rs1 rs2, fun _ _ _ _ => rfl⟩, ⟨fun rd rs1 rs2 _ => .and rd rs1 rs2, fun _ _ _ _ => rfl⟩,
    ⟨fun rd rs1 rs2 _ => .or rd rs1 rs2, fun _ _ _ _ => rfl⟩, ⟨fun rd rs1 rs2 _ => .xor rd rs1 rs2, fun _ _ _ _ => rfl⟩,
    ⟨fun rd _ _ imm => .movc rd imm, fun _ _ _ _ => rfl⟩, ⟨fun rd rs1 _ imm => .load rd rs1 imm, fun _ _ _ _ => rfl⟩,
    ⟨fun _ rs1 rs2 imm => .store rs1 rs2 imm, fun _ _ _ _ => rfl⟩, ⟨fun _ _ _ imm => .bz imm, fun _ _ _ _ => rfl⟩,
    ⟨fun _ _ _ imm => .bnz imm, fun _ _ _ _ => rfl⟩, ⟨fun _ _ _ _ => .halt, fun _ _ _ _ => rfl⟩,
    ⟨fun rd rs1 _ imm => .addl rd rs1 imm, fun _ _ _ _ => rfl⟩, ⟨fun rd rs1 _ imm => .subl rd rs1 imm, fun _ _ _ _ => rfl⟩,
    ⟨fun rd rs1 _ imm => .loadp rd rs1 imm, fun _ _ _ _ => rfl⟩,
    ⟨fun _ rs1 rs2 imm => .storep rs1 rs2 imm, fun _ _ _ _ => rfl⟩, ⟨fun _ rs1 rs2 _ => .cmp rs1 rs2, fun _ _ _ _ => rfl⟩,
    ⟨fun _ rs1 _ imm => .cml rs1 imm, fun _ _ _ _ => rfl⟩, ⟨fun _ _ _ imm => .bp imm, fun _ _ _ _ => rfl⟩,
    ⟨fun _ _ _ imm => .bnp imm, fun _ _ _ _ => rfl⟩, ⟨fun _ _ _ imm => .bn imm, fun _ _ _ _ => rfl⟩,
    ⟨fun _ _ _ imm => .bnn imm, fun _ _ _ _ => rfl⟩, ⟨fun _ rs1 _ imm => .jump rs1 imm, fun _ _ _ _ => rfl⟩,
    ⟨fun rd rs1 _ imm => .jalr rd rs1 imm, fun _ _ _ _ => rfl⟩, ⟨fun _ _ _ _ => .nop, fun _ _ _ _ => rfl⟩, nofun⟩

theorem regField_of_high_zero : ∀ b : BitVec 8, b &&& 0xF0#8 = 0#8 → ∃ r, b = regField r := by decide

/-- A byte that is zero under a mask with the upper four bits is a register field. -/
theorem exists_regField_of_and {b m : BitVec 8} (hm : m &&& 0xF0#8 = 0xF0#8) (h : b &&& m = 0#8) : ∃ r, b = regField r :=
  regField_of_high_zero b (by rw [← hm, ← BitVec.and_assoc, h, BitVec.zero_and])

theorem eq_zero_of_and_ones {n : Nat} {b : BitVec n} (h : b &&& BitVec.allOnes n = 0#n) : b = 0#n := by
  rwa [BitVec.and_allOnes] at h

/-- What a match of a row says of each field of the word. -/
theorem fieldsOf_of_row {w : PackedWord} {fmt : Format} {op : BitVec 8} (h : w &&& fmt.rowMask = op ++ 0#56) :
    (fieldsOf w).opcode = op ∧ (fieldsOf w).rd &&& fmt.maskFields.rd = 0#8 ∧
      (fieldsOf w).rs1 &&& fmt.maskFields.rs1 = 0#8 ∧ (fieldsOf w).rs2 &&& fmt.maskFields.rs2 = 0#8 ∧
      (fieldsOf w).imm &&& fmt.maskFields.imm = 0#32 := by
  have opcodeMask : fmt.maskFields.opcode = BitVec.allOnes 8 := by cases fmt <;> rfl
  rw [← pack_fieldsOf w, Format.rowMask_eq, pack_and_pack, rowMatch_eq] at h
  have byField := congrArg fieldsOf h
  rwa [fieldsOf_pack, fieldsOf_pack, opcodeMask, BitVec.and_allOnes, Fields.mk.injEq] at byField

/-- A word that a row matches is laid out as the row's format says: every register field, used or not, is below 16 under the
mask, and an unused field is masked whole. -/
theorem layout_of_row {w : PackedWord} {fmt : Format} {op : BitVec 8} (h : w &&& fmt.rowMask = op ++ 0#56) :
    ∃ rd rs1 rs2 imm, fmt.layout op rd rs1 rs2 imm = fieldsOf w := by
  obtain ⟨hop, zrd, zrs1, zrs2, zimm⟩ := fieldsOf_of_row h
  obtain ⟨rd, hrd⟩ := exists_regField_of_and (by cases fmt <;> rfl) zrd
  obtain ⟨rs1, hrs1⟩ := exists_regField_of_and (by cases fmt <;> rfl) zrs1
  obtain ⟨rs2, hrs2⟩ := exists_regField_of_and (by cases fmt <;> rfl) zrs2
  refine ⟨rd, rs1, rs2, (fieldsOf w).imm, ?_⟩
  cases fmt with
  | rrr => exact fields_eq hop hrd hrs1 hrs2 (eq_zero_of_and_ones zimm)
  | rri => exact fields_eq hop hrd hrs1 (eq_zero_of_and_ones zrs2) rfl
  | ri => exact fields_eq hop hrd (eq_zero_of_and_ones zrs1) (eq_zero_of_and_ones zrs2) rfl
  | sti => exact fields_eq hop (eq_zero_of_and_ones zrd) hrs1 hrs2 rfl
  | crr => exact fields_eq hop (eq_zero_of_and_ones zrd) hrs1 hrs2 (eq_zero_of_and_ones zimm)
  | si => exact fields_eq hop (eq_zero_of_and_ones zrd) hrs1 (eq_zero_of_and_ones zrs2) rfl
  | bi => exact fields_eq hop (eq_zero_of_and_ones zrd) (eq_zero_of_and_ones zrs1) (eq_zero_of_and_ones zrs2) rfl
  | n =>
    exact fields_eq hop (eq_zero_of_and_ones zrd) (eq_zero_of_and_ones zrs1) (eq_zero_of_and_ones zrs2)
      (eq_zero_of_and_ones zimm)

/-- Settles O3: a word that decodes is matched by the row of its instruction, and a word that a row matches is laid
out as some instruction of the row. -/
theorem aWordDecodesExactlyWhenATableRowMatches : Obligations.AWordDecodesExactlyWhenATableRowMatches := by
  intro w
  rw [opcodeRows_eq_map]
  constructor
  · rintro ⟨i, h⟩
    rw [← decode_eq_ok_iff.mp h]
    exact ⟨_, List.mem_map_of_mem (format_opcode_mem_opcodeTable i), encode_and_rowMask i⟩
  · rintro ⟨_, inRows, h⟩
    obtain ⟨row, inTable, rfl⟩ := List.mem_map.mp inRows
    obtain ⟨mk, hmk⟩ := exists_instr_of_layout row inTable
    obtain ⟨rd, rs1, rs2, imm, hw⟩ := layout_of_row h
    exact ⟨mk rd rs1 rs2 imm, decode_eq_ok_iff.mpr (by rw [encode, hmk, hw, pack_fieldsOf])⟩

end Sys2Proof
end

section
/-! PROOFS. The host's load checks the parameters and the program (30_encoding.md R94, R96, 60_exceptions.md R335). -/

namespace Sys2Proof.Machine

/-- The one form that R94 refuses. -/
theorem instr_wellFormed_iff (i : Instr) : i.wellFormed = true ↔ ∀ rd imm, i ≠ .loadp rd rd imm := by
  cases i with
  | loadp rd rs1 imm =>
    rw [Instr.wellFormed, bne_iff_ne]
    exact ⟨fun hne _ _ same => by cases same; exact hne rfl, fun h equal => h rd imm (by rw [equal])⟩
  | _ => exact iff_of_true rfl nofun

theorem all_wellFormed_iff (program : List Instr) :
    program.all Instr.wellFormed = true ↔ ∀ rd imm, Instr.loadp rd rd imm ∉ program := by
  simp only [List.all_eq_true, instr_wellFormed_iff]
  exact ⟨fun h rd imm hmem => h _ hmem rd imm rfl, fun h i hi rd imm hform => h rd imm (hform ▸ hi)⟩

theorem all_inRange_iff (P : Params) (program : List Instr) : program.all (Instr.inRange P) = true ↔
    ∀ i ∈ program, (∀ r ∈ i.registers, r.val < P.nreg) ∧
      ∀ v, i.immediate = some v → -(2 : Int) ^ (P.xlen - 1) ≤ v.toInt ∧ v.toInt < 2 ^ (P.xlen - 1) := by
  simp only [List.all_eq_true, inRange_iff]

/-- The load answers an engine in the reset state or a load error. -/
theorem initEngine_next_or_loadError (P : Params) (program : List Instr) :
    initEngine P program = .next (State.resetWith P program) ∨ ∃ e, initEngine P program = .refused (.loadError e) := by
  unfold initEngine
  split_ifs
  · exact .inr ⟨_, rfl⟩
  · exact .inr ⟨_, rfl⟩
  · exact .inr ⟨_, rfl⟩
  · exact .inr ⟨_, rfl⟩
  · exact .inl rfl

/-- Settles O6: the checks of the load, clause by clause, are the stated conditions, and a load that builds no engine answers a
load error. -/
theorem loadingBuildsAnEngineExactlyForAWellFormedProgram :
    Obligations.LoadingBuildsAnEngineExactlyForAWellFormedProgram := by
  intro P program ok hok
  have built : ok ↔ initEngine P program = .next (State.resetWith P program) := by
    rw [hok, initEngine_eq_next_iff, wellFormed_iff, all_inRange_iff, all_wellFormed_iff]
    tauto
  exact ⟨built.mp, fun refused => (initEngine_next_or_loadError P program).resolve_left (refused ∘ built.mpr)⟩

end Sys2Proof.Machine
end

section
/-! PROOFS. Nothing follows a HALT that Decode has received (40_scheduler.md R115, 41_fetch.md R137). -/

namespace Sys2Proof.Machine

/-! ## Where a HALT can be -/

theorem holdsHalt_eq_false {l : Latch} {i : Instr} (ho : l.op = .instr i) (hi : i ≠ .halt) : holdsHalt (some l) = false := by
  simp [holdsHalt, ho, hi]

theorem holdsHalt_congr {l l' : Latch} (h : l'.op = l.op) : holdsHalt (some l') = holdsHalt (some l) := by
  simp only [holdsHalt, h]

theorem eq_halt_of_holdsHalt {l : Latch} {i : Instr} (ho : l.op = .instr i) (h : holdsHalt (some l) = true) : i = .halt := by
  by_contra hi
  exact nomatch h.symm.trans (holdsHalt_eq_false ho hi)

/-- No HALT is ahead of an instruction in `EL`. -/
theorem HaltInv.ahead_of_execute {s : State} (h : HaltInv s) (hl : s.el ≠ none) :
    holdsHalt s.ml = false ∧ holdsHalt s.wl = false :=
  ⟨Bool.eq_false_iff.mpr fun c => hl (h.inMemory c).1, Bool.eq_false_iff.mpr fun c => hl (h.inWriteback c).2.1⟩

/-- No HALT is ahead of an instruction in `DL`. -/
theorem HaltInv.ahead_of_decode {s : State} (h : HaltInv s) (hl : s.dl ≠ none) :
    holdsHalt s.el = false ∧ holdsHalt s.ml = false ∧ holdsHalt s.wl = false :=
  ⟨Bool.eq_false_iff.mpr fun c => hl (h.inExecute c).1, Bool.eq_false_iff.mpr fun c => hl (h.inMemory c).2.1,
    Bool.eq_false_iff.mpr fun c => hl (h.inWriteback c).2.2.1⟩

/-- While Fetch has something to do, no HALT has been received. -/
theorem HaltInv.ahead_of_fetch {s : State} (h : HaltInv s) (fetching : ¬ (s.fetchEn = false ∧ s.flHeld = false)) :
    holdsHalt s.dl = false ∧ holdsHalt s.el = false ∧ holdsHalt s.ml = false ∧ holdsHalt s.wl = false :=
  ⟨Bool.eq_false_iff.mpr fun c => fetching ⟨(h.inDecode c).1, (h.inDecode c).2.1⟩,
    Bool.eq_false_iff.mpr fun c => fetching (h.inExecute c).2,
    Bool.eq_false_iff.mpr fun c => fetching (h.inMemory c).2.2,
    Bool.eq_false_iff.mpr fun c => fetching (h.inWriteback c).2.2.2⟩

/-- With no HALT past Decode, only `DL` matters. -/
theorem HaltInv.of_decode {s : State} (el : holdsHalt s.el = false) (ml : holdsHalt s.ml = false)
    (wl : holdsHalt s.wl = false)
    (inDecode : holdsHalt s.dl = true → s.fetchEn = false ∧ s.flHeld = false ∧ s.dlStall = false) : HaltInv s :=
  ⟨inDecode, fun c => absurd c (by simp [el]), fun c => absurd c (by simp [ml]), fun c => absurd c (by simp [wl])⟩

/-! ## Each stage keeps the invariant -/

theorem HaltInv.congr {s t : State} (h : HaltInv s) (fetchEn : t.fetchEn = s.fetchEn) (flHeld : t.flHeld = s.flHeld)
    (dlStall : t.dlStall = s.dlStall) (dl : t.dl = s.dl) (el : t.el = s.el) (ml : t.ml = s.ml) (wl : t.wl = s.wl) :
    HaltInv t := by
  obtain ⟨decode, execute, memory, writeback⟩ := h
  constructor
  · rwa [dl, fetchEn, flHeld, dlStall]
  · rwa [el, dl, fetchEn, flHeld]
  · rwa [ml, el, dl, fetchEn, flHeld]
  · rwa [wl, ml, el, dl, fetchEn, flHeld]

/-- Writeback at most empties `WL`. -/
theorem writebackState_haltInv (s : State) (h : HaltInv s) : HaltInv (writebackState s) := by
  refine writebackState_elim s (fun _ => h) (fun _ _ _ => h.congr rfl rfl rfl rfl rfl rfl rfl) fun l i t _ _ o => ?_
  cases o with
  | missing _ _ answer => subst answer; exact h.congr rfl rfl rfl rfl rfl rfl rfl
  | committed c =>
    have k := c.keeps
    have emptied : HaltInv { s with wl := none } := ⟨h.inDecode, h.inExecute, h.inMemory, nofun⟩
    exact emptied.congr k.fetchEn k.flHeld k.dlStall k.dl k.el k.ml c.wl

/-- Memory moves the occupant of `ML` to `WL`, and what was behind it stays behind it. -/
theorem memoryState_haltInv (s : State) (h : HaltInv s) : HaltInv (memoryState s) := by
  refine memoryState_elim s (fun _ => h) (fun _ _ _ => h.congr rfl rfl rfl rfl rfl rfl rfl) fun l i t hl _ o => ?_
  cases o with
  | missing _ _ answer => subst answer; exact h.congr rfl rfl rfl rfl rfl rfl rfl
  | outOfRange _ _ _ _ answer => subst answer; exact h.congr rfl rfl rfl rfl rfl rfl rfl
  | accessed l' a =>
    have k := a.keeps
    have moved : HaltInv { s with ml := none, wl := some l' } := by
      refine ⟨h.inDecode, h.inExecute, nofun, fun halts => ⟨rfl, h.inMemory ?_⟩⟩
      rwa [hl, ← holdsHalt_congr a.record.2.1]
    exact moved.congr k.fetchEn k.flHeld k.dlStall k.dl k.el a.ml a.wl

/-- Execute moves the occupant of `EL` to `ML`; a HALT does not redirect, so it leaves Fetch and Decode idle behind it. -/
theorem executeState_haltInv (s : State) (h : HaltInv s) : HaltInv (executeState s) := by
  refine executeState_elim s (fun _ => h) (fun _ _ _ => h.congr rfl rfl rfl rfl rfl rfl rfl) fun l i t hl ho o => ?_
  cases o with
  | uncaptured _ answer => subst answer; exact h.congr rfl rfl rfl rfl rfl rfl rfl
  | divides answer => subst answer; exact h.congr rfl rfl rfl rfl rfl rfl rfl
  | executed l' e =>
    obtain ⟨-, op, -⟩ := e.record
    have noHaltInWl : holdsHalt s.wl = false := (h.ahead_of_execute (by simp [hl])).2
    rcases e.front with f | ⟨redirected, hi, -⟩
    · have moved : HaltInv { s with el := none, ml := some l' } := by
        refine ⟨h.inDecode, nofun, fun halts => ⟨rfl, h.inExecute ?_⟩, fun c => nomatch c.symm.trans noHaltInWl⟩
        rwa [hl, ← holdsHalt_congr op]
      exact moved.congr f.fetchEn f.flHeld f.dlStall f.dl e.el e.ml e.keeps.wl
    · refine HaltInv.of_decode ?_ ?_ ?_ ?_
      · rw [e.el]; rfl
      · rw [e.ml]; exact holdsHalt_eq_false (op.trans ho) hi
      · rw [e.keeps.wl]; exact noHaltInWl
      · rw [redirected.dl]; exact nofun

/-- Decode never refuses a HALT, and what it moves to `EL` has no HALT ahead of it. -/
theorem decodeState_haltInv (s : State) (h : HaltInv s) : HaltInv (decodeState s) := by
  refine decodeState_elim s (fun _ => h) (fun _ _ _ => h.congr rfl rfl rfl rfl rfl rfl rfl) fun l i t hl ho o => ?_
  obtain ⟨el, ml, wl⟩ := h.ahead_of_decode (by simp [hl])
  cases o with
  | refused hazard answer =>
    subst answer
    refine HaltInv.of_decode el ml wl fun halts => ?_
    obtain rfl := eq_halt_of_holdsHalt ho (hl ▸ halts)
    exact nomatch hazard.symm.trans (stalls_of_no_registers _ rfl rfl)
  | admitted a =>
    have k := a.keeps
    have same : holdsHalt t.el = holdsHalt s.dl := by rw [a.el, hl]; exact holdsHalt_congr rfl
    refine ⟨by rw [a.dl]; exact nofun, fun halts => ?_, ?_, ?_⟩
    · obtain ⟨disabled, notHeld, -⟩ := h.inDecode (same.symm.trans halts)
      exact ⟨a.dl, k.fetchEn.trans disabled, k.flHeld.trans notHeld⟩
    · rw [k.ml]; exact fun c => nomatch c.symm.trans ml
    · rw [k.wl]; exact fun c => nomatch c.symm.trans wl

/-- Forwarding a HALT disables Fetch (R137). -/
theorem State.forwarded_haltInv {s : State} (l : Latch) (el : holdsHalt s.el = false) (ml : holdsHalt s.ml = false)
    (wl : holdsHalt s.wl = false) : HaltInv (s.forwarded l) := by
  refine HaltInv.of_decode el ml wl fun halts => ⟨?_, rfl, rfl⟩
  have hl : l.op = .instr .halt := of_decide_eq_true halts
  simp [State.forwarded, hl]

/-- Fetch loads or retries only while no HALT has been received. -/
theorem fetchState_haltInv (s : State) (h : HaltInv s) : HaltInv (fetchState s) := by
  have o := fetchState_outcome s
  generalize fetchState s = t at o
  cases o with
  | bubble _ answer => subst answer; exact h.congr rfl rfl rfl rfl rfl rfl rfl
  | disabled _ _ _ answer => subst answer; exact h
  | waits _ _ _ _ answer => subst answer; exact h.congr rfl rfl rfl rfl rfl rfl rfl
  | missing _ _ _ answer => subst answer; exact h.congr rfl rfl rfl rfl rfl rfl rfl
  | retried l _ held _ _ answer =>
    obtain ⟨-, el, ml, wl⟩ := h.ahead_of_fetch (by simp [held])
    subst answer
    exact State.forwarded_haltInv _ el ml wl
  | loads _ _ _ enabled _ answer =>
    obtain ⟨-, el, ml, wl⟩ := h.ahead_of_fetch (by simp [enabled])
    subst answer
    exact State.forwarded_haltInv _ el ml wl
  | holds _ _ _ enabled _ answer =>
    obtain ⟨dl, el, ml, wl⟩ := h.ahead_of_fetch (by simp [enabled])
    subst answer
    exact HaltInv.of_decode el ml wl fun c => nomatch c.symm.trans dl

/-- Settles O55: every stage keeps `HaltInv`. -/
theorem nothingEverFollowsAHalt : Obligations.NothingEverFollowsAHalt := by
  intro s t hs h
  exact step_keeps (P := HaltInv) h (fun _ => hs.congr rfl rfl rfl rfl rfl rfl rfl)
    (fun _ => hs.congr rfl rfl rfl rfl rfl rfl rfl) writebackState_haltInv memoryState_haltInv executeState_haltInv
    decodeState_haltInv fetchState_haltInv fun _ hu => hu.congr rfl rfl rfl rfl rfl rfl rfl

end Sys2Proof.Machine
end

section
/-! PROOFS. What one tick is (40_scheduler.md R111 to R116, R121): the stages in reverse pipeline order, one commit at most, one
clock tick, and every instruction one latch further. -/

namespace Sys2Proof.Machine

/-! ## The tick as its stages (R111) -/

theorem decodeState_of_performs {s u : State} (h : Performs .decode s.dl s u) : decodeState s = u := by
  rcases h with ⟨hd, rfl⟩ | ⟨l, i, hd, ho, he⟩
  · exact decodeState_none hd
  · rw [decodeState_instr hd ho]
    rw [exec_decode _ rfl] at he
    exact Host.Outcome.next.inj he

/-- A tick that neither halts nor faults before Fetch is what each stage performs in the state that the one before left, and
then Fetch. -/
theorem step_of_performs {s s1 s2 s3 s4 : State} (t0 : s.terminal = false)
    (writeback : Performs .writeback s.wl { s with committed := none } s1) (t1 : s1.terminal = false)
    (memory : Performs .memory s1.ml s1 s2) (t2 : s2.terminal = false)
    (execute : Performs .execute s2.el s2 s3) (t3 : s3.terminal = false)
    (decode : Performs .decode s3.dl s3 s4) (t4 : s4.terminal = false) :
    step s = .next (fetchState s4).endTick := by
  rw [step_eq, tickState_running t0,
    writebackState_of_performs (s := { s with committed := none }) writeback, live_running memoryState t1,
    memoryState_of_performs memory, live_running executeState t2,
    executeState_of_performs execute, live_running decodeState t3,
    decodeState_of_performs decode, live_running fetchState t4]

theorem fetchState_of_ifetch {s : State} {i : Instr} (pending : s.redirectPending = false) (held : s.flHeld = false)
    (enabled : s.fetchEn = true) (here : s.ifetch s.pc = .instr i) : fetchState s = fetchAction i (s.at .fetch) := by
  simp [fetchState, pending, held, enabled, here, fetchOpState]

/-- Settles O12: four stages have nothing to do, and Fetch loads from the pc. -/
theorem aTickRunsTheInstructionAtThePc : Obligations.ATickRunsTheInstructionAtThePc := by
  intro s i live dl el ml wl pending held enabled here
  have fetched : fetchState { s with committed := none } = fetchAction i { s with committed := none, turn := .fetch } :=
    fetchState_of_ifetch pending held enabled here
  refine ⟨_, exec_fetch i rfl, ?_⟩
  rw [← fetched]
  exact step_of_performs live (.inl ⟨wl, rfl⟩) live (.inl ⟨ml, rfl⟩) live (.inl ⟨el, rfl⟩) live (.inl ⟨dl, rfl⟩) live

/-- Settles O13: each of the four latches is occupied, so each stage performs its occupant's action. -/
theorem aTickRunsTheStagesInReverseOrder : Obligations.ATickRunsTheStagesInReverseOrder := by
  intro s s1 s2 s3 s4 lw lm le ld jw jm je jd t0 hw how ew t1 hm hom em t2 he hoe ee t3 hd hod ed t4
  exact ⟨fetchState s4, runFetch_eq s4, step_of_performs t0 (.inr ⟨lw, jw, hw, how, ew⟩) t1 (.inr ⟨lm, jm, hm, hom, em⟩) t2
    (.inr ⟨le, je, he, hoe, ee⟩) t3 (.inr ⟨ld, jd, hd, hod, ed⟩) t4⟩

/-! ## The clock (R112, R121) -/

theorem terminal_eq_false_iff (s : State) : s.terminal = false ↔ s.halted = false ∧ s.fault = none := by
  simp [State.terminal]

theorem terminal_iff (s : State) : s.terminal = true ↔ s.halted = true ∨ s.fault ≠ none := by
  simp [State.terminal, Option.isSome_iff_ne_none]

/-- No stage advances the clock; the end of the tick does. -/
theorem tickState_clock {s : State} (running : s.terminal = false) : (tickState s).clock = s.clock + 1 :=
  step_keeps (P := fun u => u.clock = s.clock) (Q := fun u => u.clock = s.clock + 1) (step_eq s)
    (fun ended => nomatch running.symm.trans ended) (fun _ => rfl)
    (writeback := fun u hu => (writebackState_keeps u).clock.trans hu)
    (memory := fun u hu => (memoryState_keeps u).clock.trans hu)
    (execute := fun u hu => (executeState_keeps u).clock.trans hu)
    (decode := fun u hu => (decodeState_keeps u).clock.trans hu)
    (fetch := fun u hu => (fetchState_keeps u).clock.trans hu)
    (finish := fun _ hu => congrArg (· + 1) hu)

/-- Settles O9: the step always answers, and a finished engine runs no stage. -/
theorem aLiveTickIsCountedOnceAndAFinishedEngineStays : Obligations.ALiveTickIsCountedOnceAndAFinishedEngineStays := by
  intro s
  constructor
  · intro halted fault
    exact ⟨tickState s, step_eq s, tickState_clock ((terminal_eq_false_iff s).mpr ⟨halted, fault⟩)⟩
  · intro ended
    rw [step_eq, tickState_ended ((terminal_iff s).mpr ended)]

/-! ## The commit (R116, R218) -/

/-- The commits of `t` are those of `s`: their count and the report of the tick. -/
def SameCommit (s t : State) : Prop := t.insnCompleted = s.insnCompleted ∧ t.committed = s.committed

/-- Only Writeback counts and reports an instruction. -/
theorem step_retires {s t : State} (running : s.terminal = false) (h : step s = .next t) :
    SameCommit (writebackState { s with committed := none }) t := by
  generalize hw : writebackState { s with committed := none } = w
  exact step_stages (Q := SameCommit w) (P0 := fun u => u = { s with committed := none }) (P1 := SameCommit w)
    (P2 := SameCommit w) (P3 := SameCommit w) (P4 := SameCommit w) (P5 := SameCommit w) h
    (fun ended => nomatch running.symm.trans ended) (fun _ => rfl)
    (writeback := fun u hu => by rw [hu, hw]; exact ⟨rfl, rfl⟩)
    (memory := fun u hu _ => ⟨(memoryState_keeps u).insnCompleted.trans hu.1, (memoryState_keeps u).committed.trans hu.2⟩)
    (execute := fun u hu _ => ⟨(executeState_keeps u).insnCompleted.trans hu.1, (executeState_keeps u).committed.trans hu.2⟩)
    (decode := fun u hu _ => ⟨(decodeState_keeps u).insnCompleted.trans hu.1, (decodeState_keeps u).committed.trans hu.2⟩)
    (fetch := fun u hu _ => ⟨(fetchState_keeps u).insnCompleted.trans hu.1, (fetchState_keeps u).committed.trans hu.2⟩)
    (stop1 := fun _ hu _ => hu) (stop2 := fun _ hu _ => hu) (stop3 := fun _ hu _ => hu) (stop4 := fun _ hu _ => hu)
    (finish := fun _ hu => hu)

/-- Writeback of a latch whose fields have their values commits (R216, R218). -/
theorem writebackState_commits {s : State} {l : Latch} (hl : s.wl = some l) (ready : l.readyForWriteback = true) :
    ∃ i, Committed i l (s.at .writeback) (writebackState s) := by
  cases ho : l.op with
  | invalid => exact nomatch (not_ready_of_invalid ho).2.2.symm.trans ready
  | instr i =>
    obtain ⟨executed, loaded⟩ := (readyForWriteback_instr ho).mp ready
    obtain ⟨result, base, -⟩ := (executed_iff l i).mp executed
    rw [writebackState_instr hl ho]
    cases writebackAction_outcome (s := s.at .writeback) i hl with
    | missing field written _ =>
      rcases field with ⟨hs, hr⟩ | ⟨hp, hb⟩
      · have here := (producesResult_or_load written hs).elim result loaded
        simp [hr] at here
      · have here := base hp
        simp [hb] at here
    | committed c => exact ⟨i, c⟩

/-- Settles O11: the commit of the tick is that of Writeback, which commits the occupant of `WL` if there is one. -/
theorem aTickRetiresTheInstructionInWriteback : Obligations.ATickRetiresTheInstructionInWriteback := by
  intro s t running fields h
  obtain ⟨counted, reported⟩ := step_retires running h
  constructor
  · intro empty
    have idle := writebackState_none (s := { s with committed := none }) empty
    exact ⟨by rw [counted, idle], by rw [reported, idle]⟩
  · intro l hl
    obtain ⟨i, c⟩ := writebackState_commits (s := { s with committed := none }) hl (fields.writebackReady l hl)
    exact ⟨counted.trans c.counted, reported.trans c.reported⟩

/-! ## Instructions move on one latch a tick (R113) -/

/-- The address and the record of a latch's occupant, which no stage changes. -/
def occupant (o : Option Latch) : Option (Word × Fetched) := o.map fun l => (l.pc, l.op)

theorem occupant_congr {l l' : Latch} (pc : l'.pc = l.pc) (op : l'.op = l.op) :
    occupant (some l') = occupant (some l) := by
  simp only [occupant, Option.map_some, pc, op]

/-- Memory moves the occupant of `ML` to `WL`, or faults (R214). -/
theorem memoryState_moves {s : State} (hw : s.wl = none) (h : (memoryState s).terminal = false) :
    occupant (memoryState s).wl = occupant s.ml := by
  revert h
  refine memoryState_elim (P := fun t => t.terminal = false → occupant t.wl = occupant s.ml) s (fun hm _ => by rw [hw, hm])
    (fun _ _ _ => by simp) fun l i t hl _ o => ?_
  cases o with
  | missing _ _ answer => subst answer; simp
  | outOfRange _ _ _ _ answer => subst answer; simp
  | accessed l' a =>
    intro _
    rw [a.wl, hl]
    exact occupant_congr a.record.1 a.record.2.1

/-- Execute moves the occupant of `EL` to `ML`, or faults (R189). -/
theorem executeState_moves {s : State} (hm : s.ml = none) (h : (executeState s).terminal = false) :
    occupant (executeState s).ml = occupant s.el := by
  revert h
  refine executeState_elim (P := fun t => t.terminal = false → occupant t.ml = occupant s.el) s (fun he _ => by rw [hm, he])
    (fun _ _ _ => by simp) fun l i t hl _ o => ?_
  cases o with
  | uncaptured _ answer => subst answer; simp
  | divides answer => subst answer; simp
  | executed l' e =>
    intro _
    rw [e.ml, hl]
    exact occupant_congr e.record.1 e.record.2.1

/-- Execute leaves `DL` as it is, or flushes it by a redirect (R195). -/
theorem executeState_dl (s : State) : (executeState s).dl = s.dl ∨ (executeState s).dl = none := by
  refine executeState_elim (P := fun t => t.dl = s.dl ∨ t.dl = none) s (fun _ => .inl rfl) (fun _ _ _ => .inl rfl)
    fun l i t _ _ o => ?_
  cases o with
  | uncaptured _ answer => subst answer; exact .inl rfl
  | divides answer => subst answer; exact .inl rfl
  | executed _ e => exact e.front.imp (·.dl) (·.1.dl)

/-- Decode moves the occupant of `DL` to `EL`, or nothing (R165, R166). -/
theorem decodeState_moves {s : State} (he : s.el = none) :
    (decodeState s).el = none ∨ occupant (decodeState s).el = occupant s.dl := by
  refine decodeState_elim (P := fun t => t.el = none ∨ occupant t.el = occupant s.dl) s (fun _ => .inl he)
    (fun _ _ _ => .inl he) fun l i t hl _ o => ?_
  cases o with
  | refused _ answer => subst answer; exact .inl he
  | admitted a =>
    rw [a.el, hl]
    exact .inr (occupant_congr rfl rfl)

/-- The latches past Decode of `t` hold what was one latch behind in `s`, and `EL` that or nothing. -/
structure Advanced (s t : State) : Prop where
  writeback : occupant t.wl = occupant s.ml
  memory : occupant t.ml = occupant s.el
  execute : t.el = none ∨ occupant t.el = occupant s.dl

/-- Settles O49: each stage of the tick moves its occupant into a latch that the stage before it emptied. -/
theorem instructionsAdvanceInOrder : Obligations.InstructionsAdvanceInOrder := by
  intro s t running h goesOn
  have advanced : t.terminal = false → Advanced s t := step_stages (Q := fun u => u.terminal = false → Advanced s u)
    (P0 := fun u => u.ml = s.ml ∧ u.el = s.el ∧ u.dl = s.dl)
    (P1 := fun u => (u.terminal = false → u.wl = none) ∧ u.ml = s.ml ∧ u.el = s.el ∧ u.dl = s.dl)
    (P2 := fun u => (u.terminal = false → occupant u.wl = occupant s.ml ∧ u.ml = none) ∧ u.el = s.el ∧ u.dl = s.dl)
    (P3 := fun u => (u.terminal = false → occupant u.ml = occupant s.el ∧ u.el = none) ∧ occupant u.wl = occupant s.ml ∧
      (u.dl = s.dl ∨ u.dl = none))
    (P4 := Advanced s) (P5 := Advanced s) h (fun ended => nomatch running.symm.trans ended) (fun _ => ⟨rfl, rfl, rfl⟩)
    ?writeback ?memory ?execute ?decode ?fetch
    (stop1 := fun _ _ ended live => nomatch ended.symm.trans live)
    (stop2 := fun _ _ ended live => nomatch ended.symm.trans live)
    (stop3 := fun _ _ ended live => nomatch ended.symm.trans live)
    (stop4 := fun _ _ ended live => nomatch ended.symm.trans live)
    (finish := fun _ ⟨wl, ml, el⟩ _ => ⟨wl, ml, el⟩)
  · obtain ⟨wl, ml, el⟩ := advanced goesOn
    exact ⟨wl, ml, el⟩
  case writeback =>
    intro u ⟨ml, el, dl⟩
    have k := writebackState_keeps u
    exact ⟨writebackState_wl, k.ml.trans ml, k.el.trans el, k.dl.trans dl⟩
  case memory =>
    intro u ⟨empty, ml, el, dl⟩ live
    have k := memoryState_keeps u
    exact ⟨fun goesOn => ⟨ml ▸ memoryState_moves (empty live) goesOn, memoryState_ml goesOn⟩, k.el.trans el, k.dl.trans dl⟩
  case execute =>
    intro u ⟨moved, el, dl⟩ live
    obtain ⟨wl, empty⟩ := moved live
    refine ⟨fun goesOn => ⟨el ▸ executeState_moves empty goesOn, executeState_el goesOn⟩, ?_, dl ▸ executeState_dl u⟩
    rw [(executeState_keeps u).wl, wl]
  case decode =>
    intro u ⟨moved, wl, dl⟩ live
    obtain ⟨ml, empty⟩ := moved live
    have k := decodeState_keeps u
    refine ⟨by rw [k.wl, wl], by rw [k.ml, ml], ?_⟩
    rcases dl with same | flushed
    · exact same ▸ decodeState_moves empty
    · exact .inl (by rw [decodeState_none flushed, empty])
  case fetch =>
    intro u ⟨wl, ml, el⟩ _
    have k := fetchState_keeps u
    exact ⟨by rwa [k.wl], by rwa [k.ml], by rwa [k.el]⟩

end Sys2Proof.Machine
end

section
/-! PROOFS. What Fetch does (41_fetch.md): the bubble after a redirect, the retry of a held instruction, the load from the pc and
where the pc goes on. -/

namespace Sys2Proof.Machine

/-! ## Without a load (R131 to R133) -/

theorem fetchState_of_pending {s : State} (pending : s.redirectPending = true) :
    fetchState s = { s with redirectPending := false } := by
  simp [fetchState, pending]

theorem fetchState_of_held {s : State} {l : Latch} (pending : s.redirectPending = false) (held : s.flHeld = true)
    (latch : s.fl = some l) : fetchState s = fetchOpState l.op s := by
  simp [fetchState, pending, held, latch]

theorem fetchState_of_disabled {s : State} (pending : s.redirectPending = false) (held : s.flHeld = false)
    (disabled : s.fetchEn = false) : fetchState s = s := by
  simp [fetchState, pending, held, disabled]

/-- Settles O15: one branch of `Fetch()` for each clause, and a retry is the held case of `fetchWith`. -/
theorem fetchConsumesARedirectRetriesOrWaits : Obligations.FetchConsumesARedirectRetriesOrWaits := by
  intro s
  rw [runFetch_eq]
  refine ⟨fun pending => ?_, fun l pending held latch empty => ?_, fun l pending held latch occupied => ?_,
    fun pending held disabled => ?_⟩
  · rw [fetchState_of_pending pending]
  · obtain ⟨next, retry⟩ := fetchOpState_eq l.op s
    rw [fetchState_of_held pending held latch, retry,
      fetchWith_held_forwards (s := s.at .fetch) _ _ _ held empty latch rfl]
    rfl
  · obtain ⟨next, retry⟩ := fetchOpState_eq l.op s
    rw [fetchState_of_held pending held latch, retry,
      fetchWith_held_waits (s := s.at .fetch) _ _ _ held (Option.isSome_iff_ne_none.mpr occupied)]
    rfl
  · rw [fetchState_of_disabled pending held disabled]

/-! ## The load (R134, R135, R137) -/

/-- With nothing held, Fetch loads: it forwards to an empty `DL` and holds behind an occupied one. -/
theorem fetchWith_instr_loaded {s : State} (i : Instr) (next : State → Word) (held : s.flHeld = false) :
    fetchWith (.instr i) (decide (i = .halt)) next s = s.loaded i (next s) (s.fetchEn && !decide (i = .halt)) := by
  cases hd : s.dl with
  | none =>
    rw [fetchWith_loads _ _ _ held hd (by simp)]
    simp [State.loaded, State.forwarded, hd, held, Latch.fresh]
  | some d =>
    rw [fetchWith_holds _ _ _ held (by simp [hd])]
    simp [State.loaded, hd]

/-- An instruction that is never predicted goes on sequentially. -/
theorem fetchAction_of_untrained {i : Instr} (h : trainedAs i = none) :
    fetchAction i = fetchWith (.instr i) (decide (i = .halt)) sequentialPc := by
  cases i with
  | bz imm | bnz imm | bp imm | bnp imm => exact nomatch h
  | _ => rfl

/-- A predictor-trained branch goes on where the predictor says. -/
theorem fetchAction_of_trained {i : Instr} {op : Trained} (h : trainedAs i = some op) :
    fetchAction i = fetchWith (.instr i) (decide (i = .halt)) (predictedPc op) := by
  cases i with
  | bz imm | bnz imm | bp imm | bnp imm => cases h; rfl
  | _ => exact nomatch h

theorem ne_halt_of_trained {i : Instr} {op : Trained} (h : trainedAs i = some op) : i ≠ .halt := by
  rintro rfl
  exact nomatch h

theorem exec_fetch_untrained {i : Instr} {s : State} (h : trainedAs i = none) (turn : s.turn = .fetch)
    (held : s.flHeld = false) :
    exec i s = .next (s.loaded i (sequentialPc s) (s.fetchEn && !decide (i = .halt))) := by
  rw [exec_fetch i turn, fetchAction_of_untrained h, fetchWith_instr_loaded i _ held]

theorem exec_fetch_trained {i : Instr} {op : Trained} {s : State} (h : trainedAs i = some op) (turn : s.turn = .fetch)
    (held : s.flHeld = false) : exec i s = .next (s.loaded i (predictedPc op s) s.fetchEn) := by
  rw [exec_fetch i turn, fetchAction_of_trained h, fetchWith_instr_loaded i _ held]
  simp [ne_halt_of_trained h]

theorem sequentialPc_eq (s : State) : sequentialPc s = s.cfg.fit (s.pc + s.cfg.strideWord) := nextAddress_eq s.cfg s.pc

/-- Settles O16. -/
theorem fetchLoadsAndForwardsOrHolds : Obligations.FetchLoadsAndForwardsOrHolds := by
  intro i s untrained turn held
  rw [exec_fetch_untrained untrained turn held, sequentialPc_eq]

/-! ## The predicted pc (R136, R138, R234) -/

theorem State.btbEntry_of_getElem? {s : State} {k : Nat} {e : BtbEntry} (h : s.btb[k]? = some e) : s.btbEntry k = e := by
  simp [State.btbEntry, List.getD, h]

/-- The entry that a lookup finds predicts its target when it is resolved and its counter has reached the threshold. -/
theorem State.prediction_of_entry {s : State} {p : Word} {k : Nat} {e : BtbEntry} (op : Trained)
    (found : s.btbFind p = some k) (entry : s.btb[k]? = some e) :
    s.prediction p op = if e.resolved = true ∧ s.cfg.takenMin op ≤ e.ctr.toNat then some e.target else none := by
  simp [State.prediction, found, State.btbEntry_of_getElem? entry, BtbEntry.predictsTaken]

theorem State.prediction_of_absent {s : State} {p : Word} (op : Trained) (absent : s.btbFind p = none) :
    s.prediction p op = none := by
  simp [State.prediction, absent]

theorem predictedPc_of_prediction {s : State} {op : Trained} {target : Word} (policy : s.cfg.policy = .ss)
    (h : s.prediction s.pc op = some target) : predictedPc op s = target := by
  simp [predictedPc, policy, h]

/-- Without a prediction both policies go on sequentially. -/
theorem predictedPc_of_no_prediction {s : State} {op : Trained} (h : s.prediction s.pc op = none) :
    predictedPc op s = sequentialPc s := by
  cases policy : s.cfg.policy <;> simp [predictedPc, policy, h]

theorem predictedPc_fb {s : State} (op : Trained) (policy : s.cfg.policy = .fb) : predictedPc op s = sequentialPc s := by
  simp [predictedPc, policy]

/-- Settles O17: Fetch of a trained branch goes on at `predictedPc`, which is the stored target exactly when `SS` predicts one. -/
theorem fetchFollowsThePredictorUnderScoreboardStall : Obligations.FetchFollowsThePredictorUnderScoreboardStall := by
  intro i op s trained turn held
  rw [exec_fetch_trained trained turn held, ← sequentialPc_eq]
  refine ⟨fun k e policy found entry resolved reached => ?_, fun k e found entry notTaken => ?_, fun unpredicted => ?_⟩
  · have taken : s.prediction s.pc op = some e.target := by
      rw [State.prediction_of_entry op found entry, if_pos ⟨resolved, reached⟩]
    rw [predictedPc_of_prediction policy taken]
  · have noPrediction : s.prediction s.pc op = none := by
      rw [State.prediction_of_entry op found entry, if_neg]
      rintro ⟨resolved, reached⟩
      rcases notTaken with unresolved | below
      · exact nomatch resolved.symm.trans unresolved
      · exact absurd reached (Nat.not_le.mpr below)
    rw [predictedPc_of_no_prediction noPrediction]
  · rcases unpredicted with policy | absent
    · rw [predictedPc_fb op policy]
    · rw [predictedPc_of_no_prediction (State.prediction_of_absent op absent)]

end Sys2Proof.Machine
end

section
/-! PROOFS. What Decode does (42_decode_hazard.md): which registers an instruction reads and writes, when a hazard refuses it, what its
admission captures and marks, the entry it allocates, and the fault of the INVALID marker. -/

namespace Sys2Proof.Machine

/-! ## The source and write sets (R151) -/

theorem mem_sources_iff {i : Instr} {r : Reg} : r ∈ sources i ↔ operand1 i = some r ∨ operand2 i = some r := by
  simp [sources]

theorem mem_writes_iff {i : Instr} {r : Reg} : r ∈ writes i ↔ r ∈ writesAtExecute i ∨ r ∈ writesAtMemory i := by
  rw [writes, List.mem_append, or_comm]

/-- The row of R151's table for `i`: the registers captured into `v1` and `v2`, `WE(I)` and `WM(I)`. -/
structure RegisterSets (i : Instr) (v1 v2 : Option Reg) (we wm : List Reg) : Prop where
  operand1 : operand1 i = v1
  operand2 : operand2 i = v2
  atExecute : writesAtExecute i = we
  atMemory : writesAtMemory i = wm

section
variable {i : Instr} {v1 v2 : Option Reg} {we wm : List Reg} {r a b : Reg}

theorem RegisterSets.mem_writes (h : RegisterSets i v1 v2 we wm) : r ∈ writes i ↔ r ∈ we ∨ r ∈ wm := by
  rw [mem_writes_iff, h.atExecute, h.atMemory]

theorem RegisterSets.mem_sources_both (h : RegisterSets i (some a) (some b) we wm) : r ∈ sources i ↔ r = a ∨ r = b := by
  rw [mem_sources_iff, h.operand1, h.operand2, Option.some_inj, Option.some_inj, eq_comm, eq_comm (a := b)]

theorem RegisterSets.mem_sources_first (h : RegisterSets i (some a) none we wm) : r ∈ sources i ↔ r = a := by
  simp [mem_sources_iff, h.operand1, h.operand2, eq_comm]

theorem RegisterSets.not_mem_sources (h : RegisterSets i none none we wm) : r ∉ sources i := by
  simp [mem_sources_iff, h.operand1, h.operand2]

end

/-- Settles O18: one row of `RegisterSets` for each group of mnemonics. -/
theorem sourceAndWriteSetsFollowTheTable : Obligations.SourceAndWriteSetsFollowTheTable := by
  intro rd rs1 rs2 r imm
  have rrr : ∀ i ∈ [Instr.add rd rs1 rs2, .sub rd rs1 rs2, .mul rd rs1 rs2, .div rd rs1 rs2, .and rd rs1 rs2, .or rd rs1 rs2,
      .xor rd rs1 rs2], RegisterSets i (some rs1) (some rs2) [rd] [] := by
    simp only [List.forall_mem_cons]
    exact ⟨⟨rfl, rfl, rfl, rfl⟩, ⟨rfl, rfl, rfl, rfl⟩, ⟨rfl, rfl, rfl, rfl⟩, ⟨rfl, rfl, rfl, rfl⟩, ⟨rfl, rfl, rfl, rfl⟩,
      ⟨rfl, rfl, rfl, rfl⟩, ⟨rfl, rfl, rfl, rfl⟩, nofun⟩
  have rri : ∀ i ∈ [Instr.addl rd rs1 imm, .subl rd rs1 imm, .jalr rd rs1 imm], RegisterSets i (some rs1) none [rd] [] := by
    simp only [List.forall_mem_cons]
    exact ⟨⟨rfl, rfl, rfl, rfl⟩, ⟨rfl, rfl, rfl, rfl⟩, ⟨rfl, rfl, rfl, rfl⟩, nofun⟩
  have movc : RegisterSets (.movc rd imm) none none [rd] [] := ⟨rfl, rfl, rfl, rfl⟩
  have load : RegisterSets (.load rd rs1 imm) (some rs1) none [] [rd] := ⟨rfl, rfl, rfl, rfl⟩
  have loadp : RegisterSets (.loadp rd rs1 imm) (some rs1) none [rs1] [rd] := ⟨rfl, rfl, rfl, rfl⟩
  have reads : ∀ i ∈ [Instr.store rs1 rs2 imm, .cmp rs1 rs2], RegisterSets i (some rs1) (some rs2) [] [] := by
    simp only [List.forall_mem_cons]
    exact ⟨⟨rfl, rfl, rfl, rfl⟩, ⟨rfl, rfl, rfl, rfl⟩, nofun⟩
  have storep : RegisterSets (.storep rs1 rs2 imm) (some rs1) (some rs2) [rs2] [] := ⟨rfl, rfl, rfl, rfl⟩
  have si : ∀ i ∈ [Instr.cml rs1 imm, .jump rs1 imm], RegisterSets i (some rs1) none [] [] := by
    simp only [List.forall_mem_cons]
    exact ⟨⟨rfl, rfl, rfl, rfl⟩, ⟨rfl, rfl, rfl, rfl⟩, nofun⟩
  have noRegisters : ∀ i ∈ [Instr.bz imm, .bnz imm, .bp imm, .bnp imm, .bn imm, .bnn imm, .nop, .halt],
      RegisterSets i none none [] [] := by
    simp only [List.forall_mem_cons]
    exact ⟨⟨rfl, rfl, rfl, rfl⟩, ⟨rfl, rfl, rfl, rfl⟩, ⟨rfl, rfl, rfl, rfl⟩, ⟨rfl, rfl, rfl, rfl⟩, ⟨rfl, rfl, rfl, rfl⟩,
      ⟨rfl, rfl, rfl, rfl⟩, ⟨rfl, rfl, rfl, rfl⟩, ⟨rfl, rfl, rfl, rfl⟩, nofun⟩
  refine ⟨fun i hi => ?_, fun i hi => ?_, ?_, ?_, ?_, fun i hi => ?_, ?_, fun i hi => ?_, fun i hi => ?_,
    fun i => mem_writes_iff⟩
  · have row := rrr i hi
    exact ⟨row.mem_sources_both, by simp [row.atExecute], by simp [row.atMemory], row.operand1, row.operand2⟩
  · have row := rri i hi
    exact ⟨row.mem_sources_first, by simp [row.atExecute], by simp [row.atMemory], row.operand1⟩
  · exact ⟨movc.not_mem_sources, by simp [movc.atExecute], by simp [movc.atMemory]⟩
  · exact ⟨load.mem_sources_first, by simp [load.atExecute], by simp [load.atMemory], load.operand1⟩
  · exact ⟨loadp.mem_sources_first, by simp [loadp.atExecute], by simp [loadp.atMemory], loadp.operand1⟩
  · have row := reads i hi
    exact ⟨row.mem_sources_both, by simp [row.mem_writes], row.operand1, row.operand2⟩
  · exact ⟨storep.mem_sources_both, by simp [storep.atExecute], by simp [storep.atMemory], storep.operand1, storep.operand2⟩
  · have row := si i hi
    exact ⟨row.mem_sources_first, by simp [row.mem_writes], row.operand1⟩
  · have row := noRegisters i hi
    exact ⟨row.not_mem_sources, by simp [row.mem_writes]⟩

/-! ## Refused (R161, R162, R165) -/

/-- What the absence of a hazard says (R161, R162). -/
theorem State.stalls_eq_false_iff (s : State) (i : Instr) : s.stalls i = false ↔ (∀ r ∈ writes i, s.isBusy r = false) ∧
    ∀ r ∈ sources i, s.isBusy r = false ∨ (s.cfg.policy = .fb ∧ s.isPending r = true) := by
  have pendingUnder (r : Reg) : (s.cfg.policy = .fb ∧ s.isPending r = true) ↔
      ¬ (s.cfg.policy = .fb → s.isPending r = false) := by simp
  rw [← Bool.not_eq_true, State.stalls_iff, not_or]
  simp only [not_exists, not_and_or, Bool.not_eq_true, pendingUnder, imp_iff_not_or]

/-- Under `SS` a busy source or destination is a hazard (R161). -/
theorem State.stalls_of_busy_ss {s : State} {i : Instr} {r : Reg} (policy : s.cfg.policy = .ss)
    (touched : r ∈ sources i ∨ r ∈ writes i) (busy : s.isBusy r = true) : s.stalls i = true := by
  refine (State.stalls_iff s i).mpr ?_
  rcases touched with source | dest
  · exact .inr ⟨r, source, busy, fun fb => nomatch policy.symm.trans fb⟩
  · exact .inl ⟨r, dest, busy⟩

/-- A hazard refuses every instruction in `DL`, also one that allocates a predictor entry: such a one meets no hazard. -/
theorem decodeAction_of_stalls {i : Instr} {l : Latch} {s : State} (hl : s.dl = some l) (hazard : s.stalls i = true) :
    decodeAction i s = { s with dlStall := true } := by
  cases decodeAction_outcome i hl with
  | refused _ answer => exact answer
  | admitted a => exact nomatch hazard.symm.trans a.noHazard

/-- Settles O19. -/
theorem decodeRefusesWhileAHazardLasts : Obligations.DecodeRefusesWhileAHazardLasts := by
  intro i s turn occupied conflict
  obtain ⟨l, hl⟩ := Option.ne_none_iff_exists'.mp occupied
  have hazard : s.stalls i = true := by
    rcases conflict with ⟨policy, r, touched, busy⟩ | ⟨-, dest | ⟨r, source, busy, noValue⟩⟩
    · exact State.stalls_of_busy_ss policy touched busy
    · exact (State.stalls_iff s i).mpr (.inl dest)
    · exact (State.stalls_iff s i).mpr (.inr ⟨r, source, busy, fun _ => noValue⟩)
  rw [exec_decode i turn, decodeAction_of_stalls hl hazard]

/-! ## Admitted (R160, R163, R164, R166) -/

/-- Marking changes the busy bits only (R163). -/
theorem State.markAll_eq (s : State) (ws : List Reg) : s.markAll ws = { s with busy := (s.markAll ws).busy } := by
  induction ws generalizing s with
  | nil => rfl
  | cons w rest ih => exact ih (s.markBusy w)

/-- An instruction that is not predicted has no action at Decode but the shared one. -/
theorem decodeAction_of_untrained {i : Instr} (h : trainedAs i = none) : decodeAction i = decodeStage i := by
  cases i with
  | bz imm | bnz imm | bp imm | bnp imm => exact nomatch h
  | _ => rfl

/-- Settles O20: `decodeStage_admits`, where marking changes `busy` only and `opnd` reads as `State.opnd_eq` says. -/
theorem decodeAdmitsAnInstructionWithoutHazard : Obligations.DecodeAdmitsAnInstructionWithoutHazard := by
  intro i s l untrained turn hl destinations sources
  have noHazard : s.stalls i = false := (State.stalls_eq_false_iff s i).mpr ⟨destinations, sources⟩
  have captured : s.opnd = fun r =>
      if s.cfg.policy = .fb ∧ s.isPending r = true then s.pendingValue r else s.reg r := funext s.opnd_eq
  refine ⟨_, exec_decode i turn, ?_⟩
  rw [decodeAction_of_untrained untrained, decodeStage_admits hl noHazard, ← captured]
  refine ⟨fun r => State.isBusy_markAll s (writes i) r, ?_⟩
  rw [State.markAll_eq]

/-! ## Predicted branches (R153, R232) -/

/-- A predictor-trained branch reads and writes no register (R151). -/
theorem registerSets_of_trained {i : Instr} {op : Trained} (h : trainedAs i = some op) : RegisterSets i none none [] [] := by
  cases i with
  | bz imm | bnz imm | bp imm | bnp imm => exact ⟨rfl, rfl, rfl, rfl⟩
  | _ => exact nomatch h

theorem decodeAction_of_trained {i : Instr} {op : Trained} (h : trainedAs i = some op) : decodeAction i = decodeTrained i := by
  cases i with
  | bz imm | bnz imm | bp imm | bnp imm => rfl
  | _ => exact nomatch h

theorem allocateIfMissing_of_absent {s : State} {l : Latch} (hl : s.dl = some l) (policy : s.cfg.policy = .ss)
    (absent : s.btbFind l.pc = none) : allocateIfMissing s = s.btbAlloc l.pc := by
  simp only [allocateIfMissing, hl, policy, absent]

theorem allocateIfMissing_of_present {s : State} {l : Latch} (hl : s.dl = some l)
    (present : s.cfg.policy = .fb ∨ s.btbFind l.pc ≠ none) : allocateIfMissing s = s := by
  rcases present with policy | found
  · simp only [allocateIfMissing, hl, policy]
  · obtain ⟨k, found⟩ := Option.ne_none_iff_exists'.mp found
    cases policy : s.cfg.policy <;> simp only [allocateIfMissing, hl, policy, found]

/-- Without registers there is nothing to wait for, to capture or to mark (R161 to R164). -/
theorem decodeStage_of_no_registers {i : Instr} {l : Latch} {s : State} (row : RegisterSets i none none [] [])
    (hl : s.dl = some l) :
    decodeStage i s = { s with el := some { l with v1 := none, v2 := none }, dl := none, dlStall := false } := by
  have noSources : sources i = [] := by rw [sources, row.operand1, row.operand2]; rfl
  have noWrites : writes i = [] := by rw [writes, row.atExecute, row.atMemory]; rfl
  rw [decodeStage_admits hl (stalls_of_no_registers s noSources noWrites), row.operand1, row.operand2, noWrites]
  rfl

/-- Settles O21: the allocation comes first, and what follows meets no hazard. -/
theorem decodeAllocatesAnEntryForAPredictedBranch : Obligations.DecodeAllocatesAnEntryForAPredictedBranch := by
  intro i op s l trained turn hl
  have row := registerSets_of_trained trained
  rw [exec_decode i turn, decodeAction_of_trained trained, decodeTrained]
  refine ⟨fun present => ?_, fun policy absent => ?_⟩
  · rw [allocateIfMissing_of_present hl present, decodeStage_of_no_registers row hl]
  · rw [allocateIfMissing_of_absent hl policy absent, decodeStage_of_no_registers (s := s.btbAlloc l.pc) row hl]
    rfl

/-! ## The INVALID marker (R152) -/

/-- Settles O43. -/
theorem theInvalidMarkerFaultsAtDecode : Obligations.TheInvalidMarkerFaultsAtDecode := by
  intro s l hl invalid
  rw [runDecode_eq, decodeState_invalid hl invalid]
  rfl

/-! ## The captured values (R170) -/

section
variable {s : State} {r : Reg}

theorem State.valueInOrder_of_memory {l : Latch} (hl : s.ml = some l) (written : r ∈ writesOf s.ml) :
    s.valueInOrder r = l.commitValue r := by
  rw [hl] at written
  simp only [State.valueInOrder, hl, if_pos written]

theorem State.valueInOrder_of_writeback {k : Latch} (unwritten : r ∉ writesOf s.ml) (hk : s.wl = some k)
    (written : r ∈ writesOf s.wl) : s.valueInOrder r = k.commitValue r := by
  rw [hk] at written
  cases hm : s.ml with
  | none => simp only [State.valueInOrder, hm, hk, if_pos written]
  | some l =>
    rw [hm] at unwritten
    simp only [State.valueInOrder, hm, hk, if_neg unwritten, if_pos written]

theorem State.valueInOrder_of_unwritten (memory : r ∉ writesOf s.ml) (writeback : r ∉ writesOf s.wl) :
    s.valueInOrder r = some (s.reg r) := by
  unfold State.valueInOrder
  split
  · rename_i l hm
    rw [if_neg (hm ▸ memory)]
    split
    · rename_i k hk
      rw [if_neg (hk ▸ writeback)]
    · rfl
  · rename_i k _ hk
    rw [if_neg (hk ▸ writeback)]
  · rfl

/-- A pending value is the one that its owner, the only instruction past Decode that writes the register, will commit. -/
theorem HazardInv.valueInOrder_of_pending (h : HazardInv s) (pending : s.isPending r = true) :
    s.valueInOrder r = some (s.pendingValue r) := by
  obtain ⟨-, inMemory | inWriteback⟩ := (h.pendingExactly r).mp pending
  · have written := publishes_writes inMemory
    cases hm : s.ml with
    | none => rw [hm] at inMemory; exact nomatch inMemory
    | some l =>
      rw [State.valueInOrder_of_memory hm written]
      exact h.pendingMemory r l pending hm (hm ▸ inMemory)
  · have written := publishes_writes inWriteback
    have unwritten : r ∉ writesOf s.ml := fun older => h.disjointMemoryWriteback r older written
    cases hk : s.wl with
    | none => rw [hk] at inWriteback; exact nomatch inWriteback
    | some k =>
      rw [State.valueInOrder_of_writeback unwritten hk written]
      exact h.pendingWriteback r k pending hk (hk ▸ inWriteback)

/-- A register that is not busy has no owner past Decode. -/
theorem HazardInv.valueInOrder_of_idle (h : HazardInv s) (idle : s.isBusy r = false) : s.valueInOrder r = some (s.reg r) := by
  have noOwner : ¬ (r ∈ writesOf s.el ∨ r ∈ writesOf s.ml ∨ r ∈ writesOf s.wl) := by
    rw [← h.busyExactly r, idle]
    exact Bool.false_ne_true
  obtain ⟨-, memory, writeback⟩ : _ ∧ _ ∧ _ := by simpa only [not_or] using noOwner
  exact State.valueInOrder_of_unwritten memory writeback

/-- A source that meets no hazard reads what program order gives it: its owner's published value, or the committed register. -/
theorem HazardInv.opnd_eq_valueInOrder {i : Instr} (h : HazardInv s) (noHazard : s.stalls i = false) (source : r ∈ sources i) :
    some (s.opnd r) = s.valueInOrder r := by
  rw [State.opnd_eq]
  by_cases pending : s.cfg.policy = .fb ∧ s.isPending r = true
  · rw [if_pos pending, h.valueInOrder_of_pending pending.2]
  · have idle := (((State.stalls_eq_false_iff s i).mp noHazard).2 r source).resolve_right pending
    rw [if_neg pending, h.valueInOrder_of_idle idle]

end

/-- Settles O60: an admitted instruction captures `opnd` of each source. -/
theorem decodeCapturesTheValueProgramOrderGives : Obligations.DecodeCapturesTheValueProgramOrderGives := by
  intro s t i l h turn _ hl noHazard answer
  rw [exec_decode i turn] at answer
  obtain rfl := Host.Outcome.next.inj answer
  cases decodeAction_outcome i hl with
  | refused hazard _ => exact nomatch hazard.symm.trans noHazard
  | admitted a =>
    refine ⟨_, a.el, fun r first => ?_, fun r second => ?_⟩
    · rw [← h.opnd_eq_valueInOrder noHazard (mem_sources_iff.mpr (.inl first)), first]
      rfl
    · rw [← h.opnd_eq_valueInOrder noHazard (mem_sources_iff.mpr (.inr second)), second]
      rfl

/-! ## A hazard over a whole tick (R169) -/

/-- Writeback releases only the registers of its occupant (44_memory_writeback.md R217). -/
theorem writebackState_isBusy (s : State) (r : Reg) (hr : r ∉ writesOf s.wl) :
    (writebackState s).isBusy r = s.isBusy r := by
  refine writebackState_elim (P := fun t => t.isBusy r = s.isBusy r) s (fun _ => rfl) (fun _ _ _ => rfl) fun l i t hl ho o => ?_
  cases o with
  | missing _ _ answer => subst answer; rfl
  | committed answer =>
    rw [hl, writesOf_instr ho] at hr
    rw [answer.released r, decide_eq_false hr]
    exact Bool.and_true _

/-- Decode marks registers and releases none (R163). -/
theorem decodeState_isBusy (s : State) {r : Reg} (busy : s.isBusy r = true) : (decodeState s).isBusy r = true := by
  refine decodeState_elim (P := fun t => t.isBusy r = true) s (fun _ => busy) (fun _ _ _ => busy) fun l i t _ _ o => ?_
  cases o with
  | refused _ answer => subst answer; exact busy
  | admitted a => rw [a.busy r]; exact Bool.or_eq_true_iff.mpr (.inr busy)

/-- Execute empties `EL`, or ends the tick with its occupant still there (R189, 60_exceptions.md R336). -/
theorem executeState_el_or_ended (s : State) : (executeState s).el = none ∨
    ((executeState s).el = s.el ∧ (executeState s).terminal = true) := by
  refine executeState_elim (P := fun t => t.el = none ∨ (t.el = s.el ∧ t.terminal = true)) s .inl
    (fun _ _ _ => .inr ⟨rfl, by simp⟩) fun l i t _ _ o => ?_
  cases o with
  | uncaptured _ answer => subst answer; exact .inr ⟨rfl, by simp⟩
  | divides answer => subst answer; exact .inr ⟨rfl, by simp⟩
  | executed _ answer => exact .inl answer.el

/-- Decode of an instruction that meets a hazard leaves `EL` alone (R165). -/
theorem decodeState_el_of_stalls {s : State} {l : Latch} {i : Instr} (hl : s.dl = some l) (ho : l.op = .instr i)
    (hazard : s.stalls i = true) : (decodeState s).el = s.el := by
  rw [decodeState_instr hl ho, decodeAction_of_stalls (s := s.at .decode) hl hazard]
  rfl

/-- Under `SS`, `r` is still busy in the middle of a tick that started in `s`, and the latches around Decode hold what they held. -/
structure BusyAhead (s : State) (r : Reg) (u : State) : Prop where
  policy : u.cfg.policy = .ss
  busy : u.isBusy r = true
  el : u.el = s.el
  dl : u.dl = s.dl

/-- Settles O59: the owner's release is Writeback's, which comes for an occupant of `WL` only, so `r` is busy when Decode runs.
Decode then finds its instruction flushed or refuses it; a tick that ends before leaves `EL` empty or as it was. -/
theorem aBusyRegisterHoldsAnInstructionInDecode : Obligations.ABusyRegisterHoldsAnInstructionInDecode := by
  intro s t l i r policy running hl ho touched busy owner h
  refine step_stages (Q := fun u => u.isBusy r = true ∧ (u.el = none ∨ (u.el = s.el ∧ u.terminal = true)))
    (P0 := fun u => BusyAhead s r u ∧ u.wl = s.wl) (P1 := BusyAhead s r) (P2 := BusyAhead s r)
    (P3 := fun u => u.cfg.policy = .ss ∧ u.isBusy r = true ∧ (u.el = none ∨ (u.el = s.el ∧ u.terminal = true)) ∧
      (u.dl = s.dl ∨ u.dl = none))
    (P4 := fun u => u.isBusy r = true ∧ u.el = none) (P5 := fun u => u.isBusy r = true ∧ u.el = none) h
    (fun ended => nomatch running.symm.trans ended) (fun _ => ⟨⟨policy, busy, rfl, rfl⟩, rfl⟩)
    ?writeback ?memory ?execute ?decode ?fetch
    (stop1 := fun _ b ended => ⟨b.busy, .inr ⟨b.el, ended⟩⟩) (stop2 := fun _ b ended => ⟨b.busy, .inr ⟨b.el, ended⟩⟩)
    (stop3 := fun _ ⟨_, stillBusy, el, _⟩ _ => ⟨stillBusy, el⟩) (stop4 := fun _ ⟨stillBusy, el⟩ _ => ⟨stillBusy, .inl el⟩)
    (finish := fun _ ⟨stillBusy, el⟩ => ⟨stillBusy, .inl el⟩)
  case writeback =>
    intro u ⟨b, wl⟩
    have k := writebackState_keeps u
    exact ⟨k.cfg ▸ b.policy, (writebackState_isBusy u r (wl ▸ owner)).trans b.busy, k.el.trans b.el, k.dl.trans b.dl⟩
  case memory =>
    intro u b _
    have k := memoryState_keeps u
    exact ⟨k.cfg ▸ b.policy, (State.isBusy_congr k.busy r).trans b.busy, k.el.trans b.el, k.dl.trans b.dl⟩
  case execute =>
    intro u b _
    have k := executeState_keeps u
    exact ⟨k.cfg ▸ b.policy, (State.isBusy_congr k.busy r).trans b.busy, b.el ▸ executeState_el_or_ended u,
      b.dl ▸ executeState_dl u⟩
  case decode =>
    intro u ⟨policy, stillBusy, el, dl⟩ live
    have empty : u.el = none := el.resolve_right fun ended => nomatch live.symm.trans ended.2
    refine ⟨decodeState_isBusy u stillBusy, ?_⟩
    rcases dl with same | flushed
    · rw [decodeState_el_of_stalls (same.trans hl) ho (State.stalls_of_busy_ss policy touched stillBusy), empty]
    · rw [decodeState_none flushed, empty]
  case fetch =>
    intro u ⟨stillBusy, el⟩ _
    have k := fetchState_keeps u
    exact ⟨(State.isBusy_congr k.busy r).trans stillBusy, k.el.trans el⟩

end Sys2Proof.Machine
end

section
/-! PROOFS. Execute of every instruction but the register-register computations and the trained branches (43_execute_redirect.md
R181 to R194), and the instructions that pass a stage unchanged. -/

namespace Sys2Proof.Machine

/-! ## Division (R187, 46_insn_alu.md R254, R263) -/

theorem computeDiv_of_captured {s : State} {l : Latch} {a b : Word} (rd : Reg) (hl : s.el = some l) (ha : l.v1 = some a)
    (hb : l.v2 = some b) : computeDiv rd s =
      if divFaults s.cfg a b then s.raise (.arithmeticFault l.pc) else s.finishResult l rd (divWords s.cfg a b) := by
  rw [computeDiv, State.inExecute_some hl, ha, hb, State.reading_some, State.reading_some]

/-- Settles O23: the two clauses are the two branches of `computeDiv`, and the quotient by signs and magnitudes is
`tdiv_eq_sign`. -/
theorem divisionTruncatesOrFaultsAtExecute : Obligations.DivisionTruncatesOrFaultsAtExecute := by
  intro rd rs1 rs2 s l a b turn hl ha hb
  have answer : exec (.div rd rs1 rs2) s = .next (computeDiv rd s) := exec_execute _ turn
  rw [answer, computeDiv_of_captured rd hl ha hb]
  constructor
  · intro faults
    rw [if_pos ((divFaults_iff s.cfg a b).mpr faults)]
    rfl
  · intro nonzero noOverflow
    have divides : divFaults s.cfg a b = false := by
      rw [← Bool.not_eq_true, divFaults_iff]
      exact not_or.mpr ⟨nonzero, noOverflow⟩
    refine ⟨a.toInt.tdiv b.toInt, divWords s.cfg a b, tdiv_eq_sign _ _, rfl,
      fun positive atMost32 held => divWords_toInt positive atMost32 held divides, ?_⟩
    rw [divides, if_neg Bool.false_ne_true, finishResult_eq]

/-! ## The literal forms (R181, R183) -/

theorem computeRI_eq_finishResult {s : State} {l : Latch} {a : Word} (rd : Reg) (imm : Word)
    (f : Params → Word → Word → Word) (hl : s.el = some l) (ha : l.v1 = some a) :
    computeRI rd imm f s = s.finishResult l rd (f s.cfg a imm) := by
  rw [computeRI, State.inExecute_some hl, ha, State.reading_some]

/-- An instruction whose action at Execute is the computation `f` with the literal `imm` leaves the state of
`finishResult_eq` for the result `r` of `f`. -/
theorem exec_of_computeRI {i : Instr} {rd : Reg} {imm : Word} {f : Params → Word → Word → Word} {s : State} {l : Latch}
    {a r : Word} (hi : executeAction i = computeRI rd imm f) (hr : f s.cfg a imm = r) (turn : s.turn = .execute)
    (hl : s.el = some l) (ha : l.v1 = some a) :
    exec i s = .next { s with
      flags := flagsOfResult r
      pendF := s.pendFWith rd
      pendV := s.pendVWith rd r
      ml := some { l with res := some r }
      el := none } := by
  rw [exec_execute i turn, hi, computeRI_eq_finishResult rd imm f hl ha, hr, finishResult_eq]

/-- Settles O24. -/
theorem literalFormsComputeAtExecute : Obligations.LiteralFormsComputeAtExecute := by
  intro rd rs1 imm s l turn hl
  constructor
  · intro mk f a r hmem ha hr
    simp only [List.mem_cons, List.not_mem_nil, or_false, Prod.mk.injEq] at hmem
    obtain ⟨rfl, rfl⟩ | ⟨rfl, rfl⟩ := hmem
    · exact exec_of_computeRI rfl ((addWords_eq s.cfg a imm).trans hr.symm) turn hl ha
    · exact exec_of_computeRI rfl ((subWords_eq s.cfg a imm).trans hr.symm) turn hl ha
  · have answer : exec (.movc rd imm) s = .next (moveConstant rd imm s) := exec_execute _ turn
    rw [answer, moveConstant, State.inExecute_some hl, publish_eq]
    rfl

/-! ## Comparisons (R182) -/

/-- Settles O25. -/
theorem comparisonsSetOneFlagAtExecute : Obligations.ComparisonsSetOneFlagAtExecute := by
  intro rs1 rs2 imm s l a turn hl ha
  constructor
  · intro b hb
    have answer : exec (.cmp rs1 rs2) s = .next (compareRR s) := exec_execute _ turn
    rw [answer, compareRR, State.inExecute_some hl, ha, hb, State.reading_some, State.reading_some, flagsOfCompare_eq]
    rfl
  · have answer : exec (.cml rs1 imm) s = .next (compareRI imm s) := exec_execute _ turn
    rw [answer, compareRI, State.inExecute_some hl, ha, State.reading_some, flagsOfCompare_eq]
    rfl

/-! ## Addresses of loads and stores (R184, R185) -/

/-- Settles O26. -/
theorem loadsAndStoresComputeAddressesAtExecute : Obligations.LoadsAndStoresComputeAddressesAtExecute := by
  intro rd rs1 rs2 imm s l base ea up turn hl hea hup
  rw [← effectiveAddress_eq] at hea
  rw [← postIncrement_eq] at hup
  subst hea hup
  refine ⟨fun hb => ⟨?load, ?loadp⟩, fun hb => ⟨?store, ?storep⟩⟩
  case load =>
    have answer : exec (.load rd rs1 imm) s = .next (addressOfLoad imm s) := exec_execute _ turn
    rw [answer, addressOfLoad, State.inExecute_some hl, hb, State.reading_some]
    rfl
  case loadp =>
    have answer : exec (.loadp rd rs1 imm) s = .next (addressOfLoadP rs1 imm s) := exec_execute _ turn
    rw [answer, addressOfLoadP, State.inExecute_some hl, hb, State.reading_some, publish_eq]
    rfl
  case store =>
    have answer : exec (.store rs1 rs2 imm) s = .next (addressOfStore imm s) := exec_execute _ turn
    rw [answer, addressOfStore, State.inExecute_some hl, hb, State.reading_some]
    rfl
  case storep =>
    have answer : exec (.storep rs1 rs2 imm) s = .next (addressOfStoreP rs2 imm s) := exec_execute _ turn
    rw [answer, addressOfStoreP, State.inExecute_some hl, hb, State.reading_some, publish_eq]
    rfl

/-! ## Jumps (R186, R191, R195) -/

/-- A redirect moved on is the state that the statements name. -/
theorem redirect_sendToMemory (s : State) (t : Word) (l : Latch) : (s.redirect t).sendToMemory l = s.redirected t l := rfl

/-- Settles O27. -/
theorem jumpsRedirectAtExecute : Obligations.JumpsRedirectAtExecute := by
  intro rd rs1 imm s l a link turn hl ha hlink
  rw [← nextAddress_eq] at hlink
  rw [← jumpTarget_eq]
  subst hlink
  constructor
  · have answer : exec (.jump rs1 imm) s = .next (jumpTo imm s) := exec_execute _ turn
    rw [answer, jumpTo, State.inExecute_some hl, ha, State.reading_some, redirect_sendToMemory]
  · have answer : exec (.jalr rd rs1 imm) s = .next (jumpAndLink rd imm s) := exec_execute _ turn
    rw [answer, jumpAndLink, State.inExecute_some hl, ha, State.reading_some, publish_eq]
    rfl

/-! ## Branches (R190, R193, R194) -/

/-- `i` is a branch with the condition `cond` and the displacement `imm`: resolved statically under both policies, or trained
under `SS`. -/
structure BranchOn (cond : Flags → Bool) (imm : Word) (i : Instr) : Prop where
  isBranch : i.opClass = .branch
  action : (trainedAs i = none ∧ executeAction i = branchStatic cond imm) ∨
    ∃ op, trainedAs i = some op ∧ executeAction i = branchTrained op cond imm

/-- The six branches and their conditions (48_insn_control.md R300). -/
theorem branchOn_of_mem {mk : Word → Instr} {taken : Flags → Bool}
    (h : (mk, taken) ∈ [(Instr.bz, fun f => f.z), (Instr.bnz, fun f => !f.z), (Instr.bp, fun f => f.p),
      (Instr.bnp, fun f => !f.p), (Instr.bn, fun f => f.n), (Instr.bnn, fun f => !f.n)]) (imm : Word) :
    BranchOn taken imm (mk imm) := by
  simp only [List.mem_cons, List.not_mem_nil, or_false, Prod.mk.injEq] at h
  obtain ⟨rfl, rfl⟩ | ⟨rfl, rfl⟩ | ⟨rfl, rfl⟩ | ⟨rfl, rfl⟩ | ⟨rfl, rfl⟩ | ⟨rfl, rfl⟩ := h
  · exact ⟨rfl, .inr ⟨.bz, rfl, rfl⟩⟩
  · exact ⟨rfl, .inr ⟨.bnz, rfl, rfl⟩⟩
  · exact ⟨rfl, .inr ⟨.bp, rfl, rfl⟩⟩
  · exact ⟨rfl, .inr ⟨.bnp, rfl, rfl⟩⟩
  · exact ⟨rfl, .inl ⟨rfl, rfl⟩⟩
  · exact ⟨rfl, .inl ⟨rfl, rfl⟩⟩

section
variable {cond : Flags → Bool} {imm : Word} {i : Instr} {s : State} {l : Latch}

/-- A branch that is not trained, or any branch under `FB`, resolves statically (R190). -/
theorem BranchOn.executeAction_static (h : BranchOn cond imm i) (hl : s.el = some l)
    (notTrained : trainedAs i = none ∨ s.cfg.policy = .fb) :
    executeAction i s = (staticOutcome (cond s.flags) l imm s).sendToMemory l := by
  rcases h.action with ⟨-, action⟩ | ⟨op, mnemonic, action⟩
  · rw [action, branchStatic, State.inExecute_some hl]
  · have policy : s.cfg.policy = .fb := notTrained.resolve_left fun untrained => nomatch mnemonic.symm.trans untrained
    rw [action, branchTrained, State.inExecute_some hl, policy]

/-- A trained branch under `SS` (R190, R193). -/
theorem BranchOn.executeAction_trained {op : Trained} (h : BranchOn cond imm i) (hl : s.el = some l)
    (mnemonic : trainedAs i = some op) (policy : s.cfg.policy = .ss) :
    executeAction i s = (trainedOutcome op (cond s.flags) l imm s).sendToMemory l := by
  rcases h.action with ⟨untrained, -⟩ | ⟨op', mnemonic', action⟩
  · exact nomatch mnemonic.symm.trans untrained
  · obtain rfl : op = op' := Option.some.inj (mnemonic.symm.trans mnemonic')
    rw [action, branchTrained, State.inExecute_some hl, policy]

end

theorem staticOutcome_taken (l : Latch) (imm : Word) (s : State) :
    staticOutcome true l imm s = s.redirect (s.cfg.fit (l.pc + imm)) := by
  rw [staticOutcome, if_pos rfl, branchTarget_eq]

theorem staticOutcome_not_taken (l : Latch) (imm : Word) (s : State) : staticOutcome false l imm s = s := by
  rw [staticOutcome, if_neg Bool.false_ne_true]

/-- Settles O28: the six are branches in the sense of `BranchOn`, and where they resolve statically the two outcomes are those
of `staticOutcome`. -/
theorem staticBranchesRedirectWhenTaken : Obligations.StaticBranchesRedirectWhenTaken := by
  intro mk taken always hmem imm s l turn hl unpredicted
  obtain ⟨branch, untrained⟩ : BranchOn taken imm (mk imm) ∧ (always = true → trainedAs (mk imm) = none) := by
    simp only [List.mem_cons, List.not_mem_nil, or_false, Prod.mk.injEq] at hmem
    obtain ⟨rfl, rfl, rfl⟩ | ⟨rfl, rfl, rfl⟩ | ⟨rfl, rfl, rfl⟩ | ⟨rfl, rfl, rfl⟩ | ⟨rfl, rfl, rfl⟩ | ⟨rfl, rfl, rfl⟩ := hmem
    · exact ⟨branchOn_of_mem (by simp) imm, fun _ => rfl⟩
    · exact ⟨branchOn_of_mem (by simp) imm, fun _ => rfl⟩
    · exact ⟨branchOn_of_mem (by simp) imm, nofun⟩
    · exact ⟨branchOn_of_mem (by simp) imm, nofun⟩
    · exact ⟨branchOn_of_mem (by simp) imm, nofun⟩
    · exact ⟨branchOn_of_mem (by simp) imm, nofun⟩
  rw [exec_execute _ turn, branch.executeAction_static hl (unpredicted.imp_left untrained)]
  constructor
  · intro holds
    rw [holds, staticOutcome_taken, redirect_sendToMemory]
  · intro fails
    rw [fails, staticOutcome_not_taken]
    rfl

/-! ## Passing a stage (R189, 44_memory_writeback.md R210, R214) -/

theorem memoryAction_of_no_access {i : Instr} (h : accessesMemory i = false) : memoryAction i = passMemory := by
  cases i with
  | load | loadp | store | storep => exact nomatch h
  | _ => rfl

theorem exec_memory_of_no_access {i : Instr} {s : State} {l : Latch} (h : accessesMemory i = false)
    (turn : s.turn = .memory) (hl : s.ml = some l) : exec i s = .next { s with wl := some l, ml := none } := by
  rw [exec_memory i turn, memoryAction_of_no_access h, passMemory, State.inMemoryStage_some hl]
  rfl

/-- Settles O30. -/
theorem otherInstructionsPassUnchanged : Obligations.OtherInstructionsPassUnchanged := by
  intro s l
  refine ⟨fun turn hl => ?_, fun i noAccess turn hl => exec_memory_of_no_access noAccess turn hl⟩
  have passes : passExecute s = { s with ml := some l, el := none } := State.inExecute_some hl _
  have nop : exec .nop s = .next (passExecute s) := exec_execute _ turn
  have halt : exec .halt s = .next (passExecute s) := exec_execute _ turn
  rw [nop, halt, passes]
  exact ⟨rfl, rfl⟩

end Sys2Proof.Machine
end

section
/-! PROOFS. The tick of a redirect (43_execute_redirect.md R195 to R197): Decode is flushed, Fetch loads nothing. -/

namespace Sys2Proof.Machine

/-- An instruction that asks for the bubble at Execute was executed and redirected. -/
theorem exec_redirects {i : Instr} {s u : State} {l : Latch} (turn : s.turn = .execute) (hl : s.el = some l)
    (answer : exec i s = .next u) (before : s.redirectPending = false) (after : u.redirectPending = true) :
    ∃ l', Executed i l l' s u ∧ FrontRedirected u ∧ u.flags = s.flags := by
  rw [exec_execute i turn] at answer
  obtain rfl := Host.Outcome.next.inj answer
  cases executeAction_outcome i hl with
  | uncaptured _ faults => rw [faults] at after; exact nomatch before.symm.trans after
  | divides faults => rw [faults] at after; exact nomatch before.symm.trans after
  | executed l' e =>
    rcases e.front with kept | ⟨redirected, -, flags⟩
    · exact nomatch (kept.redirectPending.trans before).symm.trans after
    · exact ⟨l', e, redirected, flags⟩

/-- A tick whose Execute redirects ends in what Execute left, the bubble consumed. -/
theorem step_of_redirect {s u1 u2 u : State} (running : s.terminal = false)
    (writeback : Performs .writeback s.wl { s with committed := none } u1) (live1 : u1.terminal = false)
    (memory : Performs .memory u1.ml u1 u2) (live2 : u2.terminal = false) (execute : Performs .execute u2.el u2 u)
    (live : u.terminal = false) (redirected : FrontRedirected u) :
    step s = .next { u with redirectPending := false, clock := u.clock + 1, turn := .fetch } := by
  rw [step_of_performs running writeback live1 memory live2 execute live (.inl ⟨redirected.dl, rfl⟩) live,
    fetchState_of_pending redirected.redirectPending]
  rfl

/-- Execute changes the pending entry of no register that the instruction does not publish (R188). -/
theorem Executed.unpublished {i : Instr} {l l' : Latch} {s t : State} (e : Executed i l l' s t) (ho : l.op = .instr i) {r : Reg}
    (hr : r ∉ writesAtExecute i) : t.isPending r = s.isPending r ∧ t.pendingValue r = s.pendingValue r := by
  obtain ⟨flag, value, -⟩ := executed_pending e ho r
  exact ⟨by rw [Bool.eq_iff_iff, flag, or_iff_right fun published => hr published.2], value hr⟩

/-- Only a trained branch under `SS` trains (R190, R193). -/
theorem Trains.samePredictor {i : Instr} {p : Word} {s t : State} (h : Trains i p s t)
    (notTrained : s.cfg.policy = .fb ∨ trainedAs i = none) : samePredictor s t := by
  rcases notTrained with policy | untrained
  · exact h.untouched_fb policy
  · cases h with
    | untouched same => exact same
    | taken _ _ trained | allocated _ trained | notTaken _ _ trained => rw [untrained] at trained; exact nomatch trained

/-- Settles O50: `step_of_redirect`, and the frame is that of an executed instruction. -/
theorem aRedirectCostsOneBubbleAndDiscardsDecode : Obligations.ARedirectCostsOneBubbleAndDiscardsDecode := by
  intro s u1 u2 u l i running idle writeback live1 memory live2 hl ho answer redirects _
  have kept1 : WritebackKeeps { s with committed := none } u1 :=
    writebackState_of_performs (s := { s with committed := none }) writeback ▸ writebackState_keeps _
  have kept2 : MemoryKeeps u1 u2 := memoryState_of_performs memory ▸ memoryState_keeps u1
  have before : u2.redirectPending = false := kept2.redirectPending.trans (kept1.redirectPending.trans idle)
  obtain ⟨l', e, front, flags⟩ := exec_redirects (s := u2.at .execute) rfl hl answer before redirects
  have live : u.terminal = false := (State.terminal_congr e.keeps.halted e.fault).trans live2
  have clock : u.clock = s.clock := e.keeps.clock.trans (kept2.clock.trans kept1.clock)
  have fl : u.fl = s.fl := e.keeps.fl.trans (kept2.fl.trans kept1.fl)
  refine ⟨?_, front.dl, e.el, fl, front.flHeld, front.fetchEn, e.keeps.wl, e.keeps.x, e.keeps.dmem, flags, e.keeps.busy,
    fun r hr => e.unpublished ho hr, fun untrained => e.predictor.samePredictor (.inr untrained)⟩
  rw [step_of_redirect running writeback live1 memory live2 (.inr ⟨l, i, hl, ho, answer⟩) live front, clock]

end Sys2Proof.Machine
end

section
/-! PROOFS. The first tick of an instruction alone in the pipeline (40_scheduler.md R111; 42_decode_hazard.md R163, R164). -/

namespace Sys2Proof.Machine

/-! ## Decode without a hazard -/

section
variable {s : State} {pc : Word} {i : Instr}

theorem State.predictorAfterDecode_of_absent {op : Trained} (policy : s.cfg.policy = .ss) (trained : trainedAs i = some op)
    (absent : s.btbFind pc = none) :
    s.predictorAfterDecode pc i = ((s.btbAlloc pc).btb, (s.btbAlloc pc).btbHead) :=
  if_pos ⟨policy, congrArg Option.isSome trained, absent⟩

theorem State.predictorAfterDecode_of_present (present : s.cfg.policy = .fb ∨ s.btbFind pc ≠ none) :
    s.predictorAfterDecode pc i = (s.btb, s.btbHead) := by
  refine if_neg fun ⟨policy, _, absent⟩ => ?_
  rcases present with fb | found
  · exact nomatch policy.symm.trans fb
  · exact found absent

theorem State.predictorAfterDecode_of_untrained (untrained : trainedAs i = none) :
    s.predictorAfterDecode pc i = (s.btb, s.btbHead) :=
  if_neg fun ⟨_, trained, _⟩ => nomatch (congrArg Option.isSome untrained).symm.trans trained

end

/-- `busy` once the registers of a list are marked (R163). -/
def State.busyWith (s : State) (ws : List Reg) : Vector Bool 16 := ws.foldl (fun busy r => busy.set r.val true) s.busy

theorem State.markAll_busyWith (s : State) (ws : List Reg) : s.markAll ws = { s with busy := s.busyWith ws } := by
  induction ws generalizing s with
  | nil => rfl
  | cons w rest ih => exact ih (s.markBusy w)

theorem RegisterSets.writes_eq_nil {i : Instr} {v1 v2 : Option Reg} (row : RegisterSets i v1 v2 [] []) : writes i = [] := by
  rw [writes, row.atExecute, row.atMemory, List.append_nil]

/-- What Decode leaves of any instruction that meets no hazard (R153, R163, R164, R166). -/
theorem decodeAction_admits {i : Instr} {l : Latch} {s : State} (hl : s.dl = some l) (noHazard : s.stalls i = false) :
    decodeAction i s = { s with
      el := some { l with v1 := (operand1 i).map s.opnd, v2 := (operand2 i).map s.opnd }
      dl := none
      dlStall := false
      busy := s.busyWith (writes i)
      btb := (s.predictorAfterDecode l.pc i).1
      btbHead := (s.predictorAfterDecode l.pc i).2 } := by
  cases ht : trainedAs i with
  | none =>
    rw [decodeAction_of_untrained ht, decodeStage_admits hl noHazard, State.markAll_busyWith,
      State.predictorAfterDecode_of_untrained ht]
  | some op =>
    have row := registerSets_of_trained ht
    rw [decodeAction_of_trained ht, decodeTrained, row.operand1, row.operand2, row.writes_eq_nil]
    by_cases present : s.cfg.policy = .fb ∨ s.btbFind l.pc ≠ none
    · rw [allocateIfMissing_of_present hl present, decodeStage_of_no_registers row hl,
        State.predictorAfterDecode_of_present present]
      rfl
    · obtain ⟨notFb, absent⟩ : s.cfg.policy ≠ .fb ∧ s.btbFind l.pc = none := by simpa using present
      have policy : s.cfg.policy = .ss := by cases hp : s.cfg.policy with | ss => rfl | fb => exact absurd hp notFb
      rw [allocateIfMissing_of_absent hl policy absent, decodeStage_of_no_registers (s := s.btbAlloc l.pc) row hl,
        State.predictorAfterDecode_of_absent policy ht absent]
      rfl

/-! ## Decode of the instruction and the fetch of the HALT behind -/

/-- The latch of an instruction alone in the pipeline once it has passed Decode: no register is pending, so its operands are the
committed ones (R160, R164). -/
def State.captured (s : State) (pc : Word) (i : Instr) : Latch :=
  { Latch.fresh pc (.instr i) with v1 := (operand1 i).map s.reg, v2 := (operand2 i).map s.reg }

/-- What the first tick leaves of an instruction that was alone in Decode: it is in `EL`, and behind it is the HALT that was
fetched, if any (`AloneInDecode.step_eq`). -/
def State.aloneInExecute (s : State) (pc : Word) (i : Instr) : State :=
  { s with
    pc := s.pcBehind
    fl := if s.fetchEn = true then s.haltBehind else s.fl
    flHeld := false
    fetchEn := false
    dl := s.haltBehind
    dlStall := false
    el := some (s.captured pc i)
    busy := s.busyWith (writes i)
    btb := (s.predictorAfterDecode pc i).1
    btbHead := (s.predictorAfterDecode pc i).2
    clock := s.clock + 1
    committed := none
    turn := .fetch }

section
variable {s : State} {pc : Word} {i : Instr}

theorem AloneInDecode.noHazard (h : AloneInDecode s pc i) : s.stalls i = false :=
  (State.stalls_eq_false_iff s i).mpr ⟨fun r _ => h.nothingBusy r, fun r _ => .inl (h.nothingBusy r)⟩

theorem AloneInDecode.opnd_eq (h : AloneInDecode s pc i) : s.opnd = s.reg := by
  funext r
  rw [State.opnd_eq, if_neg fun pending => Bool.false_ne_true ((h.nothingPending r).symm.trans pending.2)]

/-- Fetch at the end of the first tick loads a HALT or nothing (R134, R137). -/
theorem fetchState_of_haltBehind {s : State} (pending : s.redirectPending = false) (held : s.flHeld = false)
    (empty : s.dl = none) (stall : s.dlStall = false) (behind : s.fetchEn = false ∨ s.ifetch s.pc = .instr .halt) :
    (fetchState s).endTick = { s with
      fl := if s.fetchEn = true then s.haltBehind else s.fl
      pc := s.pcBehind
      dl := s.haltBehind
      fetchEn := false
      clock := s.clock + 1
      turn := .fetch } := by
  cases enabled : s.fetchEn with
  | false =>
    have same : s.haltBehind = s.dl ∧ s.pcBehind = s.pc := by simp [State.haltBehind, State.pcBehind, enabled, empty]
    rw [fetchState_of_disabled pending held enabled, same.1, same.2, if_neg Bool.false_ne_true, ← enabled]
    rfl
  | true =>
    have here := behind.resolve_left fun disabled => nomatch enabled.symm.trans disabled
    rw [fetchState_of_ifetch pending held enabled here, fetchAction_of_untrained rfl,
      fetchWith_loads (s := s.at .fetch) _ _ _ held empty (by simp), sequentialPc_eq]
    simp [State.forwarded, State.haltBehind, State.pcBehind, enabled, held, stall, Latch.fresh, State.endTick, State.at]

theorem AloneInDecode.step_eq (h : AloneInDecode s pc i) : step s = .next (s.aloneInExecute pc i) := by
  have decodes : exec i { s with committed := none, turn := .decode } = .next _ :=
    (exec_decode i rfl).trans (congrArg _ (decodeAction_admits h.inDecode h.noHazard))
  have captured : State.opnd { s with committed := none, turn := .decode } = s.reg := h.opnd_eq
  rw [captured] at decodes
  refine (step_of_performs h.running (.inl ⟨h.writebackEmpty, rfl⟩) h.running (.inl ⟨h.memoryEmpty, rfl⟩) h.running
    (.inl ⟨h.executeEmpty, rfl⟩) h.running (.inr ⟨_, i, h.inDecode, rfl, decodes⟩) h.running).trans (congrArg _ ?_)
  obtain ⟨held, pending⟩ := h.fetchIdle
  rw [fetchState_of_haltBehind (by exact pending) (by exact held) rfl rfl (by exact h.nothingBehind)]
  simp only [State.aloneInExecute, held]
  rfl

end

end Sys2Proof.Machine
end

section
/-! PROOFS. An instruction that was alone in the pipeline and redirects continues at its target after one bubble
(43_execute_redirect.md R195 to R197), and so do JUMP and JALR (48_insn_control.md R307, R308). -/

namespace Sys2Proof.Machine

/-- Fetch with nothing held and an empty `DL` loads from the pc (R134). -/
theorem fetchState_dl_of_enabled {s : State} (pending : s.redirectPending = false) (held : s.flHeld = false)
    (enabled : s.fetchEn = true) (empty : s.dl = none) : (fetchState s).dl = some (Latch.fresh s.pc (s.ifetch s.pc)) := by
  obtain ⟨next, loads⟩ := fetchOpState_eq (s.ifetch s.pc) s
  have fetched : fetchState s = fetchOpState (s.ifetch s.pc) s := by simp [fetchState, pending, held, enabled]
  rw [fetched, loads, fetchWith_loads (s := s.at .fetch) _ _ _ held empty rfl]
  rfl

/-- A tick on an engine whose one instruction is passing Memory fetches from the pc. -/
theorem step_fetches {s : State} {l : Latch} {i : Instr} (running : s.terminal = false) (wl : s.wl = none)
    (ml : s.ml = some l) (ho : l.op = .instr i) (noAccess : accessesMemory i = false) (el : s.el = none) (dl : s.dl = none)
    (pending : s.redirectPending = false) (held : s.flHeld = false) (enabled : s.fetchEn = true) :
    ∃ t, step s = .next t ∧ t.dl = some (Latch.fresh s.pc (s.ifetch s.pc)) := by
  have passes : exec i { s with committed := none, turn := .memory } = .next _ := exec_memory_of_no_access noAccess rfl ml
  refine ⟨_, step_of_performs running (.inl ⟨wl, rfl⟩) running (.inr ⟨l, i, ml, ho, passes⟩) running (.inl ⟨el, rfl⟩) running
    (.inl ⟨dl, rfl⟩) running, ?_⟩
  exact fetchState_dl_of_enabled (by exact pending) (by exact held) (by exact enabled) (by exact dl)

/-- A redirecting tick with no instruction ahead in `ML` or `WL`. -/
theorem step_of_redirect_ahead_empty {s u : State} {l : Latch} {i : Instr} (running : s.terminal = false) (wl : s.wl = none)
    (ml : s.ml = none) (hl : s.el = some l) (ho : l.op = .instr i)
    (answer : exec i { s with committed := none, turn := .execute } = .next u) (live : u.terminal = false)
    (redirected : FrontRedirected u) :
    step s = .next { u with redirectPending := false, clock := u.clock + 1, turn := .fetch } :=
  step_of_redirect running (.inl ⟨wl, rfl⟩) running (.inl ⟨ml, rfl⟩) running (.inr ⟨l, i, hl, ho, answer⟩) live redirected

/-- From `s`, the ticks that end in `t1`, `t` and `v`: the second redirects to `goal` and fetches nothing, the third fetches
from there. -/
structure ContinuesAt (s t1 t v : State) (goal : Word) : Prop where
  first : Sys2Proof.core.run 1 s = .next t1
  second : Sys2Proof.core.run 2 s = .next t
  pc : t.pc = goal
  dl : t.dl = none
  fl : t.fl = t1.fl
  flHeld : t.flHeld = false
  fetchEn : t.fetchEn = true
  redirectPending : t.redirectPending = false
  el : t.el = none
  wl : t.wl = none
  clock : t.clock = s.clock + 2
  architecture : sameArchitecture s t
  third : Sys2Proof.core.run 3 s = .next v
  fetched : v.dl = some (Latch.fresh goal (s.ifetch goal))

/-- The state after the tick in which an instruction that was alone redirected: what Execute left, the bubble consumed. -/
def State.afterBubble (s u : State) : State :=
  { u with redirectPending := false, clock := s.clock + 2, turn := .fetch }

/-- A run whose first ticks are known. -/
theorem core_run_of_step {s t : State} (h : step s = .next t) (k : Nat) :
    Sys2Proof.core.run (k + 1) s = Sys2Proof.core.run k t := by
  rw [core_run_succ, ← step_next h]

section
variable {s u : State} {pc : Word} {i : Instr}

/-- An instruction that was alone and redirects at Execute. -/
theorem AloneInDecode.continuesAt (h : AloneInDecode s pc i) (noAccess : accessesMemory i = false)
    (answer : exec i ((s.aloneInExecute pc i).at .execute) = .next u) (redirects : u.redirectPending = true) :
    (∃ v, ContinuesAt s (s.aloneInExecute pc i) (s.afterBubble u) v u.pc) ∧
      ∃ l', Executed i (s.captured pc i) l' ((s.aloneInExecute pc i).at .execute) u := by
  obtain ⟨l', e, front, flags⟩ := exec_redirects rfl rfl answer h.fetchIdle.2 redirects
  have live : u.terminal = false := (State.terminal_congr e.keeps.halted e.fault).trans h.running
  have wl : u.wl = none := e.keeps.wl.trans h.writebackEmpty
  have tick2 : step (s.aloneInExecute pc i) = .next (s.afterBubble u) := by
    rw [step_of_redirect_ahead_empty (s := s.aloneInExecute pc i) h.running h.writebackEmpty h.memoryEmpty rfl rfl answer live
      front, e.keeps.clock]
    rfl
  obtain ⟨v, tick3, fetched⟩ := step_fetches (s := s.afterBubble u) live wl e.ml e.record.2.1 noAccess e.el front.dl rfl
    front.flHeld front.fetchEn
  have sameProgram : u.ifetch u.pc = s.ifetch u.pc := by simp only [State.ifetch, e.keeps.cfg, e.keeps.imem]; rfl
  exact ⟨⟨v, {
    first := by rw [core_run_of_step h.step_eq]; rfl
    second := by rw [core_run_of_step h.step_eq, core_run_of_step tick2]; rfl
    third := by rw [core_run_of_step h.step_eq, core_run_of_step tick2, core_run_of_step tick3]; rfl
    pc := rfl
    dl := front.dl
    fl := e.keeps.fl
    flHeld := front.flHeld
    fetchEn := front.fetchEn
    redirectPending := rfl
    el := e.el
    wl := wl
    clock := rfl
    architecture := ⟨e.keeps.x, flags, e.keeps.dmem, e.keeps.insnCompleted, e.keeps.halted, e.fault⟩
    fetched := fetched.trans (congrArg (fun op => some (Latch.fresh u.pc op)) sameProgram) }⟩, l', e⟩

/-- An instruction that writes no register leaves the hazard tables alone. -/
theorem Executed.sameHazards_afterBubble {l l' : Latch} (e : Executed i l l' ((s.aloneInExecute pc i).at .execute) u)
    (noWrites : writes i = []) : sameHazards s (s.afterBubble u) := by
  have busy : u.busy = s.busyWith (writes i) := e.keeps.busy
  rw [noWrites] at busy
  rcases e.pending with ⟨-, pendF, pendV⟩ | ⟨r, _, published, -⟩
  · exact ⟨busy, pendF, pendV⟩
  · exact absurd (mem_writes_iff.mpr (.inl (published ▸ List.mem_singleton_self r))) (by simp [noWrites])

/-- Where neither Decode nor Execute uses the predictor, it is as it was (R153, R190). -/
theorem Executed.samePredictor_afterBubble {l' : Latch}
    (e : Executed i (s.captured pc i) l' ((s.aloneInExecute pc i).at .execute) u)
    (notTrained : s.cfg.policy = .fb ∨ trainedAs i = none) : samePredictor s (s.afterBubble u) := by
  obtain ⟨btb, btbHead⟩ := e.predictor.samePredictor notTrained
  have kept : s.predictorAfterDecode pc i = (s.btb, s.btbHead) := by
    rcases notTrained with policy | untrained
    · exact State.predictorAfterDecode_of_present (.inl policy)
    · exact State.predictorAfterDecode_of_untrained untrained
  exact ⟨btb.trans (congrArg Prod.fst kept), btbHead.trans (congrArg Prod.snd kept)⟩

end

/-- Settles O40: what JUMP and JALR leave at Execute is `jumpsRedirectAtExecute`, and the rest is the tick of a redirect. -/
theorem jumpsContinueAtTheirTargetAfterOneBubble : Obligations.JumpsContinueAtTheirTargetAfterOneBubble := by
  intro rd rs1 imm s pc target link i jumps h htarget hlink
  have atExecute (captured : (s.captured pc i).v1 = some (s.reg rs1)) :=
    jumpsRedirectAtExecute rd rs1 imm ((s.aloneInExecute pc i).at .execute) (s.captured pc i) (s.reg rs1) link rfl rfl
      captured hlink
  obtain ⟨u, answer, hpc, redirects, untrained, noAccess, linked⟩ : ∃ u,
      exec i ((s.aloneInExecute pc i).at .execute) = .next u ∧ u.pc = target ∧ u.redirectPending = true ∧
      trainedAs i = none ∧ accessesMemory i = false ∧ (i = .jalr rd rs1 imm → u.busy = s.busy.set rd.val true ∧
        u.pendF = s.pendFWith rd ∧ u.pendV = s.pendVWith rd link ∧ ∃ l, u.ml = some l ∧ l.commitValue rd = some link) := by
    rcases jumps with rfl | rfl
    · exact ⟨_, (atExecute rfl).1, htarget.symm, rfl, rfl, rfl, nofun⟩
    · exact ⟨_, (atExecute rfl).2, htarget.symm, rfl, rfl, rfl, fun _ => ⟨rfl, rfl, rfl, _, rfl,
        commitValue_res rfl rfl (by simp [writes, writesAtExecute, writesAtMemory])⟩⟩
  obtain ⟨⟨v, c⟩, l', e⟩ := h.continuesAt noAccess answer redirects
  subst hpc
  exact ⟨_, _, v, c.first, c.second, c.pc, c.dl, c.fl, c.flHeld, c.fetchEn, c.redirectPending, c.el, c.wl, c.clock,
    c.architecture, e.samePredictor_afterBubble (.inr untrained), fun jump => e.sameHazards_afterBubble (jump ▸ rfl), linked,
    c.third, c.fetched⟩

end Sys2Proof.Machine
end

section
/-! PROOFS. Where a branch redirects (43_execute_redirect.md R193, R194): the prediction that Execute checks, and its three
outcomes. -/

namespace Sys2Proof.Machine

/-! ## The prediction that Execute checks (R193, 45_branch_predictor.md R234) -/

section
variable {s t : State} {p : Word} {op : Trained} {k : Nat}

theorem State.prediction_congr (cfg : t.cfg = s.cfg) (btb : t.btb = s.btb) : t.prediction p op = s.prediction p op := by
  have find : t.btbFind p = s.btbFind p := by simp only [State.btbFind, btb]
  have entry : t.btbEntry = s.btbEntry := by funext k; simp only [State.btbEntry, btb]
  simp only [State.prediction, find, entry, cfg]

/-- The entry that a lookup finds is listed in the table. -/
theorem getElem?_of_btbFind (found : s.btbFind p = some k) : s.btb[k]? = some (s.btbEntry k) := by
  simp [State.btbEntry, (btbFind_some found).1]

theorem State.prediction_isSome_iff : (s.prediction p op).isSome = true ↔
    ∃ k, s.btbFind p = some k ∧ (s.btbEntry k).predictsTaken (s.cfg.takenMin op) = true := by
  cases found : s.btbFind p with
  | none => simp [State.prediction_of_absent op found]
  | some k => simp [State.prediction, found]

/-- The same in terms of the table's entries. -/
theorem State.prediction_isSome_iff_entry : (s.prediction p op).isSome = true ↔ ∃ k e, s.btbFind p = some k ∧
    s.btb[k]? = some e ∧ e.resolved = true ∧ s.cfg.takenMin op ≤ e.ctr.toNat := by
  simp only [State.prediction_isSome_iff, BtbEntry.predictsTaken, Bool.and_eq_true, decide_eq_true_eq]
  constructor
  · rintro ⟨k, found, predicts⟩
    exact ⟨k, _, found, getElem?_of_btbFind found, predicts⟩
  · rintro ⟨k, e, found, entry, predicts⟩
    rw [← State.btbEntry_of_getElem? entry] at predicts
    exact ⟨k, found, predicts⟩

/-- An entry just allocated is not resolved, so it predicts nothing (45_branch_predictor.md R232). -/
theorem State.prediction_btbAlloc (absent : s.btbFind p = none) : (s.btbAlloc p).prediction p op = none := by
  refine Option.not_isSome_iff_eq_none.mp fun predicted => ?_
  obtain ⟨k, e, found, entry, resolved, -⟩ := State.prediction_isSome_iff_entry.mp predicted
  obtain ⟨-, valid, tag⟩ := btbFind_some found
  rw [State.btbEntry_of_getElem? entry] at valid tag
  rcases List.mem_or_eq_of_mem_set (List.mem_of_getElem? entry) with old | new
  · exact btbFind_none absent old valid tag
  · rw [new] at resolved; exact nomatch resolved

/-- Decode of a branch does not change what the predictor says of it: at most it gives it an unresolved entry (R153). -/
theorem State.prediction_aloneInExecute {i : Instr} (policy : s.cfg.policy = .ss) (trained : trainedAs i = some op) :
    (s.aloneInExecute p i).prediction p op = s.prediction p op := by
  by_cases absent : s.btbFind p = none
  · have table : (s.aloneInExecute p i).btb = (s.btbAlloc p).btb :=
      congrArg Prod.fst (State.predictorAfterDecode_of_absent policy trained absent)
    have same : (s.aloneInExecute p i).prediction p op = (s.btbAlloc p).prediction p op := State.prediction_congr rfl table
    rw [same, State.prediction_btbAlloc absent, State.prediction_of_absent op absent]
  · exact State.prediction_congr rfl (congrArg Prod.fst (State.predictorAfterDecode_of_present (.inr absent)))

/-! ## Where a branch redirects (R193, R194) -/

variable {l : Latch} {imm : Word}

theorem trainedOutcome_taken : ∃ u : State, trainedOutcome op true l imm s = u.redirect (s.cfg.fit (l.pc + imm)) := by
  rw [← branchTarget_eq]
  exact ⟨_, if_pos rfl⟩

/-- A branch not taken that was predicted taken trains down and goes on behind itself. -/
theorem trainedOutcome_of_predicted (predicted : (s.prediction l.pc op).isSome = true) :
    ∃ u : State, trainedOutcome op false l imm s = u.redirect (s.cfg.fit (l.pc + s.cfg.strideWord)) := by
  obtain ⟨k, found, predicts⟩ := State.prediction_isSome_iff.mp predicted
  exact ⟨s.trainNotTaken k, by simp [trainedOutcome, found, predicts, nextAddress_eq]⟩

/-- A branch neither taken nor predicted taken does nothing. -/
theorem trainedOutcome_of_unpredicted (unpredicted : ¬ (s.prediction l.pc op).isSome = true) :
    trainedOutcome op false l imm s = s := by
  cases found : s.btbFind l.pc with
  | none => simp [trainedOutcome, found]
  | some k =>
    have passes : ¬ (s.btbEntry k).predictsTaken (s.cfg.takenMin op) = true := fun predicts =>
      unpredicted (State.prediction_isSome_iff.mpr ⟨k, found, predicts⟩)
    simp [trainedOutcome, found, passes]

variable {cond : Flags → Bool} {i : Instr}

/-- The predictor of the policy in force says that the branch `i` at `p` is taken (45_branch_predictor.md R234). -/
def PredictedTaken (s : State) (p : Word) (i : Instr) : Prop :=
  ∃ op, s.cfg.policy = .ss ∧ trainedAs i = some op ∧ (s.prediction p op).isSome = true

/-- Under `FB` every branch is resolved statically, and under `SS` those that are not trained (R190). -/
theorem static_or_trained (s : State) (i : Instr) : (trainedAs i = none ∨ s.cfg.policy = .fb) ∨
    ∃ op, s.cfg.policy = .ss ∧ trainedAs i = some op := by
  cases mnemonic : trainedAs i with
  | none => exact .inl (.inl rfl)
  | some op =>
    cases policy : s.cfg.policy with
    | fb => exact .inl (.inr rfl)
    | ss => exact .inr ⟨op, rfl, rfl⟩

/-- A branch that is taken redirects to its target, trained or not (R193, R194, 48_insn_control.md R311). -/
theorem BranchOn.redirects_of_taken (h : BranchOn cond imm i) (hl : s.el = some l) (taken : cond s.flags = true) :
    ∃ u : State, executeAction i s = (u.redirect (s.cfg.fit (l.pc + imm))).sendToMemory l := by
  rcases static_or_trained s i with notTrained | ⟨op, policy, mnemonic⟩
  · exact ⟨s, by rw [h.executeAction_static hl notTrained, taken, staticOutcome_taken]⟩
  · obtain ⟨u, outcome⟩ := trainedOutcome_taken (s := s) (op := op) (l := l) (imm := imm)
    exact ⟨u, by rw [h.executeAction_trained hl mnemonic policy, taken, outcome]⟩

/-- A branch that is not taken but was predicted taken goes on behind itself (R193). -/
theorem BranchOn.redirects_of_mispredicted (h : BranchOn cond imm i) (hl : s.el = some l) (fails : cond s.flags = false)
    (predicted : PredictedTaken s l.pc i) :
    ∃ u : State, executeAction i s = (u.redirect (s.cfg.fit (l.pc + s.cfg.strideWord))).sendToMemory l := by
  obtain ⟨op, policy, mnemonic, some⟩ := predicted
  obtain ⟨u, outcome⟩ := trainedOutcome_of_predicted (imm := imm) some
  exact ⟨u, by rw [h.executeAction_trained hl mnemonic policy, fails, outcome]⟩

/-- A branch neither taken nor predicted taken only moves on (R193, R194). -/
theorem BranchOn.passes (h : BranchOn cond imm i) (hl : s.el = some l) (fails : cond s.flags = false)
    (unpredicted : ¬ PredictedTaken s l.pc i) : executeAction i s = s.sendToMemory l := by
  rcases static_or_trained s i with notTrained | ⟨op, policy, mnemonic⟩
  · rw [h.executeAction_static hl notTrained, fails, staticOutcome_not_taken]
  · rw [h.executeAction_trained hl mnemonic policy, fails,
      trainedOutcome_of_unpredicted fun some => unpredicted ⟨op, policy, mnemonic, some⟩]

end

end Sys2Proof.Machine
end

section
/-! PROOFS. The later ticks of an instruction that was alone in the pipeline and does not redirect, with nothing but a HALT behind
it, and what the four ticks leave. -/

namespace Sys2Proof.Machine

/-! ## The HALT behind (41_fetch.md R137, 48_insn_control.md R310) -/

/-- A latch that holds nothing, or a HALT just fetched. -/
def HaltOrEmpty (o : Option Latch) : Prop := o = none ∨ ∃ pc, o = some (Latch.fresh pc (.instr .halt))

theorem State.haltBehind_haltOrEmpty (s : State) : HaltOrEmpty s.haltBehind := by
  unfold State.haltBehind
  split
  · exact .inr ⟨_, rfl⟩
  · exact .inl rfl

section
variable {s : State}

/-- Decode moves a HALT on, or does nothing. -/
theorem performs_decode_of_haltOrEmpty (behind : HaltOrEmpty s.dl) (el : s.el = none) (stall : s.dlStall = false) :
    ∃ turn, Performs .decode s.dl s { s with el := s.dl, dl := none, turn := turn } := by
  rcases behind with empty | ⟨pc, halt⟩
  · exact ⟨s.turn, .inl ⟨empty, by rw [← el.trans empty.symm, ← empty]⟩⟩
  · refine ⟨.decode, .inr ⟨_, .halt, halt, rfl, ?_⟩⟩
    rw [exec_decode _ rfl, decodeAction_of_untrained rfl,
      decodeStage_of_no_registers (s := { s with turn := .decode }) ⟨rfl, rfl, rfl, rfl⟩ halt, halt, ← stall]
    rfl

/-- Execute moves a HALT on, or does nothing. -/
theorem performs_execute_of_haltOrEmpty (behind : HaltOrEmpty s.el) (ml : s.ml = none) :
    ∃ turn, Performs .execute s.el s { s with ml := s.el, el := none, turn := turn } := by
  rcases behind with empty | ⟨pc, halt⟩
  · exact ⟨s.turn, .inl ⟨empty, by rw [← ml.trans empty.symm, ← empty]⟩⟩
  · refine ⟨.execute, .inr ⟨_, .halt, halt, rfl, ?_⟩⟩
    rw [((otherInstructionsPassUnchanged { s with turn := .execute } _).1 rfl halt).2, halt]

/-- Memory moves a HALT on, or does nothing. -/
theorem performs_memory_of_haltOrEmpty (behind : HaltOrEmpty s.ml) (wl : s.wl = none) :
    ∃ turn, Performs .memory s.ml s { s with wl := s.ml, ml := none, turn := turn } := by
  rcases behind with empty | ⟨pc, halt⟩
  · exact ⟨s.turn, .inl ⟨empty, by rw [← wl.trans empty.symm, ← empty]⟩⟩
  · refine ⟨.memory, .inr ⟨_, .halt, halt, rfl, ?_⟩⟩
    rw [exec_memory_of_no_access (s := { s with turn := .memory }) rfl rfl halt, halt]

end

/-! ## One tick for each later stage of the instruction ahead -/

/-- Fetch has nothing to do (R133). -/
def State.fetchOff (s : State) : Prop := s.redirectPending = false ∧ s.flHeld = false ∧ s.fetchEn = false

theorem fetchState_of_fetchOff {s : State} (off : s.fetchOff) : fetchState s = s :=
  fetchState_of_disabled off.1 off.2.1 off.2.2

/-- The end of a tick in which Execute left `u`: what was in `DL` passed Decode. -/
def State.afterExecute (u : State) : State := { u with el := u.dl, dl := none, clock := u.clock + 1, turn := .fetch }

/-- The end of a tick in which Memory left `u`: what was in `EL` passed Execute. -/
def State.afterMemory (u : State) : State := { u with ml := u.el, el := none, clock := u.clock + 1, turn := .fetch }

/-- The end of a tick in which Writeback left `u`: what was in `ML` passed Memory. -/
def State.afterWriteback (u : State) : State := { u with wl := u.ml, ml := none, clock := u.clock + 1, turn := .fetch }

section
variable {s u : State} {l : Latch} {i : Instr}

/-- The tick that executes `i`, the HALT behind it passing Decode. -/
theorem step_executes (running : s.terminal = false) (wl : s.wl = none) (ml : s.ml = none) (hl : s.el = some l)
    (ho : l.op = .instr i) (answer : exec i { s with committed := none, turn := .execute } = .next u)
    (live : u.terminal = false) (behind : HaltOrEmpty u.dl) (el : u.el = none) (stall : u.dlStall = false)
    (off : u.fetchOff) : step s = .next u.afterExecute := by
  obtain ⟨turn, decodes⟩ := performs_decode_of_haltOrEmpty behind el stall
  rw [step_of_performs running (.inl ⟨wl, rfl⟩) running (.inl ⟨ml, rfl⟩) running (.inr ⟨l, i, hl, ho, answer⟩) live decodes
    live, fetchState_of_fetchOff (by exact off)]
  rfl

/-- The tick in which `i` is at Memory, the HALT behind it passing Execute. -/
theorem step_accesses (running : s.terminal = false) (wl : s.wl = none) (hl : s.ml = some l) (ho : l.op = .instr i)
    (answer : exec i { s with committed := none, turn := .memory } = .next u) (live : u.terminal = false)
    (behind : HaltOrEmpty u.el) (ml : u.ml = none) (dl : u.dl = none) (off : u.fetchOff) :
    step s = .next u.afterMemory := by
  obtain ⟨turn, executes⟩ := performs_execute_of_haltOrEmpty behind ml
  rw [step_of_performs running (.inl ⟨wl, rfl⟩) running (.inr ⟨l, i, hl, ho, answer⟩) live executes live (.inl ⟨dl, rfl⟩) live,
    fetchState_of_fetchOff (by exact off)]
  rfl

/-- The tick that commits `i`, the HALT behind it passing Memory. -/
theorem step_commits (running : s.terminal = false) (hl : s.wl = some l) (ho : l.op = .instr i)
    (answer : exec i { s with committed := none, turn := .writeback } = .next u) (live : u.terminal = false)
    (behind : HaltOrEmpty u.ml) (wl : u.wl = none) (el : u.el = none) (dl : u.dl = none) (off : u.fetchOff) :
    step s = .next u.afterWriteback := by
  obtain ⟨turn, accesses⟩ := performs_memory_of_haltOrEmpty behind wl
  rw [step_of_performs running (.inr ⟨l, i, hl, ho, answer⟩) live accesses live (.inl ⟨el, rfl⟩) live (.inl ⟨dl, rfl⟩) live,
    fetchState_of_fetchOff (by exact off)]
  rfl

end

/-! ## The four ticks together -/

section
variable {s u2 u3 u4 : State} {pc : Word} {i : Instr} {l2 l3 : Latch}

/-- The stages past Decode of an instruction that was alone: Execute left `u2` and did not redirect or train, Memory left `u3` in
the next tick and Writeback `u4` in the one after. -/
structure PassesAlone (s : State) (pc : Word) (i : Instr) (l2 l3 : Latch) (u2 u3 u4 : State) : Prop where
  alone : AloneInDecode s pc i
  goesOn : i ≠ .halt
  execute : exec i ((s.aloneInExecute pc i).at .execute) = .next u2
  executed : Executed i (s.captured pc i) l2 ((s.aloneInExecute pc i).at .execute) u2
  front : FrontKept ((s.aloneInExecute pc i).at .execute) u2
  predictor : samePredictor ((s.aloneInExecute pc i).at .execute) u2
  memory : exec i { u2.afterExecute with committed := none, turn := .memory } = .next u3
  accessed : Accessed i l2 l3 { u2.afterExecute with committed := none, turn := .memory } u3
  writeback : exec i { u3.afterMemory with committed := none, turn := .writeback } = .next u4
  committed : Committed i l3 { u3.afterMemory with committed := none, turn := .writeback } u4

theorem PassesAlone.run_four (h : PassesAlone s pc i l2 l3 u2 u3 u4) :
    Sys2Proof.core.run 4 s = .next u4.afterWriteback ∧ u4.terminal = false ∧ u4.ml = s.haltBehind := by
  obtain ⟨alone, goesOn, execute, e, front, -, memory, a, writeback, c⟩ := h
  have behind := s.haltBehind_haltOrEmpty
  have live2 : u2.terminal = false := (State.terminal_congr e.keeps.halted e.fault).trans alone.running
  have live3 : u3.terminal = false := (State.terminal_congr a.keeps.halted a.fault).trans live2
  have halted : u4.halted = u3.halted := by rw [c.halted, decide_eq_false goesOn]; exact Bool.or_false _
  have live4 : u4.terminal = false := (State.terminal_congr halted c.fault).trans live3
  have off2 : u2.fetchOff := ⟨front.redirectPending.trans alone.fetchIdle.2, front.flHeld, front.fetchEn⟩
  have off3 : u3.fetchOff :=
    ⟨a.keeps.redirectPending.trans off2.1, a.keeps.flHeld.trans off2.2.1, a.keeps.fetchEn.trans off2.2.2⟩
  have off4 : u4.fetchOff :=
    ⟨c.keeps.redirectPending.trans off3.1, c.keeps.flHeld.trans off3.2.1, c.keeps.fetchEn.trans off3.2.2⟩
  have el3 : u3.el = s.haltBehind := a.keeps.el.trans front.dl
  have ml4 : u4.ml = s.haltBehind := c.keeps.ml.trans el3
  have wl2 : u2.wl = none := e.keeps.wl.trans alone.writebackEmpty
  have ho2 : l2.op = .instr i := e.record.2.1
  have tick2 : step (s.aloneInExecute pc i) = .next u2.afterExecute :=
    step_executes (s := s.aloneInExecute pc i) alone.running alone.writebackEmpty alone.memoryEmpty rfl rfl execute live2
      (front.dl.symm ▸ behind) e.el front.dlStall off2
  have tick3 : step u2.afterExecute = .next u3.afterMemory :=
    step_accesses (s := u2.afterExecute) live2 wl2 e.ml ho2 memory live3 (el3.symm ▸ behind) a.ml a.keeps.dl off3
  have tick4 : step u3.afterMemory = .next u4.afterWriteback :=
    step_commits (s := u3.afterMemory) live3 a.wl (a.record.2.1.trans ho2) writeback live4 (ml4.symm ▸ behind) c.wl c.keeps.el
      (c.keeps.dl.trans a.keeps.dl) off4
  rw [core_run_of_step alone.step_eq, core_run_of_step tick2, core_run_of_step tick3, core_run_of_step tick4]
  exact ⟨rfl, live4, ml4⟩

theorem State.isBusy_aloneInExecute (s : State) (pc : Word) (i : Instr) (r : Reg) :
    (s.aloneInExecute pc i).isBusy r = (decide (r ∈ writes i) || s.isBusy r) := by
  have marked := State.isBusy_markAll s (writes i) r
  rwa [State.markAll_busyWith] at marked

/-- Writeback releases what Decode marked and Execute published (R163, R188, 44_memory_writeback.md R217). -/
theorem PassesAlone.released (h : PassesAlone s pc i l2 l3 u2 u3 u4) (r : Reg) :
    u4.isBusy r = false ∧ u4.isPending r = false := by
  obtain ⟨alone, -, -, e, -, -, -, a, -, c⟩ := h
  have busy : u3.isBusy r = (decide (r ∈ writes i) || s.isBusy r) :=
    (State.isBusy_congr (a.keeps.busy.trans e.keeps.busy) r).trans (State.isBusy_aloneInExecute s pc i r)
  have pending : u3.isPending r = u2.isPending r := State.isPending_congr a.keeps.pendF r
  have released : u4.isBusy r = (u3.isBusy r && !decide (r ∈ writes i)) := c.released r
  have unpended : u4.isPending r = (u3.isPending r && !decide (r ∈ writes i)) := c.unpended r
  rw [released, busy, alone.nothingBusy, unpended, pending]
  by_cases written : r ∈ writes i
  · simp [written]
  · have unpublished : u2.isPending r = false :=
      (e.unpublished rfl fun published => written (mem_writes_iff.mpr (.inl published))).1.trans (alone.nothingPending r)
    simp [written, unpublished]

/-- The pending value of a published register is the one committed to it; no other is written (R188, 44_memory_writeback.md
R216). -/
theorem PassesAlone.published (h : PassesAlone s pc i l2 l3 u2 u3 u4) (r : Reg) :
    u4.pendingValue r = if s.cfg.policy = .fb ∧ r ∈ writesAtExecute i then u4.reg r else s.pendingValue r := by
  obtain ⟨-, -, -, e, -, -, -, a, -, c⟩ := h
  have ho2 : l2.op = .instr i := e.record.2.1
  have kept : u4.pendingValue r = u2.pendingValue r := State.pendingValue_congr (c.keeps.pendV.trans a.keeps.pendV) r
  rw [kept]
  split
  · rename_i published
    obtain ⟨policy, hr⟩ := published
    have committed := c.written r (mem_writes_iff.mpr (.inl hr)) (a.record.2.1.trans ho2)
    rw [commitValue_accessed a ho2 hr, (executed_pending e rfl r).2.2 policy hr] at committed
    exact (Option.some.inj committed).symm
  · rename_i unpublished
    by_cases hr : r ∈ writesAtExecute i
    · have policy : s.cfg.policy = .ss := by
        cases hp : s.cfg.policy with
        | ss => rfl
        | fb => exact absurd ⟨hp, hr⟩ unpublished
      rcases e.pending with ⟨-, -, same⟩ | ⟨q, v, -, -, -, written⟩
      · exact State.pendingValue_congr same r
      · exact State.pendingValue_congr (written.trans (State.pendVWith_ss policy q v)) r
    · exact (e.unpublished rfl hr).2

/-- What four ticks leave, whatever the instruction: the registers, flags and data memory of Writeback's answer, and of the
hazard tables only the published values. -/
theorem PassesAlone.committedAlone (h : PassesAlone s pc i l2 l3 u2 u3 u4) :
    CommittedAlone s u4.afterWriteback pc i u4.x u4.flags u4.dmem := by
  obtain ⟨-, live4, ml4⟩ := h.run_four
  obtain ⟨alone, -, -, e, front, predictor, -, a, -, c⟩ := id h
  exact {
    registers := rfl
    flagsLeft := rfl
    memory := rfl
    pcLeft := c.keeps.pc.trans (a.keeps.pc.trans front.pc)
    counted := ⟨c.counted.trans (congrArg (· + 1) (a.keeps.insnCompleted.trans e.keeps.insnCompleted)),
      c.reported.trans (congrArg some (a.record.1.trans e.record.1))⟩
    ticks := by
      have clock2 : u2.clock = s.clock + 1 := e.keeps.clock
      have clock3 : u3.clock = u2.clock + 1 := a.keeps.clock
      have clock4 : u4.clock = u3.clock + 1 := c.keeps.clock
      show u4.clock + 1 = s.clock + 4
      omega
    goesOn := live4
    released := h.released
    published := h.published
    predictor := Prod.ext (c.keeps.btb.trans (a.keeps.btb.trans predictor.1))
      (c.keeps.btbHead.trans (a.keeps.btbHead.trans predictor.2))
    pipeline := ⟨c.keeps.dl.trans a.keeps.dl, c.keeps.el, rfl, ml4⟩
    fetching := ⟨c.keeps.fetchEn.trans (a.keeps.fetchEn.trans front.fetchEn),
      c.keeps.flHeld.trans (a.keeps.flHeld.trans front.flHeld),
      c.keeps.redirectPending.trans (a.keeps.redirectPending.trans (front.redirectPending.trans alone.fetchIdle.2))⟩ }

end

end Sys2Proof.Machine
end

section
/-! PROOFS. Branches that were alone in the pipeline (43_execute_redirect.md R193, R194, R196; 48_insn_control.md R300
to R306). -/

namespace Sys2Proof.Machine

theorem registerSets_of_branch {i : Instr} (h : i.opClass = .branch) : RegisterSets i none none [] [] := by
  cases i with
  | bz | bnz | bp | bnp | bn | bnn => exact ⟨rfl, rfl, rfl, rfl⟩
  | _ => exact nomatch h

theorem accessesMemory_of_branch {i : Instr} (h : i.opClass = .branch) : accessesMemory i = false := by
  simp [accessesMemory, h]

theorem executed_of_branch {i : Instr} (h : i.opClass = .branch) (l : Latch) : l.executed i = true := by
  cases i with
  | bz | bnz | bp | bnp | bn | bnn => rfl
  | _ => exact nomatch h

theorem writebackAction_of_branch {i : Instr} (h : i.opClass = .branch) : writebackAction i = commitNothing := by
  cases i with
  | bz | bnz | bp | bnp | bn | bnn => rfl
  | _ => exact nomatch h

theorem ne_halt_of_branch {i : Instr} (h : i.opClass = .branch) : i ≠ .halt := by
  rintro rfl
  exact nomatch h

section
variable {s : State} {l : Latch} {pc : Word} {i : Instr}

/-- An instruction that is no load or store passes Memory as it is (44_memory_writeback.md R210, R214). -/
theorem accessed_of_no_access (noAccess : accessesMemory i = false) (s : State) (l : Latch) :
    Accessed i l l s { s with wl := some l, ml := none } := by
  have noLoad : i.opClass ≠ .load := fun load => by simp [accessesMemory, load] at noAccess
  exact ⟨by constructor <;> rfl, rfl, rfl, rfl, ⟨rfl, rfl, rfl, rfl⟩, ⟨fun load => absurd load noLoad, fun _ => rfl⟩, .inl rfl⟩

/-- An instruction that writes no register is only counted (44_memory_writeback.md R218). -/
theorem committed_of_no_writes (hl : s.wl = some l) (noWrites : writes i = []) (goesOn : i ≠ .halt) :
    Committed i l s (s.retire l) := by
  have outcome := commitNothing_outcome hl noWrites goesOn
  rw [commitNothing, State.inWriteback_some hl] at outcome
  cases outcome with
  | missing _ written _ => exact absurd noWrites written
  | committed c => exact c

theorem exec_writeback_of_branch (branch : i.opClass = .branch) (turn : s.turn = .writeback) (hl : s.wl = some l) :
    exec i s = .next (s.retire l) := by
  rw [exec_writeback i turn, writebackAction_of_branch branch, commitNothing, State.inWriteback_some hl]

/-- The four ticks of a branch that was alone and only moves on at Execute. -/
theorem AloneInDecode.commits_of_branch (h : AloneInDecode s pc i) (branch : i.opClass = .branch)
    (passes : exec i ((s.aloneInExecute pc i).at .execute) =
      .next (((s.aloneInExecute pc i).at .execute).sendToMemory (s.captured pc i))) :
    ∃ t, Sys2Proof.core.run 4 s = .next t ∧ CommittedAlone s t pc i s.x s.flags s.dmem := by
  have row := registerSets_of_branch branch
  have noAccess := accessesMemory_of_branch branch
  have goesOn := ne_halt_of_branch branch
  have through : PassesAlone s pc i (s.captured pc i) (s.captured pc i) _ _ _ := {
    alone := h
    goesOn := goesOn
    execute := passes
    executed := executed_plain row.atExecute ⟨rfl, rfl, rfl, rfl⟩ (executed_of_branch branch _) (.inl rfl)
    front := by constructor <;> rfl
    predictor := ⟨rfl, rfl⟩
    memory := exec_memory_of_no_access noAccess rfl rfl
    accessed := accessed_of_no_access noAccess _ _
    writeback := exec_writeback_of_branch branch rfl rfl
    committed := committed_of_no_writes rfl row.writes_eq_nil goesOn }
  exact ⟨_, through.run_four.1, through.committedAlone⟩

/-- What the predictor says of an instruction alone in the pipeline, read off the table before its Decode. -/
theorem predictedTaken_aloneInExecute : PredictedTaken ((s.aloneInExecute pc i).at .execute) pc i ↔
    ∃ op k e, s.cfg.policy = .ss ∧ trainedAs i = some op ∧ s.btbFind pc = some k ∧ s.btb[k]? = some e ∧ e.resolved = true ∧
      s.cfg.takenMin op ≤ e.ctr.toNat := by
  have atExecute {op : Trained} (policy : s.cfg.policy = .ss) (mnemonic : trainedAs i = some op) :
      ((s.aloneInExecute pc i).at .execute).prediction pc op = s.prediction pc op :=
    (State.prediction_congr rfl rfl).trans (State.prediction_aloneInExecute policy mnemonic)
  constructor
  · rintro ⟨op, policy, mnemonic, taken⟩
    rw [atExecute policy mnemonic] at taken
    obtain ⟨k, e, entry⟩ := State.prediction_isSome_iff_entry.mp taken
    exact ⟨op, k, e, policy, mnemonic, entry⟩
  · rintro ⟨op, k, e, policy, mnemonic, entry⟩
    refine ⟨op, policy, mnemonic, ?_⟩
    rw [atExecute policy mnemonic]
    exact State.prediction_isSome_iff_entry.mpr ⟨k, e, entry⟩

end

/-- Settles O41: a branch that is taken, or was predicted taken and is not, redirects at Execute; the third kind only moves on,
and commits. -/
theorem branchesContinueWhereTheirConditionSays : Obligations.BranchesContinueWhereTheirConditionSays := by
  intro mk taken hmem imm s pc goal predicted h hpredicted
  have branch := branchOn_of_mem hmem imm
  have row := registerSets_of_branch branch.isBranch
  have agree := hpredicted.trans predictedTaken_aloneInExecute.symm
  have action : exec (mk imm) ((s.aloneInExecute pc (mk imm)).at .execute) = .next _ := exec_execute _ rfl
  refine ⟨fun redirects => ?_, fun fails unpredicted => ?_⟩
  · obtain ⟨w, outcome⟩ : ∃ w : State, executeAction (mk imm) ((s.aloneInExecute pc (mk imm)).at .execute) =
        (w.redirect goal).sendToMemory (s.captured pc (mk imm)) := by
      rcases redirects with ⟨holds, rfl⟩ | ⟨fails, wasPredicted, rfl⟩
      · exact branch.redirects_of_taken (l := s.captured pc (mk imm)) rfl holds
      · exact branch.redirects_of_mispredicted (l := s.captured pc (mk imm)) rfl fails (agree.mp wasPredicted)
    rw [outcome] at action
    obtain ⟨⟨v, c⟩, l', e⟩ := h.continuesAt (accessesMemory_of_branch branch.isBranch) action rfl
    exact ⟨_, _, v, c.first, c.second, c.pc, c.dl, c.fl, c.flHeld, c.fetchEn, c.redirectPending, c.el, c.wl, c.clock,
      c.architecture, e.sameHazards_afterBubble row.writes_eq_nil, e.samePredictor_afterBubble, c.third, c.fetched⟩
  · rw [branch.passes (s := (s.aloneInExecute pc (mk imm)).at .execute) (l := s.captured pc (mk imm)) rfl fails fun taken =>
      unpredicted (agree.mpr taken)] at action
    exact h.commits_of_branch branch.isBranch action

end Sys2Proof.Machine
end

section
/-! PROOFS. Loads at Memory (20_memory.md R62; 44_memory_writeback.md R211, R213, R214), and what each instruction does at
Writeback (R216 to R220). -/

namespace Sys2Proof.Machine

/-! ## Loads at Memory (44_memory_writeback.md R211, R213, R214) -/

theorem memoryAction_of_load {i : Instr} (h : i.opClass = .load) : memoryAction i = loadWord := by
  cases i with
  | load | loadp => rfl
  | _ => exact nomatch h

section
variable {s : State} {l : Latch} {a : Word}

theorem loadWord_inRange (hl : s.ml = some l) (ha : l.addr = some a) (hr : s.inMemory a = true) :
    loadWord s = s.sendToWriteback { l with res := some (s.readMem (memIndex a)) } := by
  rw [loadWord, State.inMemoryStage_some hl, ha, State.reading_some, if_pos hr]

theorem loadWord_outOfRange (hl : s.ml = some l) (ha : l.addr = some a) (hr : s.inMemory a = false) :
    loadWord s = s.raise (.memoryFault l.pc a) := by
  rw [loadWord, State.inMemoryStage_some hl, ha, State.reading_some, hr, if_neg Bool.false_ne_true]

end

/-- Settles O31: a load at Memory is `loadWord`, whose two branches are the two sides of the range check. -/
theorem loadsReadDataMemoryOrFault : Obligations.LoadsReadDataMemoryOrFault := by
  intro i s l a load turn hl ha
  rw [exec_memory i turn, memoryAction_of_load load]
  constructor
  · intro low high
    rw [loadWord_inRange hl ha ((inMemory_iff s a).mpr ⟨low, high⟩)]
    rfl
  · intro out
    rw [loadWord_outOfRange hl ha ((inMemory_eq_false_iff s a).mpr out)]
    rfl

/-! ## Writeback (44_memory_writeback.md R216 to R220) -/

/-- One register written and released, and the instruction counted: what each commit of a single register leaves. -/
theorem commitReg_retire_eq (s : State) (r : Reg) (v : Word) (l : Latch) : (s.commitReg r v).retire l = { s with
    x := s.x.set r.val v
    busy := s.busy.set r.val false
    pendF := s.pendF.set r.val false
    insnCompleted := s.insnCompleted + 1
    committed := some l.pc
    wl := none } := rfl

section
variable {s : State} {l : Latch} {v w : Word}

theorem commitResult_of_result (rd : Reg) (hl : s.wl = some l) (hv : l.res = some v) :
    commitResult rd s = (s.commitReg rd v).retire l := by
  rw [commitResult, State.inWriteback_some hl, hv, State.reading_some]

theorem commitBase_of_base (rs2 : Reg) (hl : s.wl = some l) (hw : l.res2 = some w) :
    commitBase rs2 s = (s.commitReg rs2 w).retire l := by
  rw [commitBase, State.inWriteback_some hl, hw, State.reading_some]

theorem commitLoadP_of_results (rd rs1 : Reg) (hl : s.wl = some l) (hv : l.res = some v) (hw : l.res2 = some w) :
    commitLoadP rd rs1 s = ((s.commitReg rd v).commitReg rs1 w).retire l := by
  rw [commitLoadP, State.inWriteback_some hl, hv, hw, State.reading_some, State.reading_some]

end

/-- Settles O34: LOADP is two commits, the base last, read back by the rules of `commitReg`; STOREP is one. -/
theorem postIncrementFormsCommitTheBase : Obligations.PostIncrementFormsCommitTheBase := by
  intro rd rs1 rs2 imm s l w turn hl hw
  constructor
  · intro v hv
    have answer : exec (.loadp rd rs1 imm) s = .next (commitLoadP rd rs1 s) := exec_writeback _ turn
    rw [answer, commitLoadP_of_results rd rs1 hl hv hw]
    refine ⟨_, rfl, ?base, ?loaded, ?otherRegisters, ?busy, ?pending, rfl⟩
    case base => simp
    case loaded => intro distinct; simp [distinct]
    case otherRegisters => intro r notDestination notBase; simp [notDestination, notBase]
    case busy => intro r; simp [Bool.and_comm, Bool.and_left_comm]
    case pending => intro r; simp [Bool.and_comm, Bool.and_left_comm]
  · have answer : exec (.storep rs1 rs2 imm) s = .next (commitBase rs2 s) := exec_writeback _ turn
    rw [answer, commitBase_of_base rs2 hl hw, commitReg_retire_eq]

/-- Settles O33: each of the twelve forms is `commitResult` at Writeback, which is one commit. -/
theorem resultsCommitAtWriteback : Obligations.ResultsCommitAtWriteback := by
  intro i rd rs1 rs2 imm s l v hmem turn hl hv
  have action : writebackAction i = commitResult rd := by
    simp only [List.mem_cons, List.not_mem_nil, or_false] at hmem
    rcases hmem with rfl | rfl | rfl | rfl | rfl | rfl | rfl | rfl | rfl | rfl | rfl | rfl <;> rfl
  rw [exec_writeback i turn, action, commitResult_of_result rd hl hv, commitReg_retire_eq]

theorem writebackAction_of_no_writes {i : Instr} (noWrites : writes i = []) (goesOn : i ≠ .halt) :
    writebackAction i = commitNothing := by
  cases i with
  | halt => exact absurd rfl goesOn
  | store | cmp | cml | bz | bnz | bp | bnp | bn | bnn | jump | nop => rfl
  | _ => exact nomatch noWrites

/-- Settles O35: without a register to write, an instruction is only retired, and HALT is also the end of the run. -/
theorem otherInstructionsOnlyRetireAndHaltEndsTheRun : Obligations.OtherInstructionsOnlyRetireAndHaltEndsTheRun := by
  intro i s l noWrites turn hl
  rw [exec_writeback i turn]
  by_cases ends : i = .halt
  · subst ends
    have commits : writebackAction .halt s = { s.retire l with halted := true } := State.inWriteback_some hl _
    rw [commits, decide_eq_true rfl, Bool.or_true]
    rfl
  · rw [writebackAction_of_no_writes noWrites ends, commitNothing, State.inWriteback_some hl, decide_eq_false ends,
      Bool.or_false]
    rfl

end Sys2Proof.Machine
end

section
/-! PROOFS. The latches and the predictor hold what the program has at their addresses (10_state.md R33, R34;
45_branch_predictor.md R240(c), R240(e)). -/

namespace Sys2Proof.Machine

/-! ## Latches and entries true to a program -/

/-- Only the program and the parameters decide what an address holds (20_memory.md R66). -/
theorem State.ifetch_congr {s t : State} (cfg : t.cfg = s.cfg) (imem : t.imem = s.imem) : t.ifetch = s.ifetch := by
  funext a
  simp only [State.ifetch, cfg, imem]

/-- The contents of a latch are what the program of `s` holds at their address. -/
def LatchTrue (s : State) (o : Option Latch) : Prop := ∀ l, o = some l → l.op = s.ifetch l.pc

theorem LatchTrue.of_empty {s : State} {o : Option Latch} (h : o = none) : LatchTrue s o :=
  fun _ hl => nomatch h.symm.trans hl

/-- A stage that moves a latch on keeps its address and its record (40_scheduler.md R113). -/
theorem LatchTrue.moved {s : State} {o o' : Option Latch} {l l' : Latch} (h : LatchTrue s o) (hl : o = some l)
    (hl' : o' = some l') (pc : l'.pc = l.pc) (op : l'.op = l.op) : LatchTrue s o' := by
  subst hl'
  rintro _ ⟨⟩
  rw [pc, op]
  exact h l hl

/-- Fetch loads what the program holds at the pc (41_fetch.md R134). -/
theorem LatchTrue.fresh (s : State) (pc : Word) : LatchTrue s (some (Latch.fresh pc (s.ifetch pc))) := by
  rintro _ ⟨⟩
  rfl

/-- An entry, if valid, is that of a predictor-trained branch of the program of `s`, with that branch's target once resolved. -/
def BtbEntry.TrueTo (s : State) (e : BtbEntry) : Prop :=
  e.valid = true → ∃ i, s.ifetch e.tag = .instr i ∧ (trainedAs i).isSome = true ∧
    (e.resolved = true → e.target = branchTarget s.cfg e.tag (displacement i))

/-- The invariant of `t`, whose program is that of `s`. -/
theorem programInv_of {s t : State} (cfg : t.cfg = s.cfg) (imem : t.imem = s.imem)
    (fl : t.flHeld = true → LatchTrue s t.fl) (dl : LatchTrue s t.dl) (el : LatchTrue s t.el) (ml : LatchTrue s t.ml)
    (wl : LatchTrue s t.wl) (btb : ∀ e ∈ t.btb, e.TrueTo s) : ProgramInv t := by
  have same : t.ifetch = s.ifetch := State.ifetch_congr cfg imem
  constructor <;> rw [same]
  case inFetch => exact fun l held hl => fl held l hl
  case inDecode => exact dl
  case inExecute => exact el
  case inMemory => exact ml
  case inWriteback => exact wl
  case inPredictor => rw [cfg]; exact btb

/-- A held latch is true to the program. -/
theorem ProgramInv.heldTrue {s : State} (h : ProgramInv s) (held : s.flHeld = true) : LatchTrue s s.fl :=
  fun l => h.inFetch l held

theorem ProgramInv.congr {s t : State} (h : ProgramInv s) (cfg : t.cfg = s.cfg) (imem : t.imem = s.imem) (fl : t.fl = s.fl)
    (flHeld : t.flHeld = s.flHeld) (dl : t.dl = s.dl) (el : t.el = s.el) (ml : t.ml = s.ml) (wl : t.wl = s.wl)
    (btb : t.btb = s.btb) : ProgramInv t := by
  refine programInv_of cfg imem ?_ ?_ ?_ ?_ ?_ ?_
  · rw [flHeld, fl]; exact h.heldTrue
  · rw [dl]; exact h.inDecode
  · rw [el]; exact h.inExecute
  · rw [ml]; exact h.inMemory
  · rw [wl]; exact h.inWriteback
  · rw [btb]; exact h.inPredictor

/-- The invariant does not speak of the turn. -/
theorem ProgramInv.at {s : State} (h : ProgramInv s) (stage : Stage) : ProgramInv (s.at stage) :=
  h.congr rfl rfl rfl rfl rfl rfl rfl rfl rfl

/-- A fault changes no latch and no entry (60_exceptions.md R336). -/
theorem ProgramInv.raise {s : State} (h : ProgramInv s) (f : Fault) : ProgramInv (s.raise f) :=
  h.congr rfl rfl rfl rfl rfl rfl rfl rfl rfl

/-! ## The predictor's entries (R232, R236, R237) -/

/-- An entry that predicts the branch's target already keeps it, any other takes it over (R236). -/
@[simp] theorem BtbEntry.trainedTaken_target (P : Params) (e : BtbEntry) (tgt : Word) :
    (e.trainedTaken P tgt).target = tgt := by
  unfold BtbEntry.trainedTaken
  split
  · rename_i h
    simp only [Bool.and_eq_true, beq_iff_eq] at h
    exact h.2
  · rfl

section
variable {s : State} {p : Word} {i : Instr}

theorem allocated_trueTo (P : Params) (here : s.ifetch p = .instr i) (trained : (trainedAs i).isSome = true) :
    (BtbEntry.allocated P p).TrueTo s := fun _ => ⟨i, here, trained, nofun⟩

theorem trainedTaken_trueTo (P : Params) {e : BtbEntry} (tag : e.valid = true → e.tag = p) (here : s.ifetch p = .instr i)
    (trained : (trainedAs i).isSome = true) :
    (e.trainedTaken P (branchTarget s.cfg p (displacement i))).TrueTo s := by
  intro valid
  rw [BtbEntry.trainedTaken_valid] at valid
  rw [BtbEntry.trainedTaken_tag, BtbEntry.trainedTaken_target, tag valid]
  exact ⟨i, here, trained, fun _ => rfl⟩

/-- Training by a not-taken outcome moves the counter only (R237). -/
theorem trainedNotTaken_trueTo {e : BtbEntry} (h : e.TrueTo s) : e.trainedNotTaken.TrueTo s := h

theorem trueTo_of_mem_set {m : List BtbEntry} {k : Nat} {e : BtbEntry} (h : ∀ f ∈ m, f.TrueTo s) (new : e.TrueTo s) :
    ∀ f ∈ m.set k e, f.TrueTo s :=
  fun f hf => (List.mem_or_eq_of_mem_set hf).elim (h f) fun hfe => hfe ▸ new

theorem btbAlloc_trueTo (h : ∀ e ∈ s.btb, e.TrueTo s) (here : s.ifetch p = .instr i)
    (trained : (trainedAs i).isSome = true) : ∀ e ∈ (s.btbAlloc p).btb, e.TrueTo s :=
  trueTo_of_mem_set h (allocated_trueTo s.cfg here trained)

/-- After an allocation the entry at the old head is the one allocated; a head outside the table names no entry (R232). -/
theorem tag_btbEntry_btbAlloc (valid : ((s.btbAlloc p).btbEntry s.btbHead).valid = true) :
    ((s.btbAlloc p).btbEntry s.btbHead).tag = p := by
  by_cases inside : s.btbHead < s.btb.length
  · simp [State.btbEntry, inside, BtbEntry.allocated]
  · simp [State.btbEntry, inside, BtbEntry.zero] at valid

/-- What Execute of the instruction at `p` makes of the table (R193). -/
theorem Trains.trueTo {t : State} (ht : Trains i p s t) (h : ∀ e ∈ s.btb, e.TrueTo s) (here : s.ifetch p = .instr i) :
    ∀ e ∈ t.btb, e.TrueTo s := by
  cases ht with
  | untouched same => rw [same.1]; exact h
  | taken k _ trained found table =>
    rw [table]
    exact trueTo_of_mem_set h (trainedTaken_trueTo _ (fun _ => (btbFind_some found).2.2) here trained)
  | allocated _ trained _ table =>
    rw [table]
    exact trueTo_of_mem_set (btbAlloc_trueTo h here trained) (trainedTaken_trueTo _ tag_btbEntry_btbAlloc here trained)
  | notTaken k _ _ found _ table =>
    rw [table]
    exact trueTo_of_mem_set h (trainedNotTaken_trueTo (h _ (List.mem_of_getElem? (getElem?_of_btbFind found))))

/-- What Decode of the instruction at `p` makes of the table (R153). -/
theorem Allocates.trueTo {t : State} (ht : Allocates i p s t) (h : ∀ e ∈ s.btb, e.TrueTo s)
    (here : s.ifetch p = .instr i) : ∀ e ∈ t.btb, e.TrueTo s := by
  cases ht with
  | untouched same => rw [same.1]; exact h
  | allocated _ trained _ table => rw [table]; exact btbAlloc_trueTo h here trained

end

/-! ## Each stage keeps them true -/

theorem Committed.programInv {i : Instr} {l : Latch} {s t : State} (c : Committed i l s t) (h : ProgramInv s) :
    ProgramInv t := by
  have k := c.keeps
  refine programInv_of k.cfg k.imem ?_ ?_ ?_ ?_ (.of_empty c.wl) ?_
  · rw [k.flHeld, k.fl]; exact h.heldTrue
  · rw [k.dl]; exact h.inDecode
  · rw [k.el]; exact h.inExecute
  · rw [k.ml]; exact h.inMemory
  · rw [k.btb]; exact h.inPredictor

theorem writebackState_programInv (s : State) (h : ProgramInv s) : ProgramInv (writebackState s) := by
  refine writebackState_elim s (fun _ => h) (fun _ _ _ => (h.at _).raise _) fun l i t _ _ o => ?_
  cases o with
  | missing _ _ answer => subst answer; exact (h.at _).raise _
  | committed c => exact c.programInv (h.at _)

theorem Accessed.programInv {i : Instr} {l l' : Latch} {s t : State} (a : Accessed i l l' s t) (hl : s.ml = some l)
    (h : ProgramInv s) : ProgramInv t := by
  have k := a.keeps
  obtain ⟨pc, op, -⟩ := a.record
  refine programInv_of k.cfg k.imem ?_ ?_ ?_ (.of_empty a.ml) (LatchTrue.moved h.inMemory hl a.wl pc op) ?_
  · rw [k.flHeld, k.fl]; exact h.heldTrue
  · rw [k.dl]; exact h.inDecode
  · rw [k.el]; exact h.inExecute
  · rw [k.btb]; exact h.inPredictor

theorem memoryState_programInv (s : State) (h : ProgramInv s) : ProgramInv (memoryState s) := by
  refine memoryState_elim s (fun _ => h) (fun _ _ _ => (h.at _).raise _) fun l i t hl _ o => ?_
  cases o with
  | missing _ _ answer => subst answer; exact (h.at _).raise _
  | outOfRange _ _ _ _ answer => subst answer; exact (h.at _).raise _
  | accessed _ a => exact a.programInv hl (h.at _)

/-- An executed instruction trained at most its own entry, and `DL` and the held latch are kept or, by a redirect,
dropped (R189, R193, R195). -/
theorem Executed.programInv {i : Instr} {l l' : Latch} {s t : State} (e : Executed i l l' s t) (hl : s.el = some l)
    (ho : l.op = .instr i) (h : ProgramInv s) : ProgramInv t := by
  have k := e.keeps
  obtain ⟨pc, op, -⟩ := e.record
  have here : s.ifetch l.pc = .instr i := (h.inExecute l hl).symm.trans ho
  refine programInv_of k.cfg k.imem ?_ ?_ (.of_empty e.el) (LatchTrue.moved h.inExecute hl e.ml pc op) ?_
    (e.predictor.trueTo h.inPredictor here)
  · rcases e.front with kept | ⟨redirected, -, -⟩
    · rw [kept.flHeld, k.fl]; exact h.heldTrue
    · rw [redirected.flHeld]; exact nofun
  · rcases e.front with kept | ⟨redirected, -, -⟩
    · rw [kept.dl]; exact h.inDecode
    · exact .of_empty redirected.dl
  · rw [k.wl]; exact h.inWriteback

theorem executeState_programInv (s : State) (h : ProgramInv s) : ProgramInv (executeState s) := by
  refine executeState_elim s (fun _ => h) (fun _ _ _ => (h.at _).raise _) fun l i t hl ho o => ?_
  cases o with
  | uncaptured _ answer => subst answer; exact (h.at _).raise _
  | divides answer => subst answer; exact (h.at _).raise _
  | executed _ e => exact e.programInv hl ho (h.at _)

/-- An admitted instruction allocated at most its own entry (R153, R166). -/
theorem Admitted.programInv {i : Instr} {l : Latch} {s t : State} (a : Admitted i l s t) (hl : s.dl = some l)
    (ho : l.op = .instr i) (h : ProgramInv s) : ProgramInv t := by
  have k := a.keeps
  have here : s.ifetch l.pc = .instr i := (h.inDecode l hl).symm.trans ho
  refine programInv_of k.cfg k.imem ?_ (.of_empty a.dl) (LatchTrue.moved h.inDecode hl a.el rfl rfl) ?_ ?_
    (a.predictor.trueTo h.inPredictor here)
  · rw [k.flHeld, k.fl]; exact h.heldTrue
  · rw [k.ml]; exact h.inMemory
  · rw [k.wl]; exact h.inWriteback

theorem decodeState_programInv (s : State) (h : ProgramInv s) : ProgramInv (decodeState s) := by
  refine decodeState_elim s (fun _ => h) (fun _ _ _ => h.raise _) fun l i t hl ho o => ?_
  cases o with
  | refused _ answer => subst answer; exact h.congr rfl rfl rfl rfl rfl rfl rfl rfl rfl
  | admitted a => exact a.programInv hl ho (h.at _)

theorem fetchState_programInv (s : State) (h : ProgramInv s) : ProgramInv (fetchState s) := by
  have fresh : LatchTrue s (some (Latch.fresh s.pc (s.ifetch s.pc))) := .fresh s s.pc
  have o := fetchState_outcome s
  generalize fetchState s = t at o
  cases o with
  | bubble _ answer => subst answer; exact h.congr rfl rfl rfl rfl rfl rfl rfl rfl rfl
  | disabled _ _ _ answer => subst answer; exact h
  | waits _ _ _ _ answer => subst answer; exact h.at _
  | missing _ _ _ answer => subst answer; exact h.raise _
  | retried l _ held latch _ answer =>
    subst answer
    have forwarded : LatchTrue s (some l) := latch ▸ h.heldTrue held
    exact programInv_of (s := s) rfl rfl nofun forwarded h.inExecute h.inMemory h.inWriteback h.inPredictor
  | loads n _ _ _ _ answer =>
    subst answer
    exact programInv_of (s := s) rfl rfl nofun fresh h.inExecute h.inMemory h.inWriteback h.inPredictor
  | holds n _ _ _ _ answer =>
    subst answer
    exact programInv_of (s := s) rfl rfl (fun _ => fresh) h.inDecode h.inExecute h.inMemory h.inWriteback h.inPredictor

/-- Settles O58: every stage keeps the invariant. -/
theorem everyTickKeepsLatchesAndPredictorTrueToTheProgram :
    Obligations.EveryTickKeepsLatchesAndPredictorTrueToTheProgram := by
  intro s t hs h
  have begun : ProgramInv { s with committed := none } := hs.congr rfl rfl rfl rfl rfl rfl rfl rfl rfl
  exact step_keeps h (fun _ => begun) (fun _ => begun) writebackState_programInv memoryState_programInv
    executeState_programInv decodeState_programInv fetchState_programInv
    fun _ hu => hu.congr rfl rfl rfl rfl rfl rfl rfl rfl rfl

end Sys2Proof.Machine
end

section
/-! PROOFS. The predictor-trained branches under `SS` at Execute (43_execute_redirect.md R193; 45_branch_predictor.md R236,
R237). -/

namespace Sys2Proof.Machine

/-! ## The counter after training -/

theorem stepUp_toNat {P : Params} (states : P.ctrMax ≤ 3) (c : BitVec 2) :
    (stepUp P c).toNat = min P.ctrMax (c.toNat + 1) := toNat_counter (min_le_left _ _) states

theorem stepDown_toNat (c : BitVec 2) : (stepDown c).toNat = c.toNat - 1 :=
  toNat_counter (Nat.sub_le_of_le_add (by omega)) (Nat.le_refl 3)

/-- A taken outcome confirms an entry that has the target already, and starts any other from neutral (R236). -/
theorem trainedTaken_ctr {P : Params} (neutral : P.ctrNeutral ≤ P.ctrMax) (states : P.ctrMax ≤ 3) (e : BtbEntry)
    (tgt : Word) : (e.trainedTaken P tgt).ctr.toNat =
      if e.resolved = true ∧ e.target = tgt then min P.ctrMax (e.ctr.toNat + 1) else P.ctrNeutral := by
  unfold BtbEntry.trainedTaken
  by_cases confirmed : e.resolved = true ∧ e.target = tgt
  · simp [confirmed, stepUp_toNat states]
  · simp [confirmed, toNat_counter neutral states]

@[simp] theorem BtbEntry.trainedTaken_resolved (P : Params) (e : BtbEntry) (tgt : Word) :
    (e.trainedTaken P tgt).resolved = true := by
  unfold BtbEntry.trainedTaken
  split
  · rename_i h
    exact (Bool.and_eq_true_iff.mp h).1
  · rfl

/-! ## The outcomes with the branch's entry in the table -/

section
variable {s : State} {l : Latch} {k : Nat} {e : BtbEntry}

theorem trainedOutcome_taken_of_entry (op : Trained) (imm : Word) (found : s.btbFind l.pc = some k)
    (entry : s.btb[k]? = some e) : trainedOutcome op true l imm s =
      (s.setBtb k (e.trainedTaken s.cfg (s.cfg.fit (l.pc + imm)))).redirect (s.cfg.fit (l.pc + imm)) := by
  have present : s.entryFor l.pc = (k, s) := by simp [State.entryFor, found]
  rw [trainedOutcome, if_pos rfl, present, branchTarget_eq, State.trainTaken, State.btbEntry_of_getElem? entry]

theorem trainedOutcome_mispredicted_of_entry {op : Trained} (imm : Word) (found : s.btbFind l.pc = some k)
    (entry : s.btb[k]? = some e) (resolved : e.resolved = true) (reached : s.cfg.takenMin op ≤ e.ctr.toNat) :
    trainedOutcome op false l imm s =
      (s.setBtb k e.trainedNotTaken).redirect (s.cfg.fit (l.pc + s.cfg.strideWord)) := by
  simp [trainedOutcome, found, State.btbEntry_of_getElem? entry, BtbEntry.predictsTaken, resolved, reached,
    State.trainNotTaken, nextAddress_eq]

end

/-- The four trained branches, their conditions and their mnemonics (48_insn_control.md R300). -/
theorem trainedBranchOn_of_mem {mk : Word → Instr} {op : Trained} {taken : Flags → Bool}
    (h : (mk, op, taken) ∈ [(Instr.bz, Trained.bz, fun f => f.z), (Instr.bnz, Trained.bnz, fun f => !f.z),
      (Instr.bp, Trained.bp, fun f => f.p), (Instr.bnp, Trained.bnp, fun f => !f.p)]) (imm : Word) :
    BranchOn taken imm (mk imm) ∧ trainedAs (mk imm) = some op := by
  simp only [List.mem_cons, List.not_mem_nil, or_false, Prod.mk.injEq] at h
  obtain ⟨rfl, rfl, rfl⟩ | ⟨rfl, rfl, rfl⟩ | ⟨rfl, rfl, rfl⟩ | ⟨rfl, rfl, rfl⟩ := h
  · exact ⟨branchOn_of_mem (by simp) imm, rfl⟩
  · exact ⟨branchOn_of_mem (by simp) imm, rfl⟩
  · exact ⟨branchOn_of_mem (by simp) imm, rfl⟩
  · exact ⟨branchOn_of_mem (by simp) imm, rfl⟩

/-- Settles O29: under `SS` each of the four is `trainedOutcome` and a move to Memory, and the entry given decides which of its
three outcomes that is. -/
theorem trainedBranchesResolveUnderScoreboardStall : Obligations.TrainedBranchesResolveUnderScoreboardStall := by
  intro mk op taken hmem imm s l k e target turn hl policy found entry neutral states _ htarget
  subst htarget
  obtain ⟨branch, mnemonic⟩ := trainedBranchOn_of_mem hmem imm
  rw [exec_execute _ turn, branch.executeAction_trained hl mnemonic policy]
  refine ⟨fun holds => ?taken, fun fails resolved reached => ?mispredicted, fun fails unpredicted => ?passes⟩
  case taken =>
    rw [holds, trainedOutcome_taken_of_entry op imm found entry]
    exact ⟨_, BtbEntry.trainedTaken_valid .., BtbEntry.trainedTaken_tag .., BtbEntry.trainedTaken_target ..,
      BtbEntry.trainedTaken_resolved .., trainedTaken_ctr neutral states e _, rfl⟩
  case mispredicted =>
    rw [fails, trainedOutcome_mispredicted_of_entry imm found entry resolved reached]
    exact ⟨e.trainedNotTaken, rfl, stepDown_toNat e.ctr, rfl⟩
  case passes =>
    have noPrediction : ¬ (s.prediction l.pc op).isSome = true := by
      rw [State.prediction_of_entry op found entry, if_neg]
      · exact Bool.false_ne_true
      · rintro ⟨resolved, reached⟩
        rcases unpredicted with unresolved | below
        · exact nomatch resolved.symm.trans unresolved
        · exact absurd reached (Nat.not_le.mpr below)
    rw [fails, trainedOutcome_of_unpredicted noPrediction]
    rfl

end Sys2Proof.Machine
end

section
/-! PROOFS. Arithmetic, logical, move and compare instructions that were alone in the pipeline (46_insn_alu.md R251 to R262). -/

namespace Sys2Proof.Machine

/-! ## The instructions of 46_insn_alu.md -/

/-- ARITH, LOGIC, COMPARE and MOVE: the classes that only compute (30_encoding.md R87). -/
def computesOnly (i : Instr) : Prop := setsFlags i = true ∨ i.opClass = .move

section
variable {i : Instr}

theorem computesOnly_iff_opClass :
    computesOnly i ↔ i.opClass = .arith ∨ i.opClass = .logic ∨ i.opClass = .compare ∨ i.opClass = .move := by
  simp [computesOnly, setsFlags, or_assoc]

theorem accessesMemory_of_computesOnly (h : computesOnly i) : accessesMemory i = false := by
  rcases computesOnly_iff_opClass.mp h with c | c | c | c <;> simp [accessesMemory, c]

theorem ne_halt_of_computesOnly (h : computesOnly i) : i ≠ .halt := by
  rintro rfl
  exact h.elim nofun nofun

theorem trainedAs_of_computesOnly (h : computesOnly i) : trainedAs i = none := by
  cases i with
  | bz | bnz | bp | bnp => exact h.elim nofun nofun
  | _ => rfl

end

/-! ## The stages of one that was alone -/

section
variable {i : Instr} {s t : State} {l : Latch}

/-- An instruction that left `EL` was executed: a fault would have kept it there (60_exceptions.md R336). -/
theorem executed_of_exec (turn : s.turn = .execute) (hl : s.el = some l) (answer : exec i s = .next t) (el : t.el = none) :
    ∃ l', Executed i l l' s t := by
  rw [exec_execute i turn] at answer
  obtain rfl := Host.Outcome.next.inj answer
  cases executeAction_outcome i hl with
  | uncaptured _ faults => rw [faults] at el; exact nomatch hl.symm.trans el
  | divides faults => rw [faults] at el; exact nomatch hl.symm.trans el
  | executed l' e => exact ⟨l', e⟩

/-- An instruction that left `WL` was committed. -/
theorem committed_of_exec (turn : s.turn = .writeback) (hl : s.wl = some l) (answer : exec i s = .next t) (wl : t.wl = none) :
    Committed i l s t := by
  rw [exec_writeback i turn] at answer
  obtain rfl := Host.Outcome.next.inj answer
  cases writebackAction_outcome i hl with
  | missing _ _ faults => rw [faults] at wl; exact nomatch hl.symm.trans wl
  | committed c => exact c

end

/-- The state in which Writeback meets an instruction that Execute left in `ML` as `l`, in the state `u`, and that Memory passed. -/
def State.atCommit (u : State) (l : Latch) : State :=
  { ({ u.afterExecute with committed := none, turn := .memory, wl := some l, ml := none } : State).afterMemory with
    committed := none, turn := .writeback }

/-- An instruction that was alone and only computes, left by Execute in `ML` as `l`, in the state `u`. -/
structure ComputesAlone (s : State) (pc : Word) (i : Instr) (l : Latch) (u : State) : Prop where
  alone : AloneInDecode s pc i
  computes : computesOnly i
  execute : exec i ((s.aloneInExecute pc i).at .execute) = .next u
  el : u.el = none
  ml : u.ml = some l
  redirectPending : u.redirectPending = s.redirectPending

section
variable {s u v : State} {pc : Word} {i : Instr} {l : Latch}

theorem ComputesAlone.executed (h : ComputesAlone s pc i l u) :
    Executed i (s.captured pc i) l ((s.aloneInExecute pc i).at .execute) u := by
  obtain ⟨l', e⟩ := executed_of_exec rfl rfl h.execute h.el
  obtain rfl : l' = l := Option.some.inj (e.ml.symm.trans h.ml)
  exact e

theorem ComputesAlone.front (h : ComputesAlone s pc i l u) : FrontKept ((s.aloneInExecute pc i).at .execute) u := by
  rcases h.executed.front with kept | ⟨redirected, -⟩
  · exact kept
  · exact nomatch redirected.redirectPending.symm.trans (h.redirectPending.trans h.alone.fetchIdle.2)

/-- With the answer of Writeback, all its stages are known. -/
theorem ComputesAlone.passesAlone (h : ComputesAlone s pc i l u) (writeback : exec i (u.atCommit l) = .next v)
    (wl : v.wl = none) : ∃ w, PassesAlone s pc i l l u w v := by
  have noAccess := accessesMemory_of_computesOnly h.computes
  exact ⟨_, {
    alone := h.alone
    goesOn := ne_halt_of_computesOnly h.computes
    execute := h.execute
    executed := h.executed
    front := h.front
    predictor := h.executed.predictor.samePredictor (.inr (trainedAs_of_computesOnly h.computes))
    memory := exec_memory_of_no_access noAccess rfl h.ml
    accessed := accessed_of_no_access noAccess _ l
    writeback := writeback
    committed := committed_of_exec rfl rfl writeback wl }⟩

/-- The flags are those of Execute, the registers those of Writeback, and data memory is as it was. -/
theorem ComputesAlone.commits (h : ComputesAlone s pc i l u) (writeback : exec i (u.atCommit l) = .next v)
    (wl : v.wl = none) : ∃ t, Sys2Proof.core.run 4 s = .next t ∧ CommittedAlone s t pc i v.x u.flags s.dmem := by
  obtain ⟨w, through⟩ := h.passesAlone writeback wl
  have keeps := (committed_of_exec rfl rfl writeback wl).keeps
  have flags : v.flags = u.flags := keeps.flags
  have dmem : v.dmem = s.dmem := keeps.dmem.trans h.executed.keeps.dmem
  have left := through.committedAlone
  rw [flags, dmem] at left
  exact ⟨_, through.run_four.1, left⟩

/-- One with a result commits it to its destination (44_memory_writeback.md R216). -/
theorem ComputesAlone.commits_result {rd : Reg} {r : Word} (h : ComputesAlone s pc i l u)
    (action : writebackAction i = commitResult rd) (hr : l.res = some r) :
    ∃ t, Sys2Proof.core.run 4 s = .next t ∧ CommittedAlone s t pc i (s.x.set rd.val r) u.flags s.dmem := by
  have writeback : exec i (u.atCommit l) = .next (((u.atCommit l).commitReg rd r).retire l) := by
    rw [exec_writeback i rfl, action, commitResult_of_result rd rfl hr]
  have left := h.commits writeback rfl
  have registers : (((u.atCommit l).commitReg rd r).retire l).x = s.x.set rd.val r :=
    congrArg (·.set rd.val r) h.executed.keeps.x
  rwa [registers] at left

/-- One that writes no register is only counted (44_memory_writeback.md R216, R218). -/
theorem ComputesAlone.commits_nothing (h : ComputesAlone s pc i l u) (noWrites : writes i = []) :
    ∃ t, Sys2Proof.core.run 4 s = .next t ∧ CommittedAlone s t pc i s.x u.flags s.dmem := by
  have writeback : exec i (u.atCommit l) = .next ((u.atCommit l).retire l) := by
    rw [exec_writeback i rfl, writebackAction_of_no_writes noWrites (ne_halt_of_computesOnly h.computes), commitNothing,
      State.inWriteback_some rfl]
  have left := h.commits writeback rfl
  have registers : ((u.atCommit l).retire l).x = s.x := h.executed.keeps.x
  rwa [registers] at left

end

/-! ## ADD, SUB, MUL, DIV, AND, OR, XOR (R251 to R257) -/

/-- The seven mnemonics with two source registers and a destination, and their results. -/
def registerForms : List ((Reg → Reg → Reg → Instr) × (Params → Word → Word → Word)) :=
  [(.add, fun P a b => P.fit (a + b)), (.sub, fun P a b => P.fit (a - b)), (.mul, fun P a b => P.fit (a * b)),
    (.and, fun _ a b => a &&& b), (.or, fun _ a b => a ||| b), (.xor, fun _ a b => a ^^^ b)] ++
  [(.div, fun P a b => P.fit (BitVec.ofInt 32 (a.toInt.tdiv b.toInt)))]

section
variable {mk : Reg → Reg → Reg → Instr} {f : Params → Word → Word → Word}

/-- What the seven have in common around Execute. -/
theorem registerForm_of_mem (hmem : (mk, f) ∈ registerForms) (rd rs1 rs2 : Reg) :
    setsFlags (mk rd rs1 rs2) = true ∧ operand1 (mk rd rs1 rs2) = some rs1 ∧ operand2 (mk rd rs1 rs2) = some rs2 ∧
      writebackAction (mk rd rs1 rs2) = commitResult rd := by
  simp only [registerForms, List.cons_append, List.nil_append, List.mem_cons, List.not_mem_nil, or_false,
    Prod.mk.injEq] at hmem
  rcases hmem with ⟨rfl, -⟩ | ⟨rfl, -⟩ | ⟨rfl, -⟩ | ⟨rfl, -⟩ | ⟨rfl, -⟩ | ⟨rfl, -⟩ | ⟨rfl, -⟩ <;>
    exact ⟨rfl, rfl, rfl, rfl⟩

/-- Execute of the seven, a DIV that faults excepted (43_execute_redirect.md R181, R187). -/
theorem exec_of_registerForm (hmem : (mk, f) ∈ registerForms) (rd rs1 rs2 : Reg) {s : State} {l : Latch} {a b : Word}
    (turn : s.turn = .execute) (hl : s.el = some l) (ha : l.v1 = some a) (hb : l.v2 = some b)
    (divides : mk rd rs1 rs2 = .div rd rs1 rs2 →
      b ≠ 0#32 ∧ ¬(a.toInt = -(2 ^ (s.cfg.xlen - 1)) ∧ b = 0xFFFFFFFF#32)) :
    exec (mk rd rs1 rs2) s = .next { s with
      flags := flagsOfResult (f s.cfg a b)
      pendF := s.pendFWith rd
      pendV := s.pendVWith rd (f s.cfg a b)
      ml := some { l with res := some (f s.cfg a b) }
      el := none } := by
  rcases List.mem_append.mp hmem with total | division
  · exact registerArithmeticComputesAtExecute.2 mk f total rd rs1 rs2 s l a b turn hl ha hb
  · obtain ⟨rfl, rfl⟩ := Prod.mk.inj (List.mem_singleton.mp division)
    obtain ⟨nonzero, noOverflow⟩ := divides rfl
    obtain ⟨n, q, quotient, rfl, -, answer⟩ :=
      (divisionTruncatesOrFaultsAtExecute rd rs1 rs2 s l a b turn hl ha hb).2 nonzero noOverflow
    rw [← tdiv_eq_sign] at quotient
    subst quotient
    exact answer

end

/-- Settles O36: Execute leaves the result in the latch and its flags in the state, and Writeback commits it. -/
theorem registerArithmeticHasItsArchitecturalEffect : Obligations.RegisterArithmeticHasItsArchitecturalEffect := by
  intro mk f hmem rd rs1 rs2 s pc r h divides hr
  subst hr
  have form : (mk, f) ∈ registerForms := hmem
  obtain ⟨setsThem, first, second, action⟩ := registerForm_of_mem form rd rs1 rs2
  have execute := exec_of_registerForm (s := (s.aloneInExecute pc (mk rd rs1 rs2)).at .execute)
    (l := s.captured pc (mk rd rs1 rs2)) form rd rs1 rs2 rfl rfl (congrArg (Option.map s.reg) first)
    (congrArg (Option.map s.reg) second) divides
  exact ComputesAlone.commits_result ⟨h, .inl setsThem, execute, rfl, rfl, rfl⟩ action rfl

/-! ## ADDL, SUBL, MOVC, CMP, CML (R258 to R262) -/

/-- Settles O37: ADDL, SUBL and MOVC commit the result that Execute left in the latch, CMP and CML only the flags. -/
theorem literalMoveAndCompareHaveTheirArchitecturalEffect :
    Obligations.LiteralMoveAndCompareHaveTheirArchitecturalEffect := by
  intro rd rs1 rs2 imm s pc r
  have literal (i : Instr) := literalFormsComputeAtExecute rd rs1 imm ((s.aloneInExecute pc i).at .execute)
    (s.captured pc i) rfl rfl
  have compare (i : Instr) := comparisonsSetOneFlagAtExecute rs1 rs2 imm ((s.aloneInExecute pc i).at .execute)
    (s.captured pc i) (s.reg rs1) rfl rfl
  refine ⟨fun h hr => ?addl, fun h hr => ?subl, fun h => ?movc, fun h => ?cmp, fun h => ?cml⟩
  case addl =>
    have execute := (literal (.addl rd rs1 imm)).1 .addl _ (s.reg rs1) r (by simp) rfl hr
    exact ComputesAlone.commits_result ⟨h, .inl rfl, execute, rfl, rfl, rfl⟩ rfl rfl
  case subl =>
    have execute := (literal (.subl rd rs1 imm)).1 .subl (fun a m => a - m) (s.reg rs1) r (by simp) rfl hr
    exact ComputesAlone.commits_result ⟨h, .inl rfl, execute, rfl, rfl, rfl⟩ rfl rfl
  case movc =>
    have left := ComputesAlone.commits_result ⟨h, .inr rfl, (literal (.movc rd imm)).2, rfl, rfl, rfl⟩ rfl rfl
    exact left
  case cmp =>
    have execute := (compare (.cmp rs1 rs2) rfl).1 (s.reg rs2) rfl
    exact ComputesAlone.commits_nothing ⟨h, .inl rfl, execute, rfl, rfl, rfl⟩ rfl
  case cml =>
    exact ComputesAlone.commits_nothing ⟨h, .inl rfl, (compare (.cml rs1 imm) rfl).2, rfl, rfl, rfl⟩ rfl

end Sys2Proof.Machine
end

section
/-! PROOFS. Loads, stores and NOP that were alone in the pipeline (47_insn_loadstore.md R280 to R284; 48_insn_control.md R309). -/

namespace Sys2Proof.Machine

/-! ## An instruction that was alone, from the answers of its stages -/

section
variable {i : Instr} {s t : State} {l : Latch}

/-- An instruction that left `ML` passed Memory: a fault would have kept it there (60_exceptions.md R336). -/
theorem accessed_of_exec (turn : s.turn = .memory) (hl : s.ml = some l) (answer : exec i s = .next t) (ml : t.ml = none) :
    ∃ l', Accessed i l l' s t := by
  rw [exec_memory i turn] at answer
  obtain rfl := Host.Outcome.next.inj answer
  cases memoryAction_outcome i hl with
  | missing _ _ faults => rw [faults] at ml; exact nomatch hl.symm.trans ml
  | outOfRange _ _ _ _ faults => rw [faults] at ml; exact nomatch hl.symm.trans ml
  | accessed l' a => exact ⟨l', a⟩

end

/-- The answers of the stages past Decode for an instruction that was alone and is no HALT and no trained branch: Execute left it in
`ML` as `l2`, in the state `u2`, without a redirect; Memory left it in `WL` as `l3`, in the state `u3`; Writeback left `u4`. -/
structure AnswersAlone (s : State) (pc : Word) (i : Instr) (l2 l3 : Latch) (u2 u3 u4 : State) : Prop where
  alone : AloneInDecode s pc i
  goesOn : i ≠ .halt
  untrained : trainedAs i = none
  execute : exec i ((s.aloneInExecute pc i).at .execute) = .next u2
  leftExecute : u2.el = none ∧ u2.ml = some l2 ∧ u2.redirectPending = s.redirectPending
  memory : exec i { u2.afterExecute with committed := none, turn := .memory } = .next u3
  leftMemory : u3.ml = none ∧ u3.wl = some l3
  writeback : exec i { u3.afterMemory with committed := none, turn := .writeback } = .next u4
  leftWriteback : u4.wl = none

section
variable {s u2 u3 u4 : State} {pc : Word} {i : Instr} {l2 l3 : Latch}

theorem AnswersAlone.passesAlone (h : AnswersAlone s pc i l2 l3 u2 u3 u4) : PassesAlone s pc i l2 l3 u2 u3 u4 := by
  obtain ⟨alone, goesOn, untrained, execute, ⟨el, ml, redirectPending⟩, memory, ⟨ml', wl⟩, writeback, wl'⟩ := h
  obtain ⟨l, e⟩ := executed_of_exec rfl rfl execute el
  obtain rfl : l = l2 := Option.some.inj (e.ml.symm.trans ml)
  have inMemory : ({ u2.afterExecute with committed := none, turn := .memory } : State).ml = some l := ml
  obtain ⟨l', a⟩ := accessed_of_exec rfl inMemory memory ml'
  obtain rfl : l' = l3 := Option.some.inj (a.wl.symm.trans wl)
  have inWriteback : ({ u3.afterMemory with committed := none, turn := .writeback } : State).wl = some l' := wl
  have front : FrontKept ((s.aloneInExecute pc i).at .execute) u2 := e.front.resolve_right fun ⟨redirected, _⟩ =>
    nomatch redirected.redirectPending.symm.trans (redirectPending.trans alone.fetchIdle.2)
  exact {
    alone, goesOn, execute, front, memory, writeback
    executed := e
    predictor := e.predictor.samePredictor (.inr untrained)
    accessed := a
    committed := committed_of_exec rfl inWriteback writeback wl' }

/-- What the four ticks leave is Writeback's answer, the HALT behind having moved on. -/
theorem AnswersAlone.commits (h : AnswersAlone s pc i l2 l3 u2 u3 u4) :
    Sys2Proof.core.run 4 s = .next u4.afterWriteback ∧ CommittedAlone s u4.afterWriteback pc i u4.x u4.flags u4.dmem :=
  ⟨h.passesAlone.run_four.1, h.passesAlone.committedAlone⟩

end

/-! ## LOAD and LOADP (R281, R282) -/

theorem exec_memory_of_load {i : Instr} {s : State} {l : Latch} {a : Word} (load : i.opClass = .load) (turn : s.turn = .memory)
    (hl : s.ml = some l) (ha : l.addr = some a) (inside : s.inMemory a = true) :
    exec i s = .next { s with wl := some { l with res := some (s.readMem a.toInt.toNat) }, ml := none } := by
  obtain ⟨low, high⟩ := (inMemory_iff s a).mp inside
  exact (loadsReadDataMemoryOrFault i s l a load turn hl ha).1 low high

/-- LOADP commits the loaded word, then the base (44_memory_writeback.md R216, R223). -/
theorem exec_writeback_loadp {s : State} {l : Latch} {v w : Word} (rd rs1 : Reg) (imm : Word) (turn : s.turn = .writeback)
    (hl : s.wl = some l) (hv : l.res = some v) (hw : l.res2 = some w) :
    exec (.loadp rd rs1 imm) s = .next { s with
      x := (s.x.set rd.val v).set rs1.val w
      busy := (s.busy.set rd.val false).set rs1.val false
      pendF := (s.pendF.set rd.val false).set rs1.val false
      insnCompleted := s.insnCompleted + 1
      committed := some l.pc
      wl := none } := by
  have answer : exec (.loadp rd rs1 imm) s = .next (commitLoadP rd rs1 s) := exec_writeback _ turn
  rw [answer, commitLoadP_of_results rd rs1 hl hv hw]
  rfl

/-- Settles O38: Execute computes the address, Memory reads the word there, and Writeback commits it, for LOADP after it the
incremented base. -/
theorem loadsHaveTheirArchitecturalEffect : Obligations.LoadsHaveTheirArchitecturalEffect := by
  intro rd rs1 imm s pc ea up hea low high hup
  have inside : s.inMemory ea = true := (inMemory_iff s ea).mpr ⟨low, high⟩
  have address (i : Instr) (base : operand1 i = some rs1) :=
    (loadsAndStoresComputeAddressesAtExecute rd rs1 rs1 imm ((s.aloneInExecute pc i).at .execute) (s.captured pc i) (s.reg rs1)
      ea up rfl rfl hea hup).1 (congrArg (Option.map s.reg) base)
  refine ⟨fun h => ?load, fun h _ => ?loadp⟩
  case load =>
    have answers : AnswersAlone s pc _ _ _ _ _ _ := {
      alone := h, goesOn := nofun, untrained := rfl
      execute := (address (.load rd rs1 imm) rfl).1
      leftExecute := ⟨rfl, rfl, rfl⟩
      memory := exec_memory_of_load rfl rfl rfl rfl inside
      leftMemory := ⟨rfl, rfl⟩
      writeback := resultsCommitAtWriteback _ rd rs1 rs1 imm _ _ _ (by simp) rfl rfl rfl
      leftWriteback := rfl }
    exact ⟨_, answers.commits⟩
  case loadp =>
    have answers : AnswersAlone s pc _ _ _ _ _ _ := {
      alone := h, goesOn := nofun, untrained := rfl
      execute := (address (.loadp rd rs1 imm) rfl).2
      leftExecute := ⟨rfl, rfl, rfl⟩
      memory := exec_memory_of_load rfl rfl rfl rfl inside
      leftMemory := ⟨rfl, rfl⟩
      writeback := exec_writeback_loadp rd rs1 imm rfl rfl rfl rfl
      leftWriteback := rfl }
    exact ⟨_, answers.commits⟩

/-! ## STORE and STOREP (R283, R284) -/

theorem exec_memory_of_store {i : Instr} {s : State} {l : Latch} {a v : Word} (store : i.opClass = .store)
    (turn : s.turn = .memory) (hl : s.ml = some l) (ha : l.addr = some a) (hv : l.v1 = some v) (inside : s.inMemory a = true) :
    exec i s = .next { s with dmem := writeCells s.dmem (memIndex a) v, wl := some l, ml := none } := by
  rw [exec_memory i turn, memoryAction_of_store store, storeWord_inRange hl ha hv inside]
  rfl

theorem exec_writeback_of_no_writes {i : Instr} {s : State} {l : Latch} (noWrites : writes i = []) (goesOn : i ≠ .halt)
    (turn : s.turn = .writeback) (hl : s.wl = some l) : exec i s = .next (s.retire l) := by
  rw [exec_writeback i turn, writebackAction_of_no_writes noWrites goesOn, commitNothing, State.inWriteback_some hl]

/-- Settles O39: Execute computes the address, Memory writes the word there, read back by the two rules of `writeMem`, and
Writeback commits nothing or, for STOREP, the incremented base. -/
theorem storesHaveTheirArchitecturalEffect : Obligations.StoresHaveTheirArchitecturalEffect := by
  intro rs1 rs2 imm s pc ea up wf hea low high hup
  have inside : s.inMemory ea = true := (inMemory_iff s ea).mpr ⟨low, high⟩
  have address (i : Instr) (base : operand2 i = some rs2) :=
    (loadsAndStoresComputeAddressesAtExecute rs1 rs1 rs2 imm ((s.aloneInExecute pc i).at .execute) (s.captured pc i) (s.reg rs2)
      ea up rfl rfl hea hup).2 (congrArg (Option.map s.reg) base)
  have named := readMem_writeMem_same s (memIndex ea) (s.reg rs1) wf
  have others (a : Nat) (ha : a ≠ ea.toInt.toNat) := readMem_writeMem_other s (memIndex ea) a (s.reg rs1) ha
  refine ⟨fun h => ?store, fun h => ?storep⟩
  case store =>
    have answers : AnswersAlone s pc _ _ _ _ _ _ := {
      alone := h, goesOn := nofun, untrained := rfl
      execute := (address (.store rs1 rs2 imm) rfl).1
      leftExecute := ⟨rfl, rfl, rfl⟩
      memory := exec_memory_of_store rfl rfl rfl rfl rfl inside
      leftMemory := ⟨rfl, rfl⟩
      writeback := exec_writeback_of_no_writes rfl nofun rfl rfl
      leftWriteback := rfl }
    exact ⟨_, answers.commits.1, answers.commits.2, named, others⟩
  case storep =>
    have answers : AnswersAlone s pc _ _ _ _ _ _ := {
      alone := h, goesOn := nofun, untrained := rfl
      execute := (address (.storep rs1 rs2 imm) rfl).2
      leftExecute := ⟨rfl, rfl, rfl⟩
      memory := exec_memory_of_store rfl rfl rfl rfl rfl inside
      leftMemory := ⟨rfl, rfl⟩
      writeback := (postIncrementFormsCommitTheBase rs1 rs1 rs2 imm _ _ up rfl rfl rfl).2
      leftWriteback := rfl }
    exact ⟨_, answers.commits.1, answers.commits.2, named, others⟩

/-! ## NOP (R309) -/

theorem AloneInDecode.commits_nop {s : State} {pc : Word} (h : AloneInDecode s pc .nop) :
    ∃ t, Sys2Proof.core.run 4 s = .next t ∧ CommittedAlone s t pc .nop s.x s.flags s.dmem := by
  have answers : AnswersAlone s pc .nop _ _ _ _ _ := {
    alone := h, goesOn := nofun, untrained := rfl
    execute := (otherInstructionsPassUnchanged _ (s.captured pc .nop)).1 rfl rfl |>.1
    leftExecute := ⟨rfl, rfl, rfl⟩
    memory := exec_memory_of_no_access rfl rfl rfl
    leftMemory := ⟨rfl, rfl⟩
    writeback := exec_writeback_of_no_writes rfl nofun rfl rfl
    leftWriteback := rfl }
  exact ⟨_, answers.commits⟩

end Sys2Proof.Machine
end

section
/-! PROOFS. Ticks that end before Fetch (40_scheduler.md R115; 60_exceptions.md R336, R337): a HALT that commits, and the three
places where a fault is recorded. -/

namespace Sys2Proof.Machine

/-! ## The stage in which a tick ends -/

section
variable {s u1 u2 u3 : State}

/-- The tick after its Writeback. -/
theorem step_after_writeback (running : s.terminal = false) (writeback : Performs .writeback s.wl { s with committed := none } u1) :
    step s = .next (live fetchState (live decodeState (live executeState (live memoryState u1)))).endTick := by
  rw [step_eq, tickState_running running, writebackState_of_performs (s := { s with committed := none }) writeback]

theorem step_ends_at_writeback (running : s.terminal = false)
    (writeback : Performs .writeback s.wl { s with committed := none } u1) (ended : u1.terminal = true) :
    step s = .next u1.endTick := by
  rw [step_after_writeback running writeback, live_ended memoryState ended, live_ended executeState ended,
    live_ended decodeState ended, live_ended fetchState ended]

theorem step_ends_at_memory (running : s.terminal = false)
    (writeback : Performs .writeback s.wl { s with committed := none } u1) (live1 : u1.terminal = false)
    (ended : (memoryState u1).terminal = true) : step s = .next (memoryState u1).endTick := by
  rw [step_after_writeback running writeback, live_running memoryState live1, live_ended executeState ended,
    live_ended decodeState ended, live_ended fetchState ended]

theorem step_ends_at_execute (running : s.terminal = false)
    (writeback : Performs .writeback s.wl { s with committed := none } u1) (live1 : u1.terminal = false)
    (memory : Performs .memory u1.ml u1 u2) (live2 : u2.terminal = false) (ended : (executeState u2).terminal = true) :
    step s = .next (executeState u2).endTick := by
  rw [step_after_writeback running writeback, live_running memoryState live1, memoryState_of_performs memory,
    live_running executeState live2, live_ended decodeState ended, live_ended fetchState ended]

theorem step_ends_at_decode (running : s.terminal = false)
    (writeback : Performs .writeback s.wl { s with committed := none } u1) (live1 : u1.terminal = false)
    (memory : Performs .memory u1.ml u1 u2) (live2 : u2.terminal = false) (execute : Performs .execute u2.el u2 u3)
    (live3 : u3.terminal = false) (ended : (decodeState u3).terminal = true) : step s = .next (decodeState u3).endTick := by
  rw [step_after_writeback running writeback, live_running memoryState live1, memoryState_of_performs memory,
    live_running executeState live2, executeState_of_performs execute, live_running decodeState live3,
    live_ended fetchState ended]

end

/-! ## HALT (48_insn_control.md R310, 44_memory_writeback.md R219) -/

/-- Nothing is in flight but what `EL`, `ML` and `WL` hold as given, `n` ticks after `s`. -/
def State.drained (s : State) (el ml wl : Option Latch) (n : Nat) : State :=
  { s with
    dl := none
    dlStall := false
    el := el
    ml := ml
    wl := wl
    clock := s.clock + n
    committed := none
    turn := .fetch }

section
variable {s : State} {pc : Word}

/-- With Fetch disabled nothing is behind a HALT that was alone, and Decode has only moved it on. -/
theorem AloneInDecode.aloneInExecute_halt (h : AloneInDecode s pc .halt) (disabled : s.fetchEn = false) :
    s.aloneInExecute pc .halt = s.drained (some (Latch.fresh pc (.instr .halt))) none none 1 := by
  have untrained : s.predictorAfterDecode pc .halt = (s.btb, s.btbHead) := State.predictorAfterDecode_of_untrained rfl
  have behind : s.haltBehind = none ∧ s.pcBehind = s.pc := by simp [State.haltBehind, State.pcBehind, disabled]
  simp only [State.aloneInExecute, State.drained, untrained, behind, disabled, h.fetchIdle.1, h.memoryEmpty, h.writebackEmpty]
  rfl

/-- The four ticks of a HALT: Decode, Execute and Memory move it on, and Writeback ends the run. -/
theorem AloneInDecode.halts (h : AloneInDecode s pc .halt) (disabled : s.fetchEn = false) :
    Sys2Proof.core.run 4 s = .next { s with
      halted := true
      insnCompleted := s.insnCompleted + 1
      clock := s.clock + 4
      committed := some pc
      dl := none
      dlStall := false
      turn := .fetch } := by
  have off : s.fetchOff := ⟨h.fetchIdle.2, h.fetchIdle.1, disabled⟩
  generalize hl : Latch.fresh pc (.instr .halt) = l
  have ho : l.op = .instr .halt := hl ▸ rfl
  have decodes : step s = .next (s.drained (some l) none none 1) := by
    rw [h.step_eq, h.aloneInExecute_halt disabled, hl]
  have executes : step (s.drained (some l) none none 1) = .next (s.drained none (some l) none 2) :=
    step_executes (s := s.drained (some l) none none 1) h.running rfl rfl rfl ho
      ((otherInstructionsPassUnchanged _ l).1 rfl rfl).2 h.running (.inl rfl) rfl rfl off
  have accesses : step (s.drained none (some l) none 2) = .next (s.drained none none (some l) 3) :=
    step_accesses (s := s.drained none (some l) none 2) h.running rfl rfl ho (exec_memory_of_no_access rfl rfl rfl) h.running
      (.inl rfl) rfl rfl off
  have commits := otherInstructionsOnlyRetireAndHaltEndsTheRun .halt
    { (s.drained none none (some l) 3) with committed := none, turn := .writeback } l rfl rfl rfl
  have ends := step_ends_at_writeback (s := s.drained none none (some l) 3) h.running (.inr ⟨l, .halt, rfl, ho, commits⟩)
    (by simp [State.terminal])
  rw [core_run_of_step decodes, core_run_of_step executes, core_run_of_step accesses, core_run_of_step ends]
  simp [State.drained, State.endTick, Host.Core.run, h.executeEmpty, h.memoryEmpty, h.writebackEmpty, ← hl, Latch.fresh]

end

/-- Settles O42: the four ticks of NOP are those of `AnswersAlone`, and the fourth tick of HALT ends at Writeback. -/
theorem nopDoesNothingAndHaltEndsTheRun : Obligations.NopDoesNothingAndHaltEndsTheRun :=
  fun _ _ => ⟨fun h => h.commits_nop, fun h disabled => h.halts disabled⟩

/-! ## Faults (60_exceptions.md R331 to R333, R336, R337) -/

/-- A fault raised in a stage, at the end of the tick: recorded, and the tick counted (R336). -/
theorem raise_endTick (u : State) (stage : Stage) (f : Fault) :
    ((u.at stage).raise f).endTick = { u with fault := some f, clock := u.clock + 1, turn := .fetch } := rfl

section
variable {s u : State} {l : Latch}

/-- A load or store out of range faults at Memory (R331). -/
theorem memoryState_outOfRange {i : Instr} {a : Word} (hl : s.ml = some l) (ho : l.op = .instr i)
    (access : accessesMemory i = true) (ha : l.addr = some a) (out : s.inMemory a = false) :
    memoryState s = (s.at .memory).raise (.memoryFault l.pc a) := by
  rw [memoryState_instr hl ho]
  have kind : i.opClass = .load ∨ i.opClass = .store := by simpa [accessesMemory] using access
  rcases kind with load | store
  · rw [memoryAction_of_load load]
    exact loadWord_outOfRange hl ha out
  · rw [memoryAction_of_store store]
    exact storeWord_outOfRange hl ha out

/-- A division that faults does so at Execute (R332). -/
theorem executeState_of_divFaults {rd rs1 rs2 : Reg} {a b : Word} (hl : s.el = some l)
    (ho : l.op = .instr (.div rd rs1 rs2)) (ha : l.v1 = some a) (hb : l.v2 = some b) (faults : divFaults s.cfg a b = true) :
    executeState s = (s.at .execute).raise (.arithmeticFault l.pc) := by
  have answer := computeDiv_of_captured (s := s.at .execute) rd hl ha hb
  rw [executeState_instr hl ho]
  exact answer.trans (if_pos faults)

/-- What Writeback of a tick leaves when it does not end the tick: `WL` is empty, and its occupant has committed. -/
theorem Performs.writeback_commits (performs : Performs .writeback s.wl s u) (goesOn : u.terminal = false) :
    u.wl = none ∧ (s.wl ≠ none → u.insnCompleted = s.insnCompleted + 1) := by
  have wl : u.wl = none := by
    rw [← writebackState_of_performs performs] at goesOn ⊢
    exact writebackState_wl goesOn
  refine ⟨wl, fun occupied => ?_⟩
  rcases performs with ⟨empty, -⟩ | ⟨l, i, hl, -, answer⟩
  · exact absurd empty occupied
  · exact (committed_of_exec (s := s.at .writeback) rfl hl answer wl).counted

/-- What Memory of a tick leaves when it does not end the tick: the occupant of `ML` is in `WL`, uncommitted. -/
theorem Performs.memory_moves (performs : Performs .memory s.ml s u) (wl : s.wl = none) (goesOn : u.terminal = false) :
    MemoryKeeps s u ∧ u.ml = none ∧ occupant u.wl = occupant s.ml := by
  rw [← memoryState_of_performs performs] at goesOn ⊢
  exact ⟨memoryState_keeps s, memoryState_ml goesOn, memoryState_moves wl goesOn⟩

/-- What Execute of a tick leaves when it does not end the tick: the occupant of `EL` is in `ML`. -/
theorem Performs.execute_moves (performs : Performs .execute s.el s u) (ml : s.ml = none) (goesOn : u.terminal = false) :
    ExecuteKeeps s u ∧ occupant u.ml = occupant s.el := by
  rw [← executeState_of_performs performs] at goesOn ⊢
  exact ⟨executeState_keeps s, executeState_moves ml goesOn⟩

end

/-- Settles O44: each clause is the tick that ends at its stage, and the latches before it have moved on as `Performs` says. -/
theorem aFaultEndsTheTickWhereItStands : Obligations.AFaultEndsTheTickWhereItStands := by
  intro s u1 running writeback live1
  have kept1 : WritebackKeeps { s with committed := none } u1 :=
    writebackState_of_performs (s := { s with committed := none }) writeback ▸ writebackState_keeps _
  obtain ⟨wl1, committed⟩ := Performs.writeback_commits (s := { s with committed := none }) writeback live1
  refine ⟨fun l i a hl ho access ha out => ⟨wl1, committed, ?memoryFault⟩, fun u2 memory live2 => ?_⟩
  case memoryFault =>
    have range : u1.inMemory a = false := (inMemory_eq_false_iff u1 a).mpr (kept1.cfg.symm ▸ out)
    have faults := memoryState_outOfRange hl ho access ha range
    rw [step_ends_at_memory running writeback live1 (by rw [faults, State.terminal_raise]), faults, raise_endTick, kept1.clock]
  obtain ⟨kept2, ml2, moved2⟩ := memory.memory_moves wl1 live2
  have clock2 : u2.clock = s.clock := kept2.clock.trans kept1.clock
  rw [kept1.ml] at moved2
  refine ⟨fun l a b rd rs1 rs2 hl ho ha hb divides => ⟨moved2, kept2.x, kept2.insnCompleted, ?arithmeticFault⟩,
    fun u3 l execute live3 hl ho => ?_⟩
  case arithmeticFault =>
    have cfg : u2.cfg = s.cfg := kept2.cfg.trans kept1.cfg
    have faults := executeState_of_divFaults hl ho ha hb ((divFaults_iff u2.cfg a b).mpr (cfg.symm ▸ divides))
    rw [step_ends_at_execute running writeback live1 memory live2 (by rw [faults, State.terminal_raise]), faults, raise_endTick,
      clock2]
  obtain ⟨kept3, moved3⟩ := execute.execute_moves ml2 live3
  rw [kept2.el, kept1.el] at moved3
  refine ⟨?_, moved3, kept3.x.trans kept2.x, kept3.insnCompleted.trans kept2.insnCompleted, ?fetchFault⟩
  · rw [kept3.wl]
    exact moved2
  case fetchFault =>
    have faults := decodeState_invalid hl ho
    rw [step_ends_at_decode running writeback live1 memory live2 execute live3 (by rw [faults, State.terminal_raise]), faults,
      ← clock2, ← kept3.clock]
    rfl

end Sys2Proof.Machine
end
